-- ==== Sys2Proof/Word.lean ====
section
/-! DEFINITION. The word widths of the hart: XLEN is one of 32, 64 and 128 (00_scope.md R7, 92 D1); a byte is the unit
of memory (20_memory.md R100); 32 general registers (10_state.md R21). Bit-field and byte-order helpers stand in
Machine/Layout.lean. -/

namespace Sys2Proof

/-- XLEN: the width of the widest variant the hart supports, fixed for a run (00_scope.md R7, 92 D1). -/
inductive XLen where
  | rv32
  | rv64
  | rv128
  deriving DecidableEq, Repr

/-- XLEN in bits. -/
abbrev XLen.bits : XLen → Nat
  | .rv32 => 32
  | .rv64 => 64
  | .rv128 => 128

/-- An XLEN-bit value, for a given XLEN. -/
abbrev Word (n : Nat) := BitVec n

abbrev Byte := BitVec 8

/-- The number of a general register, `x0` to `x31` (10_state.md R21, 30_encoding.md R132). -/
abbrev Reg := Fin 32

end Sys2Proof
end

