-- ==== Sys2Proof/Config.lean ====
section
/-! DEFINITION. The configuration record of 00_scope.md R7, as plain data that State carries and no step changes; the
names the spec gives to modes, schemes, status values, fields, addresses and events; the free values. Default values are in
Machine/Layout.lean. What is fixed and not a field of the record is listed in NOTES.md (log entries 15, 21, 34). -/

namespace Sys2Proof

/-- Privilege modes (10_state.md R25); their 2-bit codes are in Machine/Layout.lean. -/
inductive Priv where
  | u
  | s
  | h
  | m
  deriving DecidableEq, Repr

/-- The sets of modes a hart can support: every multi-mode set contains U (92 D2). -/
inductive Modes where
  | m
  | um
  | usm
  | ushm
  deriving DecidableEq, Repr

/-- Virtualization schemes the source names (10_state.md R48). -/
inductive VmScheme where
  | mbare
  | mbb
  | mbbid
  | sv32
  | sv39
  | sv48
  deriving DecidableEq, Repr

/-- The four states of `FS` and `XS` (10_state.md R55). -/
inductive ExtStatus where
  | off
  | initial
  | clean
  | dirty
  deriving DecidableEq, Repr

/-- `IALIGN` in bits (00_scope.md R7, 92 D35). -/
inductive IAlign where
  | a16
  | a32
  deriving DecidableEq, Repr

/-- `MISALIGNED_DATA` (20_memory.md R110). -/
inductive MisalignedPolicy where
  | trap
  | perform
  deriving DecidableEq, Repr

/-- The kinds of access `PMEM` tells apart (20_memory.md R115). -/
inductive AccessKind where
  | execute
  | load
  | store
  deriving DecidableEq, Repr

/-- One range of physical addresses that holds memory, with its permissions (20_memory.md R115, 92 D38). -/
structure Region where
  base : Nat
  size : Nat
  read : Bool
  write : Bool
  execute : Bool
  deriving DecidableEq, Repr

/-- The bits of `mip` or of `mie`, by level and kind (10_state.md R70). -/
structure IntLayout where
  ssoft : Nat
  hsoft : Nat
  msoft : Nat
  stimer : Nat
  htimer : Nat
  mtimer : Nat
  deriving DecidableEq, Repr

/-- `LAYOUT` (00_scope.md R7, 92 D6): the low bit of every field of every CSR, by name. The fields' widths are the rules'.
`Extensions` of `mcpuid` is not here: the text itself numbers its bits 25 to 0 (10_state.md R29). -/
structure Layout where
  /-- `mcpuid.Base` (10_state.md R29) -/
  base : Nat
  /-- `mimpid.Source` (10_state.md R33) -/
  source : Nat
  /-- `mimpid.Implementation` (10_state.md R33) -/
  implementation : Nat
  /-- `mstatus`, R40, from here to `sd` -/
  ie : Nat
  prv : Nat
  ie1 : Nat
  prv1 : Nat
  ie2 : Nat
  prv2 : Nat
  ie3 : Nat
  prv3 : Nat
  fs : Nat
  xs : Nat
  mprv : Nat
  vm : Nat
  sd : Nat
  /-- 10_state.md R70 -/
  mip : IntLayout
  /-- 10_state.md R70 -/
  mie : IntLayout
  /-- `mcause.Interrupt` (10_state.md R89) -/
  interrupt : Nat
  /-- `mcause.Exception Code` (10_state.md R89) -/
  code : Nat
  deriving DecidableEq, Repr

/-- `CSR_ADDR` (00_scope.md R7, 92 D7): the 12-bit address of each CSR. -/
structure CsrAddresses where
  mcpuid : BitVec 12
  mimpid : BitVec 12
  mhartid : BitVec 12
  mstatus : BitVec 12
  mtvec : BitVec 12
  mtdeleg : BitVec 12
  mie : BitVec 12
  mtimecmp : BitVec 12
  mtime : BitVec 12
  mscratch : BitVec 12
  mepc : BitVec 12
  mcause : BitVec 12
  mbadaddr : BitVec 12
  mip : BitVec 12
  deriving DecidableEq, Repr

/-- One entry of `EXTRA_VECTORS` (60_exceptions.md R240, 92 D40): the cause it serves, as `mcause` records it, and its place
from `mtvec` on, in four-byte slots. DESIGN CHOICE (log entry 36): the spec says no more than that such entries may exist. -/
structure VectorEntry where
  interrupt : Bool
  code : BitVec 4
  slot : Nat
  deriving DecidableEq, Repr

/-- What can happen at a boundary between instructions (10_state.md R75, R78; 60_exceptions.md R232). `stip` and
`htip` stand for whatever sets or clears STIP and HTIP, which no source says (91 Q15; log entry 12). -/
inductive EnvEvent where
  /-- `mtime` advances by one -/
  | tick
  /-- another hart or the platform writes `mip.MSIP` -/
  | remoteMsip (value : Bool)
  | stip (value : Bool)
  | htip (value : Bool)
  /-- an NMI is signalled, for this boundary -/
  | nmi
  deriving DecidableEq, Repr

/-- The implementation parameters of 00_scope.md R7. DESIGN CHOICE (log entry 3): the record is a field of State, so a
statement about every state is a statement about every hart. -/
structure Config where
  /-- `XLEN` -/
  xlen : XLen
  /-- `MODES` -/
  modes : Modes
  /-- the base is RV32E: registers `x0` to `x15` only (10_state.md R21, 30_encoding.md R132) -/
  rve : Bool
  /-- `HAS_FPU` -/
  hasFpu : Bool
  /-- `HAS_XS` -/
  hasXs : Bool
  /-- `IALIGN` -/
  ialign : IAlign
  /-- `MCPUID` -/
  mcpuid : Word xlen.bits
  /-- `MIMPID` -/
  mimpid : Word xlen.bits
  /-- `MHARTID` -/
  mhartid : Word xlen.bits
  /-- `VEC_HIGH` -/
  vecHigh : Bool
  /-- `MTVEC_W`, as the mask of the writable bit positions of `mtvec` -/
  mtvecW : Word xlen.bits
  /-- `MTDELEG_W` -/
  mtdelegW : Word xlen.bits
  /-- `VM_SUPPORTED` -/
  vmSupported : List VmScheme
  /-- `MTIME_BITS` -/
  mtimeBits : Nat
  /-- `NMI_PRESENT` -/
  nmiPresent : Bool
  /-- `EXTRA_VECTORS` -/
  extraVectors : List VectorEntry
  /-- `PMEM` -/
  pmem : List Region
  /-- `MISALIGNED_DATA` -/
  misaligned : MisalignedPolicy
  /-- `CSR_ADDR` -/
  csrAddr : CsrAddresses
  /-- `LAYOUT` -/
  layout : Layout
  deriving DecidableEq, Repr

/-- XLEN of a configured hart, in bits. -/
abbrev Config.width (c : Config) : Nat := c.xlen.bits

/-- The FREE VALUE behind every `draw(N)` of the spec (00_scope.md R11): `draw w k` is the k-th value drawn, at width w.
It has no body, so nothing can be proved of it: a claim about it holds for every value (log entry 7). -/
opaque Config.draw (w k : Nat) : BitVec w

/-- The FREE EVENTS of the environment (10_state.md R78, 70_reset_and_hazards.md R303): what happens at the boundary a hart
counts as its `n`-th, where its state lists no events for it. It has no body, so no claim can rest on a tick coming, or not
coming, there (log entry 8). -/
opaque Config.environment (n : Nat) : List EnvEvent

end Sys2Proof
end

