-- ==== Sys2Proof/Machine/Layout.lean ====
section
/-! DEFINITION. Encodings of named values, the default configuration with its addresses and places of fields, the assembly
of a register from its fields, the vectors, and the byte-order helpers. Every rule here can be mended without touching a
type. -/

namespace Sys2Proof

/-! ### Modes (10_state.md R25, R44) -/

/-- 10_state.md R25: U = 0, S = 1, H = 2, M = 3. -/
def Priv.code : Priv → BitVec 2
  | .u => 0
  | .s => 1
  | .h => 2
  | .m => 3

def Priv.ofCode (b : BitVec 2) : Priv :=
  if b = 0 then .u else if b = 1 then .s else if b = 2 then .h else .m

/-- `a <u b` on modes (00_scope.md R10). -/
def Priv.below (a b : Priv) : Bool := a.code.ult b.code

/-- Is the mode in `MODES`? -/
def Modes.has : Modes → Priv → Bool
  | _, .m => true
  | .m, _ => false
  | _, .u => true
  | .um, _ => false
  | _, .s => true
  | .usm, .h => false
  | .ushm, .h => true

/-- The depth D of the privilege stack (10_state.md R44). -/
def Modes.depth : Modes → Nat
  | .m => 2
  | .um => 2
  | .usm => 3
  | .ushm => 4

/-- LOWEST of 10_state.md R46. -/
def Modes.lowest : Modes → Priv
  | .m => .m
  | _ => .u

/-- With M alone every `PRV` field is hardwired to 0b11 (10_state.md R41, R44). -/
def Modes.prv : Modes → Priv → Priv
  | .m, _ => .m
  | _, p => p

/-! ### Other encodings -/

/-- 10_state.md R48. -/
def VmScheme.code : VmScheme → BitVec 5
  | .mbare => 0
  | .mbb => 1
  | .mbbid => 2
  | .sv32 => 8
  | .sv39 => 9
  | .sv48 => 10

/-- The scheme a `VM` value names; reserved values name none (10_state.md R48). -/
def VmScheme.ofCode (b : BitVec 5) : Option VmScheme :=
  if b = 0 then some .mbare else if b = 1 then some .mbb else if b = 2 then some .mbbid
  else if b = 8 then some .sv32 else if b = 9 then some .sv39 else if b = 10 then some .sv48 else none

/-- 10_state.md R55. -/
def ExtStatus.code : ExtStatus → BitVec 2
  | .off => 0
  | .initial => 1
  | .clean => 2
  | .dirty => 3

def ExtStatus.ofCode (b : BitVec 2) : ExtStatus :=
  if b = 0 then .off else if b = 1 then .initial else if b = 2 then .clean else .dirty

/-- IALIGN/8, the bytes an instruction address is a multiple of (20_memory.md R109). -/
def IAlign.bytes : IAlign → Nat
  | .a16 => 2
  | .a32 => 4

/-- The registers `x0` to `x15` of RV32E, or all 32 (10_state.md R21, 30_encoding.md R132). -/
def Config.regOk (c : Config) (r : Reg) : Bool := !c.rve || decide (r.val < 16)

/-! ### Places of fields -/

/-- The field `v` at bit `pos` of an n-bit word, the rest 0. -/
def place {w : Nat} (n pos : Nat) (v : BitVec w) : Word n := v.setWidth n <<< pos

/-- The top bit of an n-bit word. -/
def topBit (n : Nat) : Nat := n - 1

/-- A field in a word: its low bit and its value. -/
structure Placed where
  pos : Nat
  width : Nat
  value : BitVec width

/-- A one-bit field. -/
def Placed.bit (pos : Nat) (b : Bool) : Placed := ⟨pos, 1, BitVec.ofBool b⟩

/-- The word that holds these fields and is 0 elsewhere. -/
def assemble (n : Nat) : List Placed → Word n
  | [] => 0
  | f :: fs => place n f.pos f.value ||| assemble n fs

/-- The fields, each by its low bit and its width, lie in an n-bit word and do not overlap. -/
def spansOk (n : Nat) : List (Nat × Nat) → Bool
  | [] => true
  | (p, w) :: rest =>
    decide (p + w ≤ n) && rest.all (fun q => decide (p + w ≤ q.1) || decide (q.1 + q.2 ≤ p)) && spansOk n rest

/-- Bit of `IEk` in `mstatus` (10_state.md R40). -/
def Layout.iePos (l : Layout) : Nat → Nat
  | 0 => l.ie
  | 1 => l.ie1
  | 2 => l.ie2
  | _ => l.ie3

/-- Low bit of `PRVk` in `mstatus` (10_state.md R40). -/
def Layout.prvPos (l : Layout) : Nat → Nat
  | 0 => l.prv
  | 1 => l.prv1
  | 2 => l.prv2
  | _ => l.prv3

/-- The fields of `mstatus` with their widths (10_state.md R40). -/
def Layout.mstatusSpans (l : Layout) : List (Nat × Nat) :=
  [(l.ie, 1), (l.prv, 2), (l.ie1, 1), (l.prv1, 2), (l.ie2, 1), (l.prv2, 2), (l.ie3, 1), (l.prv3, 2), (l.fs, 2), (l.xs, 2),
   (l.mprv, 1), (l.vm, 5), (l.sd, 1)]

/-- The fields of `mip` or of `mie` (10_state.md R70). -/
def IntLayout.spans (l : IntLayout) : List (Nat × Nat) :=
  [(l.ssoft, 1), (l.hsoft, 1), (l.msoft, 1), (l.stimer, 1), (l.htimer, 1), (l.mtimer, 1)]

/-- The fields of `mcause` with their widths (10_state.md R89). -/
def Layout.mcauseSpans (l : Layout) : List (Nat × Nat) := [(l.interrupt, 1), (l.code, 4)]

/-- Every field of every register of an n-bit hart has bits of its own (00_scope.md R7); the stack rises from the current
entry, and the software bits lie below the timer bits, as the text says (10_state.md R40, R70). -/
def Layout.ok (n : Nat) (l : Layout) : Bool :=
  spansOk n l.mstatusSpans && spansOk n l.mip.spans && spansOk n l.mie.spans && spansOk n l.mcauseSpans &&
  spansOk n [(l.base, 2), (0, 26)] && spansOk n [(l.source, 16), (l.implementation, n - 16)] &&
  decide (l.prv < l.prv1 ∧ l.prv1 < l.prv2 ∧ l.prv2 < l.prv3 ∧ l.ie < l.ie1 ∧ l.ie1 < l.ie2 ∧ l.ie2 < l.ie3) &&
  [l.mip, l.mie].all (fun b =>
    [b.ssoft, b.hsoft, b.msoft].all (fun s => [b.stimer, b.htimer, b.mtimer].all (fun t => decide (s < t))))

/-! ### Defaults (00_scope.md R7) -/

/-- The positions of 10_state.md R70. -/
def IntLayout.default : IntLayout where
  ssoft := 1
  hsoft := 2
  msoft := 3
  stimer := 5
  htimer := 6
  mtimer := 7

/-- The positions of 10_state.md R29, R33, R40, R70 and R89, for an n-bit hart. -/
def Layout.default (n : Nat) : Layout where
  base := n - 2
  source := 0
  implementation := 16
  ie := 0
  prv := 1
  ie1 := 3
  prv1 := 4
  ie2 := 6
  prv2 := 7
  ie3 := 9
  prv3 := 10
  fs := 12
  xs := 14
  mprv := 16
  vm := 17
  sd := topBit n
  mip := IntLayout.default
  mie := IntLayout.default
  interrupt := topBit n
  code := 0

/-- 30_encoding.md R137. -/
def CsrAddresses.default : CsrAddresses where
  mcpuid := 0xF00
  mimpid := 0xF01
  mhartid := 0xF10
  mstatus := 0x300
  mtvec := 0x301
  mtdeleg := 0x302
  mie := 0x304
  mtimecmp := 0x321
  mtime := 0x701
  mscratch := 0x340
  mepc := 0x341
  mcause := 0x342
  mbadaddr := 0x343
  mip := 0x344

/-- The default column of 00_scope.md R7. DESIGN CHOICE (log entry 4): `PMEM`, for which R7 gives no default, is the
whole 32-bit address space, readable, writable and executable. -/
def Config.default : Config where
  xlen := .rv32
  modes := .m
  rve := false
  hasFpu := false
  hasXs := false
  ialign := .a32
  mcpuid := 0x00000100#32
  mimpid := 0#32
  mhartid := 0#32
  vecHigh := false
  mtvecW := 0#32
  mtdelegW := 0#32
  vmSupported := [.mbare]
  mtimeBits := 64
  nmiPresent := false
  extraVectors := []
  pmem := [⟨0, 2 ^ 32, true, true, true⟩]
  misaligned := .trap
  csrAddr := CsrAddresses.default
  layout := Layout.default 32

/-! ### Alignment and the vectors -/

/-- Drops the low bits that an instruction address never has (10_state.md R86). -/
def Config.alignPc (c : Config) (v : Word c.width) : Word c.width :=
  v &&& ~~~(BitVec.ofNat c.width (c.ialign.bytes - 1))

/-- Is it a multiple of IALIGN/8 bytes (20_memory.md R109)? -/
def Config.pcAligned (c : Config) (v : Word c.width) : Bool := v.toNat % c.ialign.bytes == 0

/-- 10_state.md R58, R98: 0x0...0100 or 0xF...FFE00. -/
def Config.mtvecReset (c : Config) : Word c.width :=
  if c.vecHigh then -(BitVec.ofNat c.width 0x200) else BitVec.ofNat c.width 0x100

/-- 10_state.md R58, R98: 0x0...0200 or 0xF...FFF00. -/
def Config.resetVector (c : Config) : Word c.width :=
  if c.vecHigh then -(BitVec.ofNat c.width 0x100) else BitVec.ofNat c.width 0x200

/-- The entry of `EXTRA_VECTORS` for a cause, as an offset from `mtvec`: the first one listed (60_exceptions.md R240). -/
def Config.extraVector (c : Config) (interrupt : Bool) (code : BitVec 4) : Option Nat :=
  (c.extraVectors.find? (fun e => e.interrupt == interrupt && e.code == code)).map (fun e => 4 * e.slot)

/-! ### Byte order (20_memory.md R108) -/

/-- The k low bytes of a number, the lowest first. -/
def leBytes : Nat → Nat → List Byte
  | 0, _ => []
  | k + 1, v => BitVec.ofNat 8 v :: leBytes k (v / 256)

/-- The number whose bytes, lowest first, these are. -/
def leNat : List Byte → Nat
  | [] => 0
  | b :: bs => b.toNat + 256 * leNat bs

end Sys2Proof
end

