-- ==== Sys2Proof/Syntax.lean ====
section
/-! DEFINITION. The eleven instructions of spec/opcode_table.json, one constructor a row, and the names of the CSRs.
A `csr` operand stays the 12-bit number of the word: an address that names no register is a legal encoding whose
execution traps (40_csr_instructions.md R165). -/

namespace Sys2Proof

/-- The machine-level CSRs (10_state.md R26); addresses in Machine/Operands.lean. -/
inductive Csr where
  | mcpuid
  | mimpid
  | mhartid
  | mstatus
  | mtvec
  | mtdeleg
  | mie
  | mtimecmp
  | mtime
  | mscratch
  | mepc
  | mcause
  | mbadaddr
  | mip
  deriving DecidableEq, Repr

/-- The instructions (30_encoding.md R133, R135). -/
inductive Instr where
  | csrrw (rd : Reg) (csr : BitVec 12) (rs1 : Reg)
  | csrrs (rd : Reg) (csr : BitVec 12) (rs1 : Reg)
  | csrrc (rd : Reg) (csr : BitVec 12) (rs1 : Reg)
  | csrrwi (rd : Reg) (csr : BitVec 12) (zimm : BitVec 5)
  | csrrsi (rd : Reg) (csr : BitVec 12) (zimm : BitVec 5)
  | csrrci (rd : Reg) (csr : BitVec 12) (zimm : BitVec 5)
  | ecall
  | ebreak
  | eret
  | mrts
  | mrth
  deriving DecidableEq, Repr

end Sys2Proof
end

