-- ==== Sys2Proof/Decode.lean ====
section
/-! DEFINITION. Decoding by mask and match (30_encoding.md R139) and the encoder, from the same format (R131). A word that
no row matches is rejected by the reason the spec gives (R139 to R141); what becomes of it is Machine/Step.lean's
business: it goes to the base ISA, and without one it is an Illegal instruction. -/

namespace Sys2Proof

/-- Why bytes are no instruction of this spec. -/
inductive DecodeError where
  /-- fewer than four bytes (30_encoding.md R130) -/
  | truncated
  /-- the opcode is not SYSTEM: the base ISA's (R130, R139) -/
  | notSystem
  /-- funct3 = 0b100 (R141) -/
  | reservedFunct3
  /-- funct3 = 0 and none of the five words, or rd or rs1 not 0 (R135, R140) -/
  | noPrivileged
  deriving DecidableEq, Repr

/-! ### Fields of the I-SYSTEM format (30_encoding.md R131) -/

def fieldOpcode (w : BitVec 32) : BitVec 7 := w.extractLsb' 0 7
def fieldRd (w : BitVec 32) : Reg := (w.extractLsb' 7 5).toFin
def fieldFunct3 (w : BitVec 32) : BitVec 3 := w.extractLsb' 12 3
def fieldRs1 (w : BitVec 32) : Reg := (w.extractLsb' 15 5).toFin
def fieldZimm (w : BitVec 32) : BitVec 5 := w.extractLsb' 15 5
def fieldCsr (w : BitVec 32) : BitVec 12 := w.extractLsb' 20 12

/-- One row of the table: the words with `word &&& mask = pattern` are `build word` (30_encoding.md R139). -/
structure Row where
  mask : BitVec 32
  pattern : BitVec 32
  build : BitVec 32 → Instr

/-- The six CSR rows: opcode and funct3 decide (30_encoding.md R133, R139). -/
def csrRows : List Row :=
  [⟨0x0000707F#32, 0x00001073#32, fun w => .csrrw (fieldRd w) (fieldCsr w) (fieldRs1 w)⟩,
   ⟨0x0000707F#32, 0x00002073#32, fun w => .csrrs (fieldRd w) (fieldCsr w) (fieldRs1 w)⟩,
   ⟨0x0000707F#32, 0x00003073#32, fun w => .csrrc (fieldRd w) (fieldCsr w) (fieldRs1 w)⟩,
   ⟨0x0000707F#32, 0x00005073#32, fun w => .csrrwi (fieldRd w) (fieldCsr w) (fieldZimm w)⟩,
   ⟨0x0000707F#32, 0x00006073#32, fun w => .csrrsi (fieldRd w) (fieldCsr w) (fieldZimm w)⟩,
   ⟨0x0000707F#32, 0x00007073#32, fun w => .csrrci (fieldRd w) (fieldCsr w) (fieldZimm w)⟩]

/-- The five privileged words: the whole word decides (30_encoding.md R135, R139). -/
def privilegedRows : List Row :=
  [⟨0xFFFFFFFF#32, 0x00000073#32, fun _ => .ecall⟩,
   ⟨0xFFFFFFFF#32, 0x00100073#32, fun _ => .ebreak⟩,
   ⟨0xFFFFFFFF#32, 0x10000073#32, fun _ => .eret⟩,
   ⟨0xFFFFFFFF#32, 0x30500073#32, fun _ => .mrts⟩,
   ⟨0xFFFFFFFF#32, 0x30600073#32, fun _ => .mrth⟩]

def decodeTable : List Row := csrRows ++ privilegedRows

/-- The reason for a word that no row matches. -/
def decodeReason (w : BitVec 32) : DecodeError :=
  if fieldOpcode w ≠ 0x73#7 then .notSystem
  else if fieldFunct3 w = 4#3 then .reservedFunct3
  else .noPrivileged

/-- 30_encoding.md R139. -/
def decodeWord (w : BitVec 32) : Except DecodeError Instr :=
  match decodeTable.find? (fun r => w &&& r.mask == r.pattern) with
  | some r => .ok (r.build w)
  | none => .error (decodeReason w)

/-- The instruction at the head of a byte sequence, and the bytes after it: 32 bits, the lowest byte first
(30_encoding.md R130). -/
def decodeBytes : List Byte → Except DecodeError (Instr × List Byte)
  | b0 :: b1 :: b2 :: b3 :: rest =>
    match decodeWord (BitVec.ofNat 32 (leNat [b0, b1, b2, b3])) with
    | .ok i => .ok (i, rest)
    | .error e => .error e
  | _ => .error .truncated

/-! ### The encoder -/

/-- The I-SYSTEM word of its four free fields; the opcode is SYSTEM (30_encoding.md R131). -/
def packSystem (f12 : BitVec 12) (s1 : BitVec 5) (f3 : BitVec 3) (d : BitVec 5) : BitVec 32 :=
  f12 ++ s1 ++ f3 ++ d ++ 0x73#7

/-- A register number as a 5-bit field. -/
def regField (r : Reg) : BitVec 5 := BitVec.ofFin r

/-- The word of an instruction, field by field (30_encoding.md R131, R133, R135). -/
def encode : Instr → BitVec 32
  | .csrrw rd csr rs1 => packSystem csr (regField rs1) 1 (regField rd)
  | .csrrs rd csr rs1 => packSystem csr (regField rs1) 2 (regField rd)
  | .csrrc rd csr rs1 => packSystem csr (regField rs1) 3 (regField rd)
  | .csrrwi rd csr z => packSystem csr z 5 (regField rd)
  | .csrrsi rd csr z => packSystem csr z 6 (regField rd)
  | .csrrci rd csr z => packSystem csr z 7 (regField rd)
  | .ecall => packSystem 0x000 0 0 0
  | .ebreak => packSystem 0x001 0 0 0
  | .eret => packSystem 0x100 0 0 0
  | .mrts => packSystem 0x305 0 0 0
  | .mrth => packSystem 0x306 0 0 0

/-- The instruction's four bytes, lowest address first. -/
def encodeBytes (i : Instr) : List Byte := leBytes 4 (encode i).toNat

/-- What the decoder reads from an opcode-table word: the `nbits` bits of `w`, zeros above, laid out as four bytes. -/
def decodeTableWord (nbits w : Nat) : Option Instr :=
  match decodeBytes (leBytes 4 (w % 2 ^ nbits)) with
  | .ok (i, _) => some i
  | .error _ => none

end Sys2Proof
end

