-- ==== Sys2Proof/Machine/State.lean ====
section
/-! DEFINITION. The state of one hart and of its environment, as plain data: everything 10_state.md and 20_memory.md give
it, and three fields of the model's own (`env`, `boundary`, `draws`). INVENTORY.md lists every field with its rule. -/

namespace Sys2Proof.Machine

/-- Levels that have interrupt bits (10_state.md R70). -/
inductive Level where
  | s
  | h
  | m
  deriving DecidableEq, Repr

/-- The two kinds of maskable interrupt (60_exceptions.md R225). -/
inductive IntKind where
  | software
  | timer
  deriving DecidableEq, Repr

/-- Synchronous exceptions, each with the address it records, where it records one (60_exceptions.md R220). -/
inductive Exc (n : Nat) where
  | instMisaligned (target : Word n)
  | instAccess (at_ : Word n)
  | illegal
  | breakpoint
  | loadMisaligned (at_ : Word n)
  | loadAccess (at_ : Word n)
  | storeMisaligned (at_ : Word n)
  | storeAccess (at_ : Word n)
  | ecall (from_ : Priv)
  deriving DecidableEq, Repr

/-- Causes of a trap: an exception, a maskable interrupt, or an NMI with the code drawn for it
(60_exceptions.md R220, R225, R232). -/
inductive Cause (n : Nat) where
  | exception (e : Exc n)
  | interrupt (k : IntKind)
  | nmi (code : BitVec 4)
  deriving DecidableEq, Repr

/-- One entry of the privilege stack (10_state.md R44). -/
structure StackEntry where
  prv : Priv
  ie : Bool
  deriving DecidableEq, Repr

/-- `mstatus`, by field (10_state.md R40). `e0` is the current entry; entries at or above the depth D do not exist: the
accessors of Machine/Flags.lean read them as 0 and nothing writes them. `SD` is computed, not stored (R54). -/
structure MStatus where
  e0 : StackEntry
  e1 : StackEntry
  e2 : StackEntry
  e3 : StackEntry
  fs : ExtStatus
  xs : ExtStatus
  mprv : Bool
  vm : VmScheme
  deriving DecidableEq, Repr

/-- The six named bits of `mip`, and of `mie` (10_state.md R70). -/
structure IntBits where
  ssoft : Bool
  hsoft : Bool
  msoft : Bool
  stimer : Bool
  htimer : Bool
  mtimer : Bool
  deriving DecidableEq, Repr

/-- `mcause`: the middle bits read 0, so they are not stored (10_state.md R89, R90). -/
structure MCause where
  interrupt : Bool
  code : BitVec 4
  deriving DecidableEq, Repr

/-- Physical memory: bytes by address, strictly rising, none equal to what an unlisted address reads as
(Machine/Ops.lean). -/
abbrev Memory := List Host.Cell

/-- The state of a hart configured by `c`. -/
structure Hart (c : Config) where
  /-- `x0` to `x31`; the accessors hold `x0` at 0 (10_state.md R21) -/
  x : Vector (Word c.width) 32
  /-- 10_state.md R22 -/
  pc : Word c.width
  /-- 10_state.md R39 -/
  mstatus : MStatus
  /-- 10_state.md R57 -/
  mtvec : Word c.width
  /-- 10_state.md R63 -/
  mtdeleg : Word c.width
  /-- 10_state.md R68 -/
  mip : IntBits
  /-- 10_state.md R69 -/
  mie : IntBits
  /-- 10_state.md R78 -/
  mtime : BitVec c.mtimeBits
  /-- 10_state.md R79 -/
  mtimecmp : BitVec 32
  /-- 10_state.md R84 -/
  mscratch : Word c.width
  /-- 10_state.md R85 -/
  mepc : Word c.width
  /-- 10_state.md R88 -/
  mcause : MCause
  /-- 10_state.md R92 -/
  mbadaddr : Word c.width
  /-- 20_memory.md R100, R108 -/
  mem : Memory
  /-- The model's own: the environment's events at the next boundaries, one list each; at the boundaries after these the
  events are free (log entry 8). -/
  env : List (List EnvEvent)
  /-- The model's own: how many boundaries have passed (log entry 8). -/
  boundary : Nat
  /-- The model's own: how many free values were drawn (log entry 7). -/
  draws : Nat
  deriving DecidableEq, Repr

/-- The machine: the configuration, which no step changes, and the hart. `mcpuid`, `mimpid` and `mhartid` are constants of
the configuration (10_state.md R28, R33, R37). -/
structure State where
  cfg : Config
  hart : Hart cfg
  deriving DecidableEq, Repr

/-- Reasons the machine stops with a fault. No exception of the manual is one: those are traps. -/
inductive Fault where
  /-- Raised by `memRead` and `memWrite` when a base ISA asks for an access of no bytes, to which no rule gives a meaning;
  no instruction of the opcode table can raise it. Safe (log entry 26). -/
  | emptyAccess
  deriving DecidableEq, Repr

/-- Situations the model gives no meaning, each the spec's own `refuse` (00_scope.md R11). -/
inductive Refusal where
  /-- An arm of `exec` with no meaning yet. Safe. -/
  | notModelled (mnemonic : String)
  /-- Raised by a write of `mstatus` that puts a mode outside `MODES` into an existing `PRVk` (10_state.md R56). Safe. -/
  | mstatusMode
  /-- Raised by a write of `mstatus` whose `VM` names no supported scheme (10_state.md R56). Safe. -/
  | mstatusVm
  /-- Raised by a write of `mtime` (10_state.md R78). Safe. -/
  | mtimeWrite
  /-- Raised by a fetch or data access while `VM` is not Mbare (20_memory.md R107). Safe. -/
  | vmScheme
  /-- Raised by a trap whose handler mode is S or H (60_exceptions.md R253). Safe. -/
  | delegatedTrap
  /-- Raised by ERET in S or H mode (41_system_instructions.md R193). Safe. -/
  | eretBelowM
  /-- Raised by MRTS in M-mode when S is supported (41_system_instructions.md R194). Safe. -/
  | mrtsRedirect
  /-- Raised by MRTH in M-mode when H is supported (41_system_instructions.md R195). Safe. -/
  | mrthRedirect
  /-- Raised by an access to a supervisor-level or hypervisor-level CSR of a hart that has the mode (10_state.md R96).
  Safe. -/
  | lowerLevelCsr
  /-- Raised by a base ISA that refuses a word (00_scope.md R12). Safe. -/
  | baseIsa
  deriving DecidableEq, Repr

/-- A step's outcome on the hart alone. -/
abbrev Res (α : Type) := Host.Outcome α Fault Refusal

/-- `mstatus` after reset: M, IE = 0, Mbare, MPRV = 0 as 10_state.md R98 says; every other field a value this model names
(DESIGN CHOICE, log entry 6). -/
def MStatus.reset (c : Config) : MStatus where
  e0 := ⟨.m, false⟩
  e1 := ⟨c.modes.lowest, false⟩
  e2 := ⟨c.modes.lowest, false⟩
  e3 := ⟨c.modes.lowest, false⟩
  fs := .off
  xs := .off
  mprv := false
  vm := .mbare

def IntBits.none : IntBits := ⟨false, false, false, false, false, false⟩

/-- A hart right after reset (10_state.md R98, 70_reset_and_hazards.md R291). The registers the spec calls unspecified
hold 0 (DESIGN CHOICE, unsafe, log entry 6); memory lists nothing (log entry 5); no events are listed, so they are free
from the first boundary on (log entry 8). -/
def Hart.reset (c : Config) : Hart c where
  x := Vector.replicate 32 0
  pc := c.resetVector
  mstatus := MStatus.reset c
  mtvec := c.mtvecReset
  mtdeleg := 0
  mip := IntBits.none
  mie := IntBits.none
  mtime := 0
  mtimecmp := 0
  mscratch := 0
  mepc := 0
  mcause := ⟨false, 0⟩
  mbadaddr := 0
  mem := []
  env := []
  boundary := 0
  draws := 0

/-- The machine of any configuration right after reset. -/
def State.resetOf (c : Config) : State := ⟨c, Hart.reset c⟩

/-- The machine of the default configuration right after reset (log entry 3). -/
def State.reset : State := State.resetOf Config.default

end Sys2Proof.Machine
end

