-- ==== Sys2Proof/Machine/Flags.lean ====
section
/-! DEFINITION. The status fields and what is computed from them. The spec has no condition codes (10_state.md R23): its
status bits are the fields of `mstatus`, `mip`, `mie` and `mcause`. Hardwired fields get their value here, in the
accessors, whatever is stored (log entry 19). -/

namespace Sys2Proof.Machine

/-! ### `mstatus` (10_state.md R40 to R56) -/

/-- Entry k of the stack; an entry at or above the depth reads as 0 (10_state.md R44), and with M alone `PRVk` is M. -/
def stackEntry (c : Config) (ms : MStatus) (k : Nat) : StackEntry :=
  if k < c.modes.depth then
    let e := match k with
      | 0 => ms.e0
      | 1 => ms.e1
      | 2 => ms.e2
      | _ => ms.e3
    ⟨c.modes.prv e.prv, e.ie⟩
  else ⟨.u, false⟩

/-- `cur`, the current privilege mode: the field `PRV` (10_state.md R41). -/
def Hart.cur {c : Config} (h : Hart c) : Priv := (stackEntry c h.mstatus 0).prv

/-- `mstatus.IE` (10_state.md R42). -/
def Hart.ie {c : Config} (h : Hart c) : Bool := (stackEntry c h.mstatus 0).ie

/-- `FS`: 0 without a floating-point unit (10_state.md R53). -/
def fsOf (c : Config) (ms : MStatus) : ExtStatus := if c.hasFpu then ms.fs else .off

/-- `XS`: 0 without further extension state (10_state.md R53). -/
def xsOf (c : Config) (ms : MStatus) : ExtStatus := if c.hasXs then ms.xs else .off

/-- `SD` (10_state.md R54). -/
def sdOf (c : Config) (ms : MStatus) : Bool := fsOf c ms == .dirty || xsOf c ms == .dirty

/-- The fields of `mstatus`, each with its value (10_state.md R40). -/
def mstatusFields (c : Config) (ms : MStatus) : List Placed :=
  [.bit c.layout.ie (stackEntry c ms 0).ie, ⟨c.layout.prv, 2, (stackEntry c ms 0).prv.code⟩,
   .bit c.layout.ie1 (stackEntry c ms 1).ie, ⟨c.layout.prv1, 2, (stackEntry c ms 1).prv.code⟩,
   .bit c.layout.ie2 (stackEntry c ms 2).ie, ⟨c.layout.prv2, 2, (stackEntry c ms 2).prv.code⟩,
   .bit c.layout.ie3 (stackEntry c ms 3).ie, ⟨c.layout.prv3, 2, (stackEntry c ms 3).prv.code⟩,
   ⟨c.layout.fs, 2, (fsOf c ms).code⟩, ⟨c.layout.xs, 2, (xsOf c ms).code⟩, .bit c.layout.mprv ms.mprv,
   ⟨c.layout.vm, 5, ms.vm.code⟩, .bit c.layout.sd (sdOf c ms)]

/-- `csr_read(mstatus)` (10_state.md R40, R56). -/
def mstatusWord (c : Config) (ms : MStatus) : Word c.width := assemble c.width (mstatusFields c ms)

/-- The 2-bit value of `PRVk` in a word written to `mstatus`. -/
def prvField (c : Config) (v : Word c.width) (k : Nat) : Priv := Priv.ofCode (v.extractLsb' (c.layout.prvPos k) 2)

/-- The `VM` value in a word written to `mstatus`. -/
def vmField (c : Config) (v : Word c.width) : BitVec 5 := v.extractLsb' c.layout.vm 5

/-- Does every existing `PRVk` of the word name a mode of `MODES`? With M alone the fields are hardwired and never fail
(10_state.md R56). -/
def mstatusModesOk (c : Config) (v : Word c.width) : Bool :=
  c.modes == .m || (List.range c.modes.depth).all (fun k => c.modes.has (prvField c v k))

/-- Does `VM` of the word name a scheme of `VM_SUPPORTED` (10_state.md R56)? -/
def mstatusVmOk (c : Config) (v : Word c.width) : Bool :=
  match VmScheme.ofCode (vmField c v) with
  | some s => c.vmSupported.contains s
  | none => false

/-- What a write of `v` leaves in an existing stack entry: `IEk` written, `PRVk` written unless hardwired; an entry beyond
the depth is not written (10_state.md R56). -/
def writtenEntry (c : Config) (v : Word c.width) (k : Nat) (old : StackEntry) : StackEntry :=
  if k < c.modes.depth then
    ⟨if c.modes = .m then old.prv else prvField c v k, v.getLsbD (c.layout.iePos k)⟩
  else old

/-- `csr_write(mstatus, v)` of an accepted `v`, field by field (10_state.md R56). -/
def mstatusPut (c : Config) (ms : MStatus) (v : Word c.width) : MStatus where
  e0 := writtenEntry c v 0 ms.e0
  e1 := writtenEntry c v 1 ms.e1
  e2 := writtenEntry c v 2 ms.e2
  e3 := writtenEntry c v 3 ms.e3
  fs := if c.hasFpu then ExtStatus.ofCode (v.extractLsb' c.layout.fs 2) else ms.fs
  xs := if c.hasXs then ExtStatus.ofCode (v.extractLsb' c.layout.xs 2) else ms.xs
  mprv := v.getLsbD c.layout.mprv
  vm := (VmScheme.ofCode (vmField c v)).getD ms.vm

/-! ### The stack (10_state.md R45, R46) -/

/-- `push_stack(handler)` (10_state.md R45): every entry moves toward the oldest end, the oldest is lost. -/
def pushStack (c : Config) (handler : Priv) (ms : MStatus) : MStatus :=
  { ms with
    e0 := ⟨handler, false⟩
    e1 := ms.e0
    e2 := if 3 ≤ c.modes.depth then ms.e1 else ms.e2
    e3 := if 4 ≤ c.modes.depth then ms.e2 else ms.e3 }

/-- `pop_stack()` (10_state.md R46): every entry moves toward the current end, the oldest becomes LOWEST with IE = 1. -/
def popStack (c : Config) (ms : MStatus) : MStatus :=
  let top : StackEntry := ⟨c.modes.lowest, true⟩
  { ms with
    e0 := ms.e1
    e1 := if 3 ≤ c.modes.depth then ms.e2 else top
    e2 := if 4 ≤ c.modes.depth then ms.e3 else if 3 ≤ c.modes.depth then top else ms.e2
    e3 := if 4 ≤ c.modes.depth then top else ms.e3 }

/-! ### `mip` and `mie` (10_state.md R68 to R76) -/

def Level.priv : Level → Priv
  | .s => .s
  | .h => .h
  | .m => .m

/-- The bit of a level and kind, in the register this is the layout of (10_state.md R70). -/
def intPos (l : IntLayout) : Level → IntKind → Nat
  | .s, .software => l.ssoft
  | .h, .software => l.hsoft
  | .m, .software => l.msoft
  | .s, .timer => l.stimer
  | .h, .timer => l.htimer
  | .m, .timer => l.mtimer

def IntBits.get (b : IntBits) : Level → IntKind → Bool
  | .s, .software => b.ssoft
  | .h, .software => b.hsoft
  | .m, .software => b.msoft
  | .s, .timer => b.stimer
  | .h, .timer => b.htimer
  | .m, .timer => b.mtimer

/-- The bit as the hart has it: the bits of an unsupported mode are hardwired to 0 (10_state.md R71). -/
def intGet (c : Config) (b : IntBits) (x : Level) (k : IntKind) : Bool := c.modes.has x.priv && b.get x k

/-- The fields of `mip` or of `mie`, each with its value (10_state.md R70). -/
def intFields (c : Config) (l : IntLayout) (b : IntBits) : List Placed :=
  [.bit l.ssoft (intGet c b .s .software), .bit l.hsoft (intGet c b .h .software), .bit l.msoft (intGet c b .m .software),
   .bit l.stimer (intGet c b .s .timer), .bit l.htimer (intGet c b .h .timer), .bit l.mtimer (intGet c b .m .timer)]

/-- `csr_read(mip)` and `csr_read(mie)` (10_state.md R70, R72). -/
def intWord (c : Config) (l : IntLayout) (b : IntBits) : Word c.width := assemble c.width (intFields c l b)

/-- The bit a write leaves: the written one if the level's mode is supported, else the old one (10_state.md R72). -/
def writtenBit (c : Config) (l : IntLayout) (v : Word c.width) (x : Level) (k : IntKind) (old : Bool) : Bool :=
  if c.modes.has x.priv then v.getLsbD (intPos l x k) else old

/-- `csr_write(mip, v)`: only the software bits of supported modes (10_state.md R68, R72). -/
def mipPut (c : Config) (b : IntBits) (v : Word c.width) : IntBits :=
  { b with
    ssoft := writtenBit c c.layout.mip v .s .software b.ssoft
    hsoft := writtenBit c c.layout.mip v .h .software b.hsoft
    msoft := writtenBit c c.layout.mip v .m .software b.msoft }

/-- `csr_write(mie, v)`: all bits of supported modes (10_state.md R72). -/
def miePut (c : Config) (b : IntBits) (v : Word c.width) : IntBits where
  ssoft := writtenBit c c.layout.mie v .s .software b.ssoft
  hsoft := writtenBit c c.layout.mie v .h .software b.hsoft
  msoft := writtenBit c c.layout.mie v .m .software b.msoft
  stimer := writtenBit c c.layout.mie v .s .timer b.stimer
  htimer := writtenBit c c.layout.mie v .h .timer b.htimer
  mtimer := writtenBit c c.layout.mie v .m .timer b.mtimer

/-! ### `mcause` (10_state.md R88 to R90) -/

/-- `csr_read(mcause)` (10_state.md R89). -/
def mcauseWord (c : Config) (m : MCause) : Word c.width :=
  assemble c.width [.bit c.layout.interrupt m.interrupt, ⟨c.layout.code, 4, m.code⟩]

/-- `csr_write(mcause, v)`: the other bits are dropped (10_state.md R90). -/
def mcausePut (c : Config) (v : Word c.width) : MCause :=
  ⟨v.getLsbD c.layout.interrupt, v.extractLsb' c.layout.code 4⟩

/-! ### Hardwired `mtvec` and `mtdeleg` -/

/-- The value of `mtvec`: hardwired to its reset value if no bit is writable (10_state.md R57, R62). -/
def Hart.mtvecValue {c : Config} (h : Hart c) : Word c.width := if c.mtvecW = 0 then c.mtvecReset else h.mtvec

/-- The value of `mtdeleg`: bits outside `MTDELEG_W` are 0 (10_state.md R63, R64). -/
def Hart.mtdelegValue {c : Config} (h : Hart c) : Word c.width := h.mtdeleg &&& c.mtdelegW

/-- The highest writable bit of `mtvec` below bit k, if there is one (10_state.md R61). -/
def topWritable {n : Nat} (w : Word n) : Nat → Option Nat
  | 0 => none
  | k + 1 => if w.getLsbD k then some k else topWritable w k

/-- The bits above bit h and below the top bit: the gap the sign is extended over (10_state.md R61). -/
def signGap (n h : Nat) : Word n := BitVec.ofNat n (2 ^ (n - 1) - 2 ^ (h + 1))

/-- `csr_write(mtvec, v)` (10_state.md R61): writable bits taken, the sign extended down to the highest writable bit, the
low two bits 0. -/
def mtvecPut (c : Config) (old v : Word c.width) : Word c.width :=
  if c.mtvecW = 0 then old
  else
    let taken := (old &&& ~~~c.mtvecW) ||| (v &&& c.mtvecW)
    let extended := match topWritable c.mtvecW (c.width - 1) with
      | some top =>
        if taken.getLsbD (topBit c.width) then taken ||| signGap c.width top
        else taken &&& ~~~(signGap c.width top)
      | none => taken
    extended &&& ~~~(3#c.width)

/-! ### When an interrupt may be taken (60_exceptions.md R229) -/

/-- `takeable(x, k)`: enabled, at a level above the current mode or at it with IE = 1, and pending. -/
def takeable {c : Config} (h : Hart c) (x : Level) (k : IntKind) : Bool :=
  intGet c h.mie x k && (h.cur.below x.priv || (h.cur == x.priv && h.ie)) && intGet c h.mip x k

end Sys2Proof.Machine
end

