-- ==== Sys2Proof/Machine/Operands.lean ====
section
/-! DEFINITION. The operand forms: general registers, the 5-bit immediate, the 12-bit CSR address and its access class
(30_encoding.md R132, R134, R136, R137), and the advance of `pc`. -/

namespace Sys2Proof.Machine

/-- `x[i]`: `x0` reads 0 (00_scope.md R11, 10_state.md R21). -/
def Hart.reg {c : Config} (h : Hart c) (i : Reg) : Word c.width := if i = 0 then 0 else h.x[i]

/-- `x[i] <- v`: a write to `x0` is discarded (00_scope.md R11, 10_state.md R21). -/
def Hart.setReg {c : Config} (h : Hart c) (i : Reg) (v : Word c.width) : Hart c :=
  if i = 0 then h else { h with x := h.x.set i v }

/-- `pc <- pc + 4`, modulo 2^XLEN (10_state.md R22). -/
def Hart.advance {c : Config} (h : Hart c) : Hart c := { h with pc := h.pc + 4 }

/-- `zext_XLEN(zimm)` (30_encoding.md R134). -/
def immediate (c : Config) (z : BitVec 5) : Word c.width := z.setWidth c.width

/-- `CSR_ADDR` (30_encoding.md R137). -/
def csrAddr (c : Config) : Csr → BitVec 12
  | .mcpuid => c.csrAddr.mcpuid
  | .mimpid => c.csrAddr.mimpid
  | .mhartid => c.csrAddr.mhartid
  | .mstatus => c.csrAddr.mstatus
  | .mtvec => c.csrAddr.mtvec
  | .mtdeleg => c.csrAddr.mtdeleg
  | .mie => c.csrAddr.mie
  | .mtimecmp => c.csrAddr.mtimecmp
  | .mtime => c.csrAddr.mtime
  | .mscratch => c.csrAddr.mscratch
  | .mepc => c.csrAddr.mepc
  | .mcause => c.csrAddr.mcause
  | .mbadaddr => c.csrAddr.mbadaddr
  | .mip => c.csrAddr.mip

def csrAll : List Csr :=
  [.mcpuid, .mimpid, .mhartid, .mstatus, .mtvec, .mtdeleg, .mie, .mtimecmp, .mtime, .mscratch, .mepc, .mcause,
   .mbadaddr, .mip]

/-- The register of this spec that an address names (30_encoding.md R138). Every other address does not exist, unless a base
ISA (Machine/Step.lean) or the hart's other modes (`claimedByModes`) claim it. -/
def csrOfAddr (c : Config) (a : BitVec 12) : Option Csr := csrAll.find? (fun r => csrAddr c r == a)

/-- `a[11:10] = 0b11`: the read-only class (30_encoding.md R136). -/
def csrReadOnly (a : BitVec 12) : Bool := a.extractLsb' 10 2 == 3#2

/-- `a[9:8]`: the lowest mode that may access the register (30_encoding.md R136). -/
def csrLevel (a : BitVec 12) : Priv := Priv.ofCode (a.extractLsb' 8 2)

/-- Would an address that is none of this spec be an S-level or H-level register of a hart with that mode? No source lists
those registers (10_state.md R96), so the level of the address decides (30_encoding.md R136, R138; DESIGN CHOICE, log
entry 37). -/
def claimedByModes (c : Config) (a : BitVec 12) : Bool :=
  match csrLevel a with
  | .s => c.modes.has .s
  | .h => c.modes.has .h
  | .u => false
  | .m => false

/-- The `csr` field of a CSR instruction. -/
def csrNumber : Instr → Option (BitVec 12)
  | .csrrw _ a _ => some a
  | .csrrs _ a _ => some a
  | .csrrc _ a _ => some a
  | .csrrwi _ a _ => some a
  | .csrrsi _ a _ => some a
  | .csrrci _ a _ => some a
  | .ecall => none
  | .ebreak => none
  | .eret => none
  | .mrts => none
  | .mrth => none

/-- Does the instruction write its CSR (40_csr_instructions.md R164)? -/
def writesCsr : Instr → Bool
  | .csrrw _ _ _ => true
  | .csrrs _ _ rs1 => rs1 != 0
  | .csrrc _ _ rs1 => rs1 != 0
  | .csrrwi _ _ _ => true
  | .csrrsi _ _ z => z != 0
  | .csrrci _ _ z => z != 0
  | .ecall => false
  | .ebreak => false
  | .eret => false
  | .mrts => false
  | .mrth => false

end Sys2Proof.Machine
end

