-- ==== Sys2Proof/Machine/Ops.lean ====
section
/-! DEFINITION. The operations the instructions share: memory and its faults, taking a trap and returning from one, the
boundary between instructions with its events and interrupts. -/

namespace Sys2Proof.Machine

/-! ### Outcomes -/

/-- Goes on with the next state; a fault or a refusal ends. -/
def andThen {α β : Type} (o : Res α) (k : α → Res β) : Res β :=
  match o with
  | .next a => k a
  | .fault f => .fault f
  | .refused r => .refused r

/-- An outcome on the hart as an outcome on the machine; the configuration stays. -/
def inState (c : Config) (o : Res (Hart c)) : Res State := andThen o (fun h => .next ⟨c, h⟩)

/-- What an access answers: a value, an exception to raise, or a stop. -/
inductive Reply (n : Nat) (α : Type) where
  | ok (a : α)
  | raise (e : Exc n)
  | refuse (r : Refusal)
  | fault (f : Fault)
  deriving DecidableEq, Repr

/-! ### Memory as data (20_memory.md R100, R108) -/

/-- What an address that memory does not list reads as: 0 (DESIGN CHOICE, unsafe, log entry 5). -/
def unlistedByte : Byte := 0

/-- One byte. -/
def Memory.read : Memory → Nat → Byte
  | [], _ => unlistedByte
  | (k, b) :: rest, a => if k = a then b else Memory.read rest a

/-- Writes one byte and keeps the canonical form: sorted, and no entry that an unlisted address would read as. -/
def Memory.write : Memory → Nat → Byte → Memory
  | [], a, v => if v = unlistedByte then [] else [(a, v)]
  | (k, b) :: rest, a, v =>
    if a < k then (if v = unlistedByte then (k, b) :: rest else (a, v) :: (k, b) :: rest)
    else if a = k then (if v = unlistedByte then rest else (a, v) :: rest)
    else (k, b) :: Memory.write rest a v

/-- All addresses are above `lo` where there is one, strictly rising, and no entry is an unlisted byte. -/
def Memory.wfFrom : Option Nat → Memory → Bool
  | _, [] => true
  | lo, (k, b) :: rest => (match lo with | some l => decide (l < k) | none => true) && b != unlistedByte &&
      Memory.wfFrom (some k) rest

/-- The canonical form: equal memories are equal data. -/
def Memory.wf (m : Memory) : Bool := Memory.wfFrom none m

/-- The address of byte i of an access at `a`, modulo 2^XLEN (00_scope.md R10; DEDUCED, log entry 17). -/
def byteAddr {n : Nat} (a : Word n) (i : Nat) : Nat := (a + BitVec.ofNat n i).toNat

/-- The k bytes from `a` on, lowest first. -/
def Memory.readBytes {n : Nat} (m : Memory) (a : Word n) (k : Nat) : List Byte :=
  (List.range k).map (fun i => m.read (byteAddr a i))

/-- Stores bytes from `a` on; `i` is how many lie before. -/
def Memory.writeBytes {n : Nat} (m : Memory) (a : Word n) : Nat → List Byte → Memory
  | _, [] => m
  | i, b :: bs => Memory.writeBytes (m.write (byteAddr a i) b) a (i + 1) bs

/-! ### Accesses (20_memory.md R104 to R110, R115) -/

def regionPermits (r : Region) : AccessKind → Bool
  | .execute => r.execute
  | .load => r.read
  | .store => r.write

/-- Does `PMEM` allow this kind of access to this byte? -/
def allowsByte (c : Config) (k : AccessKind) (a : Nat) : Bool :=
  c.pmem.any (fun r => regionPermits r k && decide (r.base ≤ a) && decide (a < r.base + r.size))

/-- Does `PMEM` allow this kind of access to the `len` bytes from `a` on? -/
def allows (c : Config) (k : AccessKind) (a : Word c.width) (len : Nat) : Bool :=
  (List.range len).all (fun i => allowsByte c k (byteAddr a i))

/-- The mode whose translation and protection a data access uses (20_memory.md R105). -/
def dataMode {c : Config} (h : Hart c) : Priv :=
  if h.mstatus.mprv then (stackEntry c h.mstatus 1).prv else h.cur

/-- Translation under Mbare: the effective address itself, for every mode (20_memory.md R104). -/
def mbareTranslate {n : Nat} (_mode : Priv) (a : Word n) : Word n := a

/-- The checks of a data access in the order of 20_memory.md R104; the answer is the physical address. -/
def dataCheck {c : Config} (h : Hart c) (kind : AccessKind) (a : Word c.width) (len : Nat)
    (misaligned access : Exc c.width) : Reply c.width (Word c.width) :=
  if len = 0 then .fault .emptyAccess
  else if h.mstatus.vm ≠ .mbare then .refuse .vmScheme
  else if c.misaligned = .trap ∧ a.toNat % len ≠ 0 then .raise misaligned
  else
    let pa := mbareTranslate (dataMode h) a
    if allows c kind pa len then .ok pa else .raise access

/-- `MemRead(addr, n)` (20_memory.md R104). -/
def memRead {c : Config} (h : Hart c) (a : Word c.width) (len : Nat) : Reply c.width (BitVec (8 * len)) :=
  match dataCheck h .load a len (.loadMisaligned a) (.loadAccess a) with
  | .ok pa => .ok (BitVec.ofNat (8 * len) (leNat (h.mem.readBytes pa len)))
  | .raise e => .raise e
  | .refuse r => .refuse r
  | .fault f => .fault f

/-- `MemWrite(addr, n, v)` (20_memory.md R104). -/
def memWrite {c : Config} (h : Hart c) (a : Word c.width) (len : Nat) (v : BitVec (8 * len)) :
    Reply c.width (Hart c) :=
  match dataCheck h .store a len (.storeMisaligned a) (.storeAccess a) with
  | .ok pa => .ok { h with mem := h.mem.writeBytes pa 0 (leBytes len v.toNat) }
  | .raise e => .raise e
  | .refuse r => .refuse r
  | .fault f => .fault f

/-- The address a fetch fault records: with 16-bit alignment the first half of the instruction that may not be executed,
otherwise the instruction's own (10_state.md R95; DEDUCED, log entry 20). -/
def fetchFaultAddr (c : Config) (a : Word c.width) : Word c.width :=
  match c.ialign with
  | .a32 => a
  | .a16 => if allows c .execute a 2 then a + 2 else a

/-- `Fetch(addr)`: a 32-bit word, little-endian (20_memory.md R106). -/
def fetch {c : Config} (h : Hart c) (a : Word c.width) : Reply c.width (BitVec 32) :=
  if !c.pcAligned a then .raise (.instMisaligned a)
  else if h.mstatus.vm ≠ .mbare then .refuse .vmScheme
  else if !allows c .execute a 4 then .raise (.instAccess (fetchFaultAddr c a))
  else .ok (BitVec.ofNat 32 (leNat (h.mem.readBytes a 4)))

/-! ### Causes (60_exceptions.md R220, R225, R232) -/

def Exc.code {n : Nat} : Exc n → BitVec 4
  | .instMisaligned _ => 0
  | .instAccess _ => 1
  | .illegal => 2
  | .breakpoint => 3
  | .loadMisaligned _ => 4
  | .loadAccess _ => 5
  | .storeMisaligned _ => 6
  | .storeAccess _ => 7
  | .ecall p => 8 + p.code.setWidth 4

/-- The address the exception records in `mbadaddr`, if it records one (60_exceptions.md R220, R242). -/
def Exc.badAddr {n : Nat} : Exc n → Option (Word n)
  | .instMisaligned a => some a
  | .instAccess a => some a
  | .illegal => none
  | .breakpoint => none
  | .loadMisaligned a => some a
  | .loadAccess a => some a
  | .storeMisaligned a => some a
  | .storeAccess a => some a
  | .ecall _ => none

def IntKind.code : IntKind → BitVec 4
  | .software => 0
  | .timer => 1

/-- What `mcause` records (60_exceptions.md R239). -/
def Cause.mcause {n : Nat} : Cause n → MCause
  | .exception e => ⟨false, e.code⟩
  | .interrupt k => ⟨true, k.code⟩
  | .nmi code => ⟨true, code⟩

def Cause.badAddr {n : Nat} : Cause n → Option (Word n)
  | .exception e => e.badAddr
  | .interrupt _ => none
  | .nmi _ => none

/-- The entry's offset from `mtvec`: P * 0x40, unless the cause has an entry of its own, or 0xFC for an NMI
(60_exceptions.md R232, R240; log entry 36). -/
def Cause.offset (c : Config) (p : Priv) (cause : Cause c.width) : Word c.width :=
  match cause with
  | .nmi _ => BitVec.ofNat c.width 0xFC
  | .exception _ => sharedOrOwn cause.mcause
  | .interrupt _ => sharedOrOwn cause.mcause
where
  /-- Among the entries below 0xFC: the cause's own, or the one all causes from mode `p` share. -/
  sharedOrOwn (m : MCause) : Word c.width :=
    match c.extraVector m.interrupt m.code with
    | some own => BitVec.ofNat c.width own
    | none => BitVec.ofNat c.width (p.code.toNat * 0x40)

/-! ### Taking a trap, and returning from one -/

/-- `handler_mode` (60_exceptions.md R237): M, unless a delegated synchronous exception comes from below M. -/
def handlerMode {c : Config} (h : Hart c) (cause : Cause c.width) : Priv :=
  match cause with
  | .exception e =>
    if h.cur ≠ .m ∧ h.mtdelegValue.getLsbD e.code.toNat then (if c.modes.has .h then .h else .s) else .m
  | .interrupt _ => .m
  | .nmi _ => .m

/-- Entry into the M-mode handler (60_exceptions.md R236 to R242), as one step. `mbadaddr` gets the recorded address or a
free value (10_state.md R94); the low bits of `mepc` are always 0 (R86; log entry 18). -/
def trapInto {c : Config} (h : Hart c) (cause : Cause c.width) (epc : Word c.width) : Hart c :=
  { h with
    mepc := c.alignPc epc
    mcause := cause.mcause
    mbadaddr := match cause.badAddr with
      | some a => a
      | none => Config.draw c.width h.draws
    draws := match cause.badAddr with
      | some _ => h.draws
      | none => h.draws + 1
    mstatus := { pushStack c .m h.mstatus with mprv := false }
    pc := h.mtvecValue + cause.offset c h.cur }

/-- TAKING AN EXCEPTION, the one operation for every cause (60_exceptions.md R236): a trap whose handler mode is not M is
refused (R253). -/
def takeTrap {c : Config} (h : Hart c) (cause : Cause c.width) (epc : Word c.width) : Res (Hart c) :=
  if handlerMode h cause = .m then .next (trapInto h cause epc) else .refused .delegatedTrap

/-- `raise E`: the current instruction has no effect but the trap (00_scope.md R11, 60_exceptions.md R238, R243). -/
def raise {c : Config} (h : Hart c) (e : Exc c.width) : Res (Hart c) := takeTrap h (.exception e) h.pc

/-- THE RETURN FROM A TRAP in M-mode: pop the stack, go to `mepc` (41_system_instructions.md R193). -/
def trapReturn {c : Config} (h : Hart c) : Hart c := { h with mstatus := popStack c h.mstatus, pc := h.mepc }

/-! ### The boundary between instructions (60_exceptions.md R231) -/

/-- What the environment's events act on. -/
structure Timer (c : Config) where
  mtime : BitVec c.mtimeBits
  mip : IntBits

/-- `mtime <- mtime + 1`, then the match check with `mtimecmp` (10_state.md R78, R80). -/
def tick {c : Config} (mtimecmp : BitVec 32) (t : Timer c) : Timer c where
  mtime := t.mtime + 1
  mip := { t.mip with mtimer := t.mip.mtimer || (t.mtime + 1).setWidth 32 == mtimecmp }

/-- One event of the environment. An NMI changes nothing by itself: `nmiDue` reports it. -/
def applyEvent {c : Config} (mtimecmp : BitVec 32) (t : Timer c) : EnvEvent → Timer c
  | .tick => tick mtimecmp t
  | .remoteMsip b => { t with mip := { t.mip with msoft := b } }
  | .stip b => { t with mip := { t.mip with stimer := b } }
  | .htip b => { t with mip := { t.mip with htimer := b } }
  | .nmi => t

/-- The events of this boundary: those the state lists, or the environment's free ones (log entry 8). -/
def dueEvents {c : Config} (h : Hart c) : List EnvEvent :=
  match h.env with
  | [] => Config.environment h.boundary
  | evs :: _ => evs

/-- The events of this boundary happen, in order, and the boundary is past. -/
def afterEvents {c : Config} (h : Hart c) : Hart c :=
  let t := (dueEvents h).foldl (applyEvent h.mtimecmp) ⟨h.mtime, h.mip⟩
  { h with mtime := t.mtime, mip := t.mip, env := h.env.tail, boundary := h.boundary + 1 }

/-- Is an NMI signalled at this boundary of a hart that has the input (60_exceptions.md R231, R232)? -/
def nmiDue {c : Config} (h : Hart c) : Bool := c.nmiPresent && (dueEvents h).contains .nmi

/-- Every level and kind, in the order a deterministic simulator would use (60_exceptions.md R234). -/
def allInterrupts : List (Level × IntKind) :=
  [(.m, .software), (.m, .timer), (.h, .software), (.h, .timer), (.s, .software), (.s, .timer)]

/-- The interrupts that may be taken now (60_exceptions.md R229). -/
def takeables {c : Config} (h : Hart c) : List (Level × IntKind) :=
  allInterrupts.filter (fun i => takeable h i.1 i.2)

/-- The interrupt taken at this boundary. Among several the choice is free (60_exceptions.md R234; log entry 10). -/
def chooseInterrupt {c : Config} (h : Hart c) : Option ((Level × IntKind) × Hart c) :=
  match takeables h with
  | [] => none
  | [i] => some (i, h)
  | i :: rest =>
    some ((i :: rest).getD ((Config.draw 3 h.draws).toNat % (i :: rest).length) i, { h with draws := h.draws + 1 })

/-- `take_interrupt` (00_scope.md R11): `mepc` is the address of the instruction not executed (60_exceptions.md R238). -/
def takeInterrupt {c : Config} (h : Hart c) (k : IntKind) : Res (Hart c) := takeTrap h (.interrupt k) h.pc

/-- The NMI, with a free cause code (60_exceptions.md R232; log entry 9). -/
def takeNmi {c : Config} (h : Hart c) : Res (Hart c) :=
  takeTrap { h with draws := h.draws + 1 } (.nmi (Config.draw 4 h.draws)) h.pc

end Sys2Proof.Machine
end

