-- ==== Sys2Proof/Machine/Base.lean ====
section
/-! DEFINITION. The interface to a base instruction set (00_scope.md R12, 92 D3). A base ISA says how long its instructions
are (20_memory.md R106, 30_encoding.md R144); it sees an instruction's halves, the general registers and `pc`, never a CSR,
and answers with a tree of actions whose data accesses go through 20_memory.md. The fixed `step` uses the instance with none
(log entry 15). -/

namespace Sys2Proof.Machine

/-- What a base instruction does: the three outcomes of 00_scope.md R12, with its data accesses before them. -/
inductive BaseAction (c : Config) where
  /-- ends with new registers and a new `pc` -/
  | done (x : Vector (Word c.width) 32) (pc : Word c.width)
  | raise (e : Exc c.width)
  | refuse
  | load (a : Word c.width) (len : Nat) (k : BitVec (8 * len) → BaseAction c)
  | store (a : Word c.width) (len : Nat) (v : BitVec (8 * len)) (k : BaseAction c)

/-- A 16-bit part of an instruction; instructions of every length are lists of them, lowest address first. -/
abbrev Half := BitVec 16

/-- What of an instruction is still to be fetched: nothing, or one more half, which says how it goes on. -/
inductive Rest where
  | ends
  | goesOn (next : Half → Rest)

/-- A base ISA. -/
structure BaseISA where
  /-- its length decoding on a hart with 16-bit alignment (20_memory.md R106, 30_encoding.md R144): what follows the first
  half of an instruction; unless it says otherwise, one half more -/
  rest : Config → Half → Rest := fun _ _ => .goesOn (fun _ => .ends)
  /-- what it makes of an instruction, or none where it does not claim it -/
  act : (c : Config) → List Half → Vector (Word c.width) 32 → Word c.width → Option (BaseAction c)

/-- The valid instance with no base ISA: every other word is illegal (00_scope.md R12). -/
def BaseISA.none : BaseISA := { act := fun _ _ _ _ => Option.none }

/-- The two halves of a 32-bit instruction. -/
def wordHalves (w : BitVec 32) : List Half := [w.extractLsb' 0 16, w.extractLsb' 16 16]

/-! ### Fetching instructions of other lengths -/

/-- The address of half i of an instruction at `a`, modulo 2^XLEN. -/
def halfAddr {n : Nat} (a : Word n) (i : Nat) : Word n := a + BitVec.ofNat n (2 * i)

/-- Half i of an instruction at `a`, little-endian (20_memory.md R108). -/
def halfAt {c : Config} (h : Hart c) (a : Word c.width) (i : Nat) : Half :=
  BitVec.ofNat 16 (leNat (h.mem.readBytes (halfAddr a i) 2))

/-- Fetches the rest of an instruction at `a` of which `got` is fetched. A half that `PMEM` does not let be executed is an
access fault at its own address (20_memory.md R106, 10_state.md R95; log entry 20). -/
def fetchRest {c : Config} (h : Hart c) (a : Word c.width) : Rest → List Half → Reply c.width (List Half)
  | .ends, got => .ok got
  | .goesOn next, got =>
    if allows c .execute (halfAddr a got.length) 2 then
      fetchRest h a (next (halfAt h a got.length)) (got ++ [halfAt h a got.length])
    else .raise (.instAccess (halfAddr a got.length))

/-- Is the instruction complete with this second half? -/
def Rest.endsWith (second : Half) : Rest → Bool
  | .ends => false
  | .goesOn next => match next second with
    | .ends => true
    | .goesOn _ => false

/-- Is the 32-bit word at `a` fetched and a word of the table (30_encoding.md R139)? -/
def fetchesRow {c : Config} (h : Hart c) (a : Word c.width) : Bool :=
  match fetch h a with
  | .ok w => match decodeWord w with
    | .ok _ => true
    | .error _ => false
  | .raise _ => false
  | .refuse _ => false
  | .fault _ => false

/-- The fetch of an instruction that the base ISA's rule makes shorter or longer than 32 bits, or none where there is no
such instruction: with 32-bit alignment there is none (30_encoding.md R144), a first half that cannot be fetched is an
ordinary fetch's fault (20_memory.md R106), and a word of the table is always that (R139; DEDUCED, log entry 32). -/
def fetchOwnLength (base : BaseISA) {c : Config} (h : Hart c) (a : Word c.width) : Option (Reply c.width (List Half)) :=
  let first := halfAt h a 0
  if c.ialign = .a32 ∨ c.pcAligned a = false ∨ h.mstatus.vm ≠ .mbare ∨ allows c .execute a 2 = false ∨
      (base.rest c first).endsWith (halfAt h a 1) = true ∨ fetchesRow h a = true then Option.none
  else some (fetchRest h a (base.rest c first) [first])

/-! ### Running base instructions -/

/-- Runs the actions from `h`; an exception abandons the instruction and is raised on `start`, the state before it
(60_exceptions.md R243). A transfer to a misaligned address is reported on this instruction (R221; log entry 16). -/
def runBase {c : Config} (start : Hart c) : Hart c → BaseAction c → Res (Hart c)
  | h, .done x pc =>
    if c.pcAligned pc then .next { h with x := x, pc := pc } else Machine.raise start (.instMisaligned pc)
  | _, .raise e => Machine.raise start e
  | _, .refuse => .refused .baseIsa
  | h, .load a len k =>
    match memRead h a len with
    | .ok v => runBase start h (k v)
    | .raise e => Machine.raise start e
    | .refuse r => .refused r
    | .fault f => .fault f
  | h, .store a len v k =>
    match memWrite h a len v with
    | .ok h' => runBase start h' k
    | .raise e => Machine.raise start e
    | .refuse r => .refused r
    | .fault f => .fault f

/-- What the base ISA makes of the instruction, or `otherwise` where it does not claim it. -/
def runClaimed (base : BaseISA) {c : Config} (h : Hart c) (halves : List Half) (otherwise : Res State) : Res State :=
  match base.act c halves (h.x.set 0 0) h.pc with
  | some a => inState c (runBase h h a)
  | Option.none => otherwise

/-- Runs a fetched instruction of another length than 32 bits: the base ISA's, or an Illegal instruction (30_encoding.md
R139). -/
def runFetched (base : BaseISA) {c : Config} (h : Hart c) : Reply c.width (List Half) → Res State
  | .ok halves => runClaimed base h halves (inState c (Machine.raise h .illegal))
  | .raise e => inState c (Machine.raise h e)
  | .refuse r => .refused r
  | .fault f => .fault f

end Sys2Proof.Machine
end

