-- ==== Sys2Proof/WellFormed.lean ====
section
/-! DEFINITION. Which instructions are well formed on a hart. The operand types already bound every field of the word;
what is left depends on the base: with RV32E only `x0` to `x15` are legal in `rd` and in `rs1`, and an instruction that
names another is illegal (30_encoding.md R132). `zimm` names no register. -/

namespace Sys2Proof

/-- 30_encoding.md R132, for each register field of the form. -/
def Instr.wellFormed (c : Config) : Instr → Bool
  | .csrrw rd _ rs1 => c.regOk rd && c.regOk rs1
  | .csrrs rd _ rs1 => c.regOk rd && c.regOk rs1
  | .csrrc rd _ rs1 => c.regOk rd && c.regOk rs1
  | .csrrwi rd _ _ => c.regOk rd
  | .csrrsi rd _ _ => c.regOk rd
  | .csrrci rd _ _ => c.regOk rd
  | .ecall => true
  | .ebreak => true
  | .eret => true
  | .mrts => true
  | .mrth => true

end Sys2Proof
end

