-- ==== Sys2Proof/Machine/CsrAccess.lean ====
section
/-! DEFINITION. Reading and writing the CSRs by register (10_state.md), and the one operation behind the six CSR
instructions (40_csr_instructions.md R160 to R165). -/

namespace Sys2Proof.Machine

/-- `csr_read` (40_csr_instructions.md R162). A read changes nothing (R163). -/
def csrRead {c : Config} (h : Hart c) : Csr → Word c.width
  | .mcpuid => c.mcpuid
  | .mimpid => c.mimpid
  | .mhartid => c.mhartid
  | .mstatus => mstatusWord c h.mstatus
  | .mtvec => h.mtvecValue
  | .mtdeleg => h.mtdelegValue
  | .mie => intWord c c.layout.mie h.mie
  | .mtimecmp => h.mtimecmp.setWidth c.width
  | .mtime => h.mtime.setWidth c.width
  | .mscratch => h.mscratch
  | .mepc => h.mepc
  | .mcause => mcauseWord c h.mcause
  | .mbadaddr => h.mbadaddr
  | .mip => intWord c c.layout.mip h.mip

/-- The writes the spec refuses (10_state.md R56, R78). -/
def csrRefusal (c : Config) (v : Word c.width) : Csr → Option Refusal
  | .mstatus => if !mstatusModesOk c v then some .mstatusMode else if !mstatusVmOk c v then some .mstatusVm else none
  | .mtime => some .mtimeWrite
  | .mcpuid => none
  | .mimpid => none
  | .mhartid => none
  | .mtvec => none
  | .mtdeleg => none
  | .mie => none
  | .mtimecmp => none
  | .mscratch => none
  | .mepc => none
  | .mcause => none
  | .mbadaddr => none
  | .mip => none

/-- `csr_write(mtimecmp, v)` (10_state.md R81): clears MTIP, which is free if the new value equals the counter now
(log entry 11). -/
def mtimecmpPut {c : Config} (h : Hart c) (v : Word c.width) : Hart c :=
  if h.mtime.setWidth 32 = v.setWidth 32 then
    { h with mtimecmp := v.setWidth 32
             mip := { h.mip with mtimer := (Config.draw 1 h.draws).getLsbD 0 }
             draws := h.draws + 1 }
  else { h with mtimecmp := v.setWidth 32, mip := { h.mip with mtimer := false } }

/-- The state an accepted `csr_write` leaves (10_state.md, register by register). The three read-only registers and
`mtime` are never written: the access check (R165) or `csrRefusal` stops first. -/
def csrPut {c : Config} (h : Hart c) (v : Word c.width) : Csr → Hart c
  | .mcpuid => h
  | .mimpid => h
  | .mhartid => h
  | .mstatus => { h with mstatus := mstatusPut c h.mstatus v }
  | .mtvec => { h with mtvec := mtvecPut c h.mtvec v }
  | .mtdeleg => { h with mtdeleg := v &&& c.mtdelegW }
  | .mie => { h with mie := miePut c h.mie v }
  | .mtimecmp => mtimecmpPut h v
  | .mtime => h
  | .mscratch => { h with mscratch := v }
  | .mepc => { h with mepc := c.alignPc v }
  | .mcause => { h with mcause := mcausePut c v }
  | .mbadaddr => { h with mbadaddr := v }
  | .mip => { h with mip := mipPut c h.mip v }

/-- `csr_write`. -/
def csrWrite {c : Config} (h : Hart c) (v : Word c.width) (r : Csr) : Res (Hart c) :=
  match csrRefusal c v r with
  | some why => .refused why
  | none => .next (csrPut h v r)

/-- What the access check answers. -/
inductive CsrAccess where
  /-- the access reaches this register -/
  | register (r : Csr)
  /-- Illegal instruction is raised -/
  | illegal
  /-- the address is an S-level or H-level register's, of which no source says anything -/
  | lowerLevel
  deriving DecidableEq, Repr

/-- The second and third check of 40_csr_instructions.md R165: the mode is not below the address's level, and a write is not
to the read-only class. -/
def csrPermits {c : Config} (h : Hart c) (a : BitVec 12) (writes : Bool) : Bool :=
  !h.cur.below (csrLevel a) && !(writes && csrReadOnly a)

/-- The access check (40_csr_instructions.md R165). An address that the hart's other modes claim is still illegal where the
second or third check says so, whichever way its first check goes (log entry 37). -/
def csrCheck {c : Config} (h : Hart c) (a : BitVec 12) (writes : Bool) : CsrAccess :=
  if !csrPermits h a writes then .illegal
  else match csrOfAddr c a with
    | some r => .register r
    | none => if claimedByModes c a then .lowerLevel else .illegal

/-- May a base ISA claim this instruction word (30_encoding.md R138, 40_csr_instructions.md R165)? It is a CSR instruction
with legal registers, on an address that is none of this spec, and its access passes the other two checks (DESIGN CHOICE,
log entry 38). -/
def csrOffered {c : Config} (h : Hart c) (i : Instr) : Bool :=
  match csrNumber i with
  | some a => i.wellFormed c && csrPermits h a (writesCsr i) && (csrOfAddr c a).isNone
  | none => false

/-- What the six CSR instructions do (40_csr_instructions.md R161): check, read, write if `writes`, old value to `rd`,
`pc + 4`. `legal` says that every register field names a register of the base (30_encoding.md R132). `new` forms the
value written from the old one. -/
def csrInstr {c : Config} (h : Hart c) (legal : Bool) (rd : Reg) (a : BitVec 12) (writes : Bool)
    (new : Word c.width → Word c.width) : Res (Hart c) :=
  if !legal then raise h .illegal
  else match csrCheck h a writes with
    | .illegal => raise h .illegal
    | .lowerLevel => .refused .lowerLevelCsr
    | .register r =>
      let old := csrRead h r
      andThen (if writes then csrWrite h (new old) r else .next h) (fun h' => .next (h'.setReg rd old).advance)

/-! ### The six instructions (40_csr_instructions.md R166 to R171) -/

/-- CSRRW (R166): always writes `x[rs1]`. -/
def execCsrrw (rd : Reg) (a : BitVec 12) (rs1 : Reg) (s : State) : Res State :=
  inState s.cfg (csrInstr s.hart ((Instr.csrrw rd a rs1).wellFormed s.cfg) rd a true (fun _ => s.hart.reg rs1))

/-- CSRRS (R167): sets the bits of `x[rs1]`; writes iff the `rs1` field is not 0. -/
def execCsrrs (rd : Reg) (a : BitVec 12) (rs1 : Reg) (s : State) : Res State :=
  inState s.cfg (csrInstr s.hart ((Instr.csrrs rd a rs1).wellFormed s.cfg) rd a (rs1 != 0) (fun t => t ||| s.hart.reg rs1))

/-- CSRRC (R168): clears the bits of `x[rs1]`; writes iff the `rs1` field is not 0. -/
def execCsrrc (rd : Reg) (a : BitVec 12) (rs1 : Reg) (s : State) : Res State :=
  inState s.cfg
    (csrInstr s.hart ((Instr.csrrc rd a rs1).wellFormed s.cfg) rd a (rs1 != 0) (fun t => t &&& ~~~(s.hart.reg rs1)))

/-- CSRRWI (R169): always writes the immediate. -/
def execCsrrwi (rd : Reg) (a : BitVec 12) (z : BitVec 5) (s : State) : Res State :=
  inState s.cfg (csrInstr s.hart ((Instr.csrrwi rd a z).wellFormed s.cfg) rd a true (fun _ => immediate s.cfg z))

/-- CSRRSI (R170): sets the bits of the immediate; writes iff it is not 0. -/
def execCsrrsi (rd : Reg) (a : BitVec 12) (z : BitVec 5) (s : State) : Res State :=
  inState s.cfg
    (csrInstr s.hart ((Instr.csrrsi rd a z).wellFormed s.cfg) rd a (z != 0) (fun t => t ||| immediate s.cfg z))

/-- CSRRCI (R171): clears the bits of the immediate; writes iff it is not 0. -/
def execCsrrci (rd : Reg) (a : BitVec 12) (z : BitVec 5) (s : State) : Res State :=
  inState s.cfg
    (csrInstr s.hart ((Instr.csrrci rd a z).wellFormed s.cfg) rd a (z != 0) (fun t => t &&& ~~~(immediate s.cfg z)))

end Sys2Proof.Machine
end

