-- ==== Sys2Proof/Machine/System.lean ====
section
/-! DEFINITION. ECALL, EBREAK, ERET, MRTS, MRTH (41_system_instructions.md R191 to R195). -/

namespace Sys2Proof.Machine

/-- ECALL (R191): the environment-call exception of the current mode, always. -/
def execEcall (s : State) : Res State := inState s.cfg (raise s.hart (.ecall s.hart.cur))

/-- EBREAK (R192): the breakpoint exception, always. -/
def execEbreak (s : State) : Res State := inState s.cfg (raise s.hart .breakpoint)

/-- ERET (R193): the return from a trap in M-mode; Illegal instruction in U-mode; refused in S and H, whose own
exception-pc registers are in no source. -/
def execEret (s : State) : Res State :=
  inState s.cfg <| match s.hart.cur with
    | .u => raise s.hart .illegal
    | .s => .refused .eretBelowM
    | .h => .refused .eretBelowM
    | .m => .next (trapReturn s.hart)

/-- MRTS (R194): Illegal instruction below M or without S; otherwise its semantics are in no source. -/
def execMrts (s : State) : Res State :=
  inState s.cfg <|
    if s.hart.cur ≠ .m then raise s.hart .illegal
    else if !s.cfg.modes.has .s then raise s.hart .illegal
    else .refused .mrtsRedirect

/-- MRTH (R195): Illegal instruction below M or without H; otherwise its semantics are in no source. -/
def execMrth (s : State) : Res State :=
  inState s.cfg <|
    if s.hart.cur ≠ .m then raise s.hart .illegal
    else if !s.cfg.modes.has .h then raise s.hart .illegal
    else .refused .mrthRedirect

end Sys2Proof.Machine
end

