-- ==== Sys2Proof/Machine/Step.lean ====
section
/-! DEFINITION. One step: the events of the boundary, then an NMI, a maskable interrupt, or the instruction at `pc`
(60_exceptions.md R231). -/

namespace Sys2Proof.Machine

/-- Fetches and executes the instruction at `pc` (60_exceptions.md R231). A word that no row of the table matches is the base
ISA's, or an Illegal instruction (30_encoding.md R139), and so is an instruction of another length; a CSR instruction on an
address that is none of this spec is the base ISA's if that claims it (R138). -/
def runInstr (base : BaseISA) (s : State) : Host.Outcome State Fault Refusal :=
  match fetchOwnLength base s.hart s.hart.pc with
  | some fetched => runFetched base s.hart fetched
  | none =>
    match fetch s.hart s.hart.pc with
    | .raise e => inState s.cfg (raise s.hart e)
    | .refuse r => .refused r
    | .fault f => .fault f
    | .ok w =>
      match decodeWord w with
      | .ok i => if csrOffered s.hart i then runClaimed base s.hart (wordHalves w) (exec i s) else exec i s
      | .error _ => runClaimed base s.hart (wordHalves w) (inState s.cfg (raise s.hart .illegal))

/-- One step of a hart with a given base ISA. -/
def stepWith (base : BaseISA) (s : State) : Host.Outcome State Fault Refusal :=
  if nmiDue s.hart then inState s.cfg (takeNmi (afterEvents s.hart))
  else match chooseInterrupt (afterEvents s.hart) with
    | some (i, h) => inState s.cfg (takeInterrupt h i.2)
    | none => runInstr base ⟨s.cfg, afterEvents s.hart⟩

/-- One step of the machine with no base ISA (00_scope.md R12; log entry 15). -/
def step (s : State) : Host.Outcome State Fault Refusal := stepWith BaseISA.none s

/-- `s` with an opcode-table word stored where the next fetch reads: its four bytes at `pc`, lowest first. Where the state
lists no events for this boundary it lists none happening, so that no free NMI comes before the fetch (log entry 23). -/
def State.withFetchWord (s : State) (nbits w : Nat) : State :=
  ⟨s.cfg, { s.hart with
    mem := s.hart.mem.writeBytes s.hart.pc 0 (leBytes 4 (w % 2 ^ nbits))
    env := if s.hart.env.isEmpty then [[]] else s.hart.env }⟩

end Sys2Proof.Machine
end

