-- ==== Sys2Proof/Machine/Platform.lean ====
section
/-! DEFINITION. What the spec demands of a configuration record (00_scope.md R7, 10_state.md R30, R32, R34, R50, R61, R64,
R67) and of the platform's memory (70_reset_and_hazards.md R292, R296). No operation of the machine reads these: they are
premises that statements may use. -/

namespace Sys2Proof.Machine

/-- The `Base` code of a hart (10_state.md R30). -/
def baseCode (c : Config) : BitVec 2 :=
  match c.xlen with
  | .rv32 => if c.rve then 1 else 0
  | .rv64 => 2
  | .rv128 => 3

/-- `MCPUID` is 0 or agrees with the rest of the record (10_state.md R29 to R32). -/
def mcpuidOk (c : Config) : Bool :=
  c.mcpuid == 0 ||
  (c.mcpuid.extractLsb' c.layout.base 2 == baseCode c
    && (List.range c.width).all (fun i =>
      decide (i < 26) || decide (c.layout.base ≤ i ∧ i < c.layout.base + 2) || !c.mcpuid.getLsbD i)
    && c.mcpuid.getLsbD 20 == c.modes.has .u
    && c.mcpuid.getLsbD 18 == c.modes.has .s
    && c.mcpuid.getLsbD 7 == c.modes.has .h
    && c.mcpuid.getLsbD 4 == c.rve
    && c.mcpuid.getLsbD 8 == !c.rve
    && (!c.mcpuid.getLsbD 5 || c.hasFpu))

/-- `MIMPID` is 0 or its `Source` field is in a range the text gives (10_state.md R33, R34). -/
def mimpidOk (c : Config) : Bool :=
  let source := c.mimpid.extractLsb' c.layout.source 16
  c.mimpid == 0 || (source != 0#16 && source != 0x7FFF#16 && source != 0xFFFF#16)

/-- `MTVEC_W` is empty, or holds the top bit, bit 8 and every bit from 9 up to its highest bit below the top, and not bits
1 and 0 (10_state.md R59 to R61). -/
def mtvecWOk (c : Config) : Bool :=
  c.mtvecW == 0 ||
  (c.mtvecW.getLsbD (topBit c.width) && c.mtvecW.getLsbD 8 && !c.mtvecW.getLsbD 1 && !c.mtvecW.getLsbD 0
    && match topWritable c.mtvecW (c.width - 1) with
      | some t => (List.range (t + 1)).all (fun b => decide (b < 9) || c.mtvecW.getLsbD b)
      | none => false)

/-- `MTDELEG_W` is 0 without S and H, and never has a bit above 15 (10_state.md R64, R67). -/
def mtdelegWOk (c : Config) : Bool :=
  (c.modes.has .s || c.modes.has .h || c.mtdelegW == 0) && c.mtdelegW >>> 16 == 0

/-- `VM_SUPPORTED` has Mbare, and a scheme only where its levels and width are present (10_state.md R50). -/
def vmSupportedOk (c : Config) : Bool :=
  c.vmSupported.contains .mbare &&
  c.vmSupported.all fun s => match s with
    | .mbare => true
    | .mbb => c.modes.has .u
    | .mbbid => c.modes.has .u
    | .sv32 => c.xlen == .rv32 && c.modes.has .s
    | .sv39 => c.xlen == .rv64 && c.modes.has .s
    | .sv48 => c.xlen == .rv64 && c.modes.has .s

/-- Every CSR has an address of its own, of machine level, and the read-only class is that of the three identity registers
(30_encoding.md R136, R137). -/
def csrAddrOk (c : Config) : Bool :=
  decide (csrAll.map (csrAddr c)).Nodup &&
  csrAll.all (fun r => csrLevel (csrAddr c r) == .m &&
    csrReadOnly (csrAddr c r) == (r == .mcpuid || r == .mimpid || r == .mhartid))

/-- `LAYOUT` gives every field bits of its own (10_state.md R29, R33, R40, R70, R89). -/
def layoutOk (c : Config) : Bool := c.layout.ok c.width

/-- The configurations 00_scope.md R7 allows. -/
def configLegal (c : Config) : Bool :=
  (!c.rve || c.xlen == .rv32) && mcpuidOk c && mimpidOk c && mtvecWOk c && mtdelegWOk c && vmSupportedOk c
    && decide (32 ≤ c.mtimeBits) && csrAddrOk c && layoutOk c

/-- The vector entries that can be reached, as offsets from `mtvec`: one for each mode of the hart, the NMI entry, and the
entries of its own (60_exceptions.md R232, R240; 70_reset_and_hazards.md R296). -/
def reachableEntries (c : Config) : List Nat :=
  [0xC0] ++ (if c.modes.has .u then [0x00] else []) ++ (if c.modes.has .s then [0x40] else []) ++
  (if c.modes.has .h then [0x80] else []) ++ (if c.nmiPresent then [0xFC] else []) ++
  c.extraVectors.map (fun e => 4 * e.slot)

/-- Every reachable vector entry of a hart with this value of `mtvec` can be executed (70_reset_and_hazards.md R296). -/
def entriesExecutable (c : Config) (mtvec : Word c.width) : Bool :=
  (reachableEntries c).all (fun o => allows c .execute (mtvec + BitVec.ofNat c.width o) 4)

/-- The platform lets the reset vector and, with `mtvec` as reset leaves it, every reachable vector entry be executed
(20_memory.md R115, 70_reset_and_hazards.md R292, R296). -/
def platformBoots (c : Config) : Bool := allows c .execute c.resetVector 4 && entriesExecutable c c.mtvecReset

end Sys2Proof.Machine
end

