-- ==== Sys2Proof/Safety.lean ====
section
/-! DEFINITION. What claims call a safe state and a safe run: the machine's invariant, what a step executes, and a step
that goes on. -/

namespace Sys2Proof.Safety

open Sys2Proof.Machine

/-- The states a hart can be in: memory in canonical form, `pc` and `mepc` aligned (20_memory.md R109, 10_state.md R86),
`mtvec` a multiple of four (R60), every stack entry a supported mode (R44, R56), `VM` a supported scheme (R56). -/
structure HartInv {c : Config} (h : Hart c) : Prop where
  memory : h.mem.wf = true
  pc : c.pcAligned h.pc = true
  mepc : c.pcAligned h.mepc = true
  mtvec : h.mtvec &&& 3#c.width = 0
  modes : ∀ k < c.modes.depth, c.modes.has (stackEntry c h.mstatus k).prv = true
  vm : c.vmSupported.contains h.mstatus.vm = true

/-- The invariant of the machine. -/
def Inv (s : State) : Prop := HartInv s.hart

/-- At this boundary neither an NMI nor a maskable interrupt is taken (60_exceptions.md R231). -/
def NoInterruptDue {c : Config} (h : Hart c) : Prop := nmiDue h = false ∧ chooseInterrupt (afterEvents h) = none

/-- The step from `h` fetches a word that decodes to `i` and executes it. -/
def StepExecutes {c : Config} (h : Hart c) (i : Instr) : Prop :=
  NoInterruptDue h ∧ ∃ w, fetch (afterEvents h) (afterEvents h).pc = .ok w ∧ decodeWord w = .ok i

/-- What is left to fetch of an instruction after these halves, or none where it ends before them. -/
def restAfter : Rest → List Half → Option Rest
  | rest, [] => some rest
  | .ends, _ :: _ => none
  | .goesOn next, half :: more => restAfter (next half) more

/-- The destination register of a CSR instruction. -/
def destination : Instr → Option Reg
  | .csrrw rd _ _ => some rd
  | .csrrs rd _ _ => some rd
  | .csrrc rd _ _ => some rd
  | .csrrwi rd _ _ => some rd
  | .csrrsi rd _ _ => some rd
  | .csrrci rd _ _ => some rd
  | .ecall => none
  | .ebreak => none
  | .eret => none
  | .mrts => none
  | .mrth => none

/-- The step goes on: it neither faults nor is refused. -/
def Progress (s : State) : Prop := ∃ t, step s = .next t

/-- FAIRNESS (70_reset_and_hazards.md R303), a premise that claims about waiting for the timer take: the environment's free
events never stop having ticks. -/
def Fair : Prop := ∀ n, ∃ m, n ≤ m ∧ EnvEvent.tick ∈ Config.environment m

end Sys2Proof.Safety
end

