-- ==== Sys2Proof/Certificates/Slice0/Obligations.lean ====
section
/-! DEFINITION. The statements for the provers, family by family: encoding, the step, traps, the system instructions, the
CSR instructions, the registers, the timer, memory and the base ISA, and the whole machine. Every statement quantifies over
every legal or illegal configuration unless it names a premise on it (`layoutOk` and `csrAddrOk`: fields and addresses are
distinct), and over every state. -/

open Sys2Proof Sys2Proof.Machine Sys2Proof.Safety

/-! ### Encoding -/

/-- Decoding an encoded instruction gives it back, with every operand at every value (30_encoding.md R131, R139). -/
def Obligations.EncodeThenDecode : Prop := ∀ i : Instr, decodeWord (encode i) = .ok i

/-- A word that decodes is the encoding of what it decodes to: no bit of it is dropped (30_encoding.md R131, R139). -/
def Obligations.DecodedWordEncodesBack : Prop := ∀ (w : BitVec 32) (i : Instr), decodeWord w = .ok i → encode i = w

/-- The masks and matches of 30_encoding.md R139 decide the instruction, with `rd` = bits 11:7, `rs1` or `zimm` = bits 19:15
and `csr` = bits 31:20 (R131); a word that no row matches is no instruction. -/
def Obligations.MasksDecideTheInstruction : Prop :=
  ∀ w : BitVec 32,
    let rd : Reg := (w.extractLsb' 7 5).toFin
    let rs1 : Reg := (w.extractLsb' 15 5).toFin
    let zimm := w.extractLsb' 15 5
    let csr := w.extractLsb' 20 12
    let low := w &&& 0x0000707F#32
    (low = 0x00001073#32 → decodeWord w = .ok (.csrrw rd csr rs1)) ∧
    (low = 0x00002073#32 → decodeWord w = .ok (.csrrs rd csr rs1)) ∧
    (low = 0x00003073#32 → decodeWord w = .ok (.csrrc rd csr rs1)) ∧
    (low = 0x00005073#32 → decodeWord w = .ok (.csrrwi rd csr zimm)) ∧
    (low = 0x00006073#32 → decodeWord w = .ok (.csrrsi rd csr zimm)) ∧
    (low = 0x00007073#32 → decodeWord w = .ok (.csrrci rd csr zimm)) ∧
    (w = 0x00000073#32 → decodeWord w = .ok .ecall) ∧
    (w = 0x00100073#32 → decodeWord w = .ok .ebreak) ∧
    (w = 0x10000073#32 → decodeWord w = .ok .eret) ∧
    (w = 0x30500073#32 → decodeWord w = .ok .mrts) ∧
    (w = 0x30600073#32 → decodeWord w = .ok .mrth) ∧
    ((low ≠ 0x00001073#32 ∧ low ≠ 0x00002073#32 ∧ low ≠ 0x00003073#32 ∧ low ≠ 0x00005073#32 ∧ low ≠ 0x00006073#32 ∧
      low ≠ 0x00007073#32 ∧ w ≠ 0x00000073#32 ∧ w ≠ 0x00100073#32 ∧ w ≠ 0x10000073#32 ∧ w ≠ 0x30500073#32 ∧
      w ≠ 0x30600073#32) → ∃ why, decodeWord w = .error why)

/-- Words written out from the spec decode to the instructions they stand for, as bytes in memory order (30_encoding.md
R130, R135; the words of 40_csr_instructions.md R166 to R171). -/
def Obligations.WordsOfTheSpecDecode : Prop :=
  decodeBytes [0x73, 0x15, 0x05, 0x34] = .ok (.csrrw 10 0x340 10, []) ∧
  decodeBytes [0xF3, 0x22, 0x00, 0xF0] = .ok (.csrrs 5 0xF00 0, []) ∧
  decodeBytes [0x73, 0xB0, 0x43, 0x30] = .ok (.csrrc 0 0x304 7, []) ∧
  decodeBytes [0x73, 0xD0, 0x02, 0x34] = .ok (.csrrwi 0 0x340 5, []) ∧
  decodeBytes [0x73, 0xE0, 0x00, 0x30] = .ok (.csrrsi 0 0x300 1, []) ∧
  decodeBytes [0x73, 0xF0, 0x00, 0x30] = .ok (.csrrci 0 0x300 1, []) ∧
  decodeBytes [0x73, 0x00, 0x00, 0x10] = .ok (.eret, []) ∧
  decodeBytes [0x73, 0x00, 0x50, 0x30] = .ok (.mrts, []) ∧
  decodeBytes [0x73, 0x00, 0x20, 0x10] = .error .noPrivileged

/-! ### The step -/

/-- When the four bytes at `pc` decode to an instruction and no interrupt is taken at this boundary, the step is `exec` of
it on the state that the boundary's events leave. With a base ISA it is so too, unless the base ISA claims the word, which it
may where the word is a CSR instruction with legal registers on an address that is none of this spec, from a mode not below
its level and not writing the read-only class: then the step runs the base ISA's actions (30_encoding.md R138; the model's
choice, log entry 38). That it is so whatever the base ISA's length rule makes of the first half is the model's reading of
R139 (log entry 32). -/
def Obligations.StepRunsTheDecodedInstruction : Prop :=
  ∀ (c : Config) (h : Hart c) (i : Instr) (rest : List Byte),
    NoInterruptDue h → c.pcAligned h.pc = true → h.mstatus.vm = .mbare → allows c .execute h.pc 4 = true →
    decodeBytes (h.mem.readBytes h.pc 4) = .ok (i, rest) →
    step ⟨c, h⟩ = exec i ⟨c, afterEvents h⟩ ∧
    ∀ base : BaseISA,
      let w := BitVec.ofNat 32 (leNat (h.mem.readBytes h.pc 4))
      let claim := base.act c [w.extractLsb' 0 16, w.extractLsb' 16 16] ((afterEvents h).x.set 0 0) h.pc
      let offered := ∃ a, csrNumber i = some a ∧ i.wellFormed c = true ∧ csrOfAddr c a = none ∧
        ¬(h.cur.code < a.extractLsb' 8 2) ∧ ¬(writesCsr i = true ∧ a.extractLsb' 10 2 = 0b11#2)
      (¬offered ∨ claim = none → stepWith base ⟨c, h⟩ = exec i ⟨c, afterEvents h⟩) ∧
      ∀ act, offered → claim = some act → stepWith base ⟨c, h⟩ = inState c (runBase (afterEvents h) (afterEvents h) act)

/-- What no row of the table matches is the base ISA's, whose own rule says how long it is; where the base ISA does not claim
it, and in `step`, which has no base ISA, it raises Illegal instruction (00_scope.md R12, 20_memory.md R106, 30_encoding.md
R139, R144). With 32-bit alignment it is a 32-bit word. With 16-bit alignment it is as many halves as the rule wants after the
first, and no byte beyond them need be executable. -/
def Obligations.UnmatchedWordIsIllegal : Prop :=
  ∀ (c : Config) (h : Hart c), NoInterruptDue h →
    let g := afterEvents h
    let left := fun (base : BaseISA) (halves : List Half) =>
      (base.act c halves (g.x.set 0 0) g.pc = none → stepWith base ⟨c, h⟩ = inState c (raise g .illegal)) ∧
      ∀ act, base.act c halves (g.x.set 0 0) g.pc = some act → stepWith base ⟨c, h⟩ = inState c (runBase g g act)
    (∀ (w : BitVec 32) (why : DecodeError), fetch g g.pc = .ok w → decodeWord w = .error why →
      step ⟨c, h⟩ = inState c (raise g .illegal) ∧
      ∀ base : BaseISA, c.ialign = .a32 → left base [w.extractLsb' 0 16, w.extractLsb' 16 16]) ∧
    ∀ (base : BaseISA) (n : Nat), c.ialign = .a16 → c.pcAligned g.pc = true → g.mstatus.vm = .mbare →
      restAfter (base.rest c (halfAt g g.pc 0)) ((List.range n).map (fun i => halfAt g g.pc (i + 1))) = some .ends →
      (∀ i < n + 1, allows c .execute (g.pc + BitVec.ofNat c.width (2 * i)) 2 = true) →
      (∀ w i, fetch g g.pc = .ok w → decodeWord w ≠ .ok i) →
      left base ((List.range (n + 1)).map (fun i => halfAt g g.pc i))

/-- `funct3` = 0b100 under the SYSTEM opcode raises Illegal instruction in `step`, and in a step with any base ISA that does
not claim the word and by whose length rule it is one instruction; the step takes it wherever it is not delegated (30_encoding.md R139, R141, 00_scope.md R12). That a base
ISA may claim the word, and that `step` has none, is the model's choice (log entry 15). -/
def Obligations.ReservedFunct3IsIllegal : Prop :=
  ∀ (c : Config) (h : Hart c) (w : BitVec 32),
    NoInterruptDue h → fetch (afterEvents h) (afterEvents h).pc = .ok w →
    w.extractLsb' 0 7 = 0b1110011#7 → w.extractLsb' 12 3 = 0b100#3 →
    step ⟨c, h⟩ = inState c (raise (afterEvents h) .illegal) ∧
    (∀ base : BaseISA,
      c.ialign = .a32 ∨ restAfter (base.rest c (w.extractLsb' 0 16)) [w.extractLsb' 16 16] = some .ends →
      base.act c [w.extractLsb' 0 16, w.extractLsb' 16 16] ((afterEvents h).x.set 0 0) (afterEvents h).pc = none →
      stepWith base ⟨c, h⟩ = inState c (raise (afterEvents h) .illegal)) ∧
    ((h.cur = .m ∨ (csrRead h .mtdeleg).getLsbD 2 = false) →
      ∃ t : Hart c, step ⟨c, h⟩ = .next ⟨c, t⟩ ∧ t.mcause = ⟨false, 2⟩ ∧ t.mepc = c.alignPc h.pc)

/-- A maskable interrupt chosen at the boundary is taken before the fetch: the step saves the `pc` of the instruction not
executed, records code 0 for software and 1 for timer, and leaves the pending bits, the registers and memory
(60_exceptions.md R225, R226, R231, R233, R238 to R240). An entry of its own in `EXTRA_VECTORS` is the model's choice (log
entry 36). -/
def Obligations.InterruptTakenBeforeTheFetch : Prop :=
  ∀ (c : Config) (h h' : Hart c) (x : Level) (k : IntKind),
    nmiDue h = false → chooseInterrupt (afterEvents h) = some ((x, k), h') →
    let code : BitVec 4 := match k with
      | .software => 0
      | .timer => 1
    ∃ t : Hart c, step ⟨c, h⟩ = .next ⟨c, t⟩ ∧
      t.mepc = c.alignPc h.pc ∧ t.mcause = ⟨true, code⟩ ∧ t.cur = .m ∧ t.ie = false ∧
      t.pc = h.mtvecValue + (match c.extraVectors.find? (fun e => e.interrupt == true && e.code == code) with
        | some e => BitVec.ofNat c.width (4 * e.slot)
        | none => BitVec.ofNat c.width (h.cur.code.toNat * 0x40)) ∧
      t.mip = (afterEvents h).mip ∧ t.mie = h.mie ∧ t.x = h.x ∧ t.mem = h.mem

/-- An interrupt is chosen exactly when one may be taken, and the one chosen may be taken; choosing changes nothing but the
count of free values (60_exceptions.md R231, R234). -/
def Obligations.ChosenInterruptIsTakeable : Prop :=
  ∀ (c : Config) (h : Hart c),
    (chooseInterrupt h = none ↔ ∀ x k, takeable h x k = false) ∧
    ∀ x k h', chooseInterrupt h = some ((x, k), h') → takeable h x k = true ∧ ∃ n, h' = { h with draws := n }

/-- An interrupt may be taken when its bits in `mip` and `mie`, as a CSR read shows them, are 1 and its level is above the
current mode, or is the current mode with `IE` = 1, for every legal layout (60_exceptions.md R229). -/
def Obligations.TakeableCondition : Prop :=
  ∀ (c : Config) (h : Hart c) (x : Level) (k : IntKind), layoutOk c = true →
    (takeable h x k = true ↔
      (csrRead h .mip).getLsbD (intPos c.layout.mip x k) = true ∧
      (csrRead h .mie).getLsbD (intPos c.layout.mie x k) = true ∧
      (h.cur.code < x.priv.code ∨ (h.cur = x.priv ∧ (csrRead h .mstatus).getLsbD c.layout.ie = true)))

/-- An NMI signalled at the boundary of a hart that has the input enters M-mode at `mtvec` + 0xFC whatever `IE` and `mie`
are, with the `Interrupt` bit set; its code and `mbadaddr` are free (60_exceptions.md R232). -/
def Obligations.NmiEntersAtItsVector : Prop :=
  ∀ (c : Config) (h : Hart c),
    c.nmiPresent = true → EnvEvent.nmi ∈ dueEvents h →
    ∃ t : Hart c, step ⟨c, h⟩ = .next ⟨c, t⟩ ∧ t.mcause.interrupt = true ∧ t.mepc = c.alignPc h.pc ∧
      t.pc = h.mtvecValue + BitVec.ofNat c.width 0xFC ∧ t.cur = .m ∧ t.ie = false ∧
      stackEntry c t.mstatus 1 = stackEntry c h.mstatus 0 ∧ t.mstatus.mprv = false

/-- The events of a boundary, those the state lists for it or else the environment's free ones, change nothing but `mtime`, by
the number of ticks, the pending bits, and the model's own list and count; the software bits of S and H stay, and MTIP is
never cleared; every step passes one boundary (10_state.md R75, R78, R81). So a run meets the free events one after another,
which the premise `Fair` keeps from stopping (70_reset_and_hazards.md R303; list, count and free events are the model's choice,
log entry 8). -/
def Obligations.EventsChangeOnlyTimerAndPending : Prop :=
  (∀ (c : Config) (h : Hart c),
    (h.env = [] → dueEvents h = Config.environment h.boundary) ∧
    (∀ evs rest, h.env = evs :: rest → dueEvents h = evs) ∧
    (∃ time bits,
      afterEvents h = { h with mtime := time, mip := bits, env := h.env.tail, boundary := h.boundary + 1 }) ∧
    (afterEvents h).mtime = h.mtime + BitVec.ofNat c.mtimeBits ((dueEvents h).count .tick) ∧
    (afterEvents h).mip.ssoft = h.mip.ssoft ∧ (afterEvents h).mip.hsoft = h.mip.hsoft ∧
    (h.mip.mtimer = true → (afterEvents h).mip.mtimer = true)) ∧
  ∀ (base : BaseISA) (c : Config) (h t : Hart c), stepWith base ⟨c, h⟩ = .next ⟨c, t⟩ →
    t.env = h.env.tail ∧ t.boundary = h.boundary + 1

/-- The outcomes of a fetch, in the order of 20_memory.md R106: misaligned, scheme not modelled, access fault, or the
little-endian word. With 16-bit alignment the access fault records the first half that may not be executed (10_state.md
R95); the halves are the model's reading of "portion" (log entry 20). Each half of an instruction of another length is
little-endian too (20_memory.md R108). -/
def Obligations.FetchOutcomes : Prop :=
  ∀ (c : Config) (h : Hart c) (a : Word c.width),
    (∀ i, ∀ j < 2, (halfAt h a i).extractLsb' (8 * j) 8 = h.mem.read (byteAddr a (2 * i + j))) ∧
    (c.pcAligned a = false → fetch h a = .raise (.instMisaligned a)) ∧
    (c.pcAligned a = true → h.mstatus.vm ≠ .mbare → fetch h a = .refuse .vmScheme) ∧
    (c.pcAligned a = true → h.mstatus.vm = .mbare → allows c .execute a 4 = false →
      (c.ialign = .a32 ∨ allows c .execute a 2 = false → fetch h a = .raise (.instAccess a)) ∧
      (c.ialign = .a16 → allows c .execute a 2 = true → fetch h a = .raise (.instAccess (a + 2)))) ∧
    (c.pcAligned a = true → h.mstatus.vm = .mbare → allows c .execute a 4 = true →
      ∃ w, fetch h a = .ok w ∧ ∀ j < 4, w.extractLsb' (8 * j) 8 = h.mem.read (byteAddr a j))

/-- A fetch outside executable memory is a trap of the step: `mcause` 1, `mepc` the instruction's address, `mbadaddr` the
faulting address (20_memory.md R115, 10_state.md R93, R95). An entry of its own in `EXTRA_VECTORS` is the model's
choice (log entry 36). With a base ISA and 16-bit alignment an instruction no row matches raises the access fault of the first
half its length rule wants that may not be executed (20_memory.md R106; log entries 20, 32). -/
def Obligations.FetchAccessFaultTraps : Prop :=
  (∀ (c : Config) (h : Hart c),
    NoInterruptDue h → c.pcAligned h.pc = true → h.mstatus.vm = .mbare → allows c .execute h.pc 4 = false →
    (h.cur = .m ∨ (csrRead h .mtdeleg).getLsbD 1 = false) →
    ∃ t : Hart c, step ⟨c, h⟩ = .next ⟨c, t⟩ ∧ t.mcause = ⟨false, 1⟩ ∧ t.mepc = h.pc ∧
      t.mbadaddr = fetchFaultAddr c h.pc ∧ (c.ialign = .a32 → t.mbadaddr = h.pc) ∧
      t.pc = h.mtvecValue + (match c.extraVectors.find? (fun e => e.interrupt == false && e.code == 1) with
        | some e => BitVec.ofNat c.width (4 * e.slot)
        | none => BitVec.ofNat c.width (h.cur.code.toNat * 0x40)) ∧ t.x = h.x ∧ t.mem = h.mem) ∧
  ∀ (base : BaseISA) (c : Config) (h : Hart c) (n : Nat) (next : Half → Rest),
    let g := afterEvents h
    NoInterruptDue h → c.ialign = .a16 → c.pcAligned g.pc = true → g.mstatus.vm = .mbare →
    restAfter (base.rest c (halfAt g g.pc 0)) ((List.range n).map (fun i => halfAt g g.pc (i + 1))) = some (.goesOn next) →
    (∀ i < n + 1, allows c .execute (g.pc + BitVec.ofNat c.width (2 * i)) 2 = true) →
    allows c .execute (g.pc + BitVec.ofNat c.width (2 * (n + 1))) 2 = false →
    (∀ w i, fetch g g.pc = .ok w → decodeWord w ≠ .ok i) →
    stepWith base ⟨c, h⟩ = inState c (raise g (.instAccess (g.pc + BitVec.ofNat c.width (2 * (n + 1)))))

/-- While `VM` is not Mbare every fetch and every data access is refused (20_memory.md R107). -/
def Obligations.NonMbareAccessesAreRefused : Prop :=
  ∀ (c : Config) (h : Hart c), h.mstatus.vm ≠ .mbare →
    (∀ (a : Word c.width) (len : Nat) (v : BitVec (8 * len)), 0 < len →
      memRead h a len = .refuse .vmScheme ∧ memWrite h a len v = .refuse .vmScheme) ∧
    (NoInterruptDue h → c.pcAligned h.pc = true → step ⟨c, h⟩ = .refused .vmScheme)

/-! ### Traps -/

/-- Trap entry, line by line (60_exceptions.md R236): a trap whose handler is not M is refused; otherwise `mepc`, `mcause`
with the codes of R220 and R225, in place in the word a CSR read gives, `mbadaddr` the recorded address or a free value, the
push with `PRV` = M and `IE` = 0, `MPRV` = 0, and `pc`, where the cause has no entry of its own in `EXTRA_VECTORS`. -/
def Obligations.TrapEntryEffect : Prop :=
  ∀ (c : Config) (h : Hart c) (cause : Cause c.width) (epc : Word c.width),
    let I : Bool := match cause with
      | .exception _ => false
      | .interrupt _ => true
      | .nmi _ => true
    let code : BitVec 4 := match cause with
      | .exception (.instMisaligned _) => 0
      | .exception (.instAccess _) => 1
      | .exception .illegal => 2
      | .exception .breakpoint => 3
      | .exception (.loadMisaligned _) => 4
      | .exception (.loadAccess _) => 5
      | .exception (.storeMisaligned _) => 6
      | .exception (.storeAccess _) => 7
      | .exception (.ecall .u) => 8
      | .exception (.ecall .s) => 9
      | .exception (.ecall .h) => 10
      | .exception (.ecall .m) => 11
      | .interrupt .software => 0
      | .interrupt .timer => 1
      | .nmi n => n
    let address : Option (Word c.width) := match cause with
      | .exception (.instMisaligned target) => some target
      | .exception (.instAccess a) => some a
      | .exception (.loadMisaligned a) => some a
      | .exception (.loadAccess a) => some a
      | .exception (.storeMisaligned a) => some a
      | .exception (.storeAccess a) => some a
      | .exception .illegal => none
      | .exception .breakpoint => none
      | .exception (.ecall _) => none
      | .interrupt _ => none
      | .nmi _ => none
    (handlerMode h cause ≠ .m → takeTrap h cause epc = .refused .delegatedTrap) ∧
    (handlerMode h cause = .m → c.pcAligned epc = true →
    ∃ t : Hart c, takeTrap h cause epc = .next t ∧
      t.mepc = epc ∧
      (layoutOk c = true → (csrRead t .mcause).getLsbD c.layout.interrupt = I ∧
        (csrRead t .mcause).extractLsb' c.layout.code 4 = code ∧
        ∀ i, i ≠ c.layout.interrupt → (i < c.layout.code ∨ c.layout.code + 4 ≤ i) →
          (csrRead t .mcause).getLsbD i = false) ∧
      (c.layout = Layout.default c.width →
        csrRead t .mcause = (if I then BitVec.twoPow c.width (c.width - 1) else 0) ||| code.setWidth c.width) ∧
      (∀ a, address = some a → t.mbadaddr = a) ∧
      (address = none → t.mbadaddr = Config.draw c.width h.draws) ∧
      t.cur = .m ∧ t.ie = false ∧
      (∀ k, k + 1 < c.modes.depth → stackEntry c t.mstatus (k + 1) = stackEntry c h.mstatus k) ∧
      t.mstatus.mprv = false ∧
      (match cause with
        | .nmi _ => t.pc = csrRead h .mtvec + BitVec.ofNat c.width 0xFC
        | .exception _ => c.extraVector I code = none →
          t.pc = csrRead h .mtvec + BitVec.ofNat c.width (h.cur.code.toNat * 0x40)
        | .interrupt _ => c.extraVector I code = none →
          t.pc = csrRead h .mtvec + BitVec.ofNat c.width (h.cur.code.toNat * 0x40)))

/-- What trap entry leaves unchanged (60_exceptions.md R244). -/
def Obligations.TrapEntryFrame : Prop :=
  ∀ (c : Config) (h t : Hart c) (cause : Cause c.width) (epc : Word c.width), takeTrap h cause epc = .next t →
    (∀ r, t.reg r = h.reg r) ∧ t.mscratch = h.mscratch ∧ t.mtvec = h.mtvec ∧ t.mtdeleg = h.mtdeleg ∧ t.mie = h.mie ∧
    t.mip = h.mip ∧ t.mtime = h.mtime ∧ t.mtimecmp = h.mtimecmp ∧ t.mstatus.vm = h.mstatus.vm ∧
    t.mstatus.fs = h.mstatus.fs ∧ t.mstatus.xs = h.mstatus.xs ∧ ∀ a, t.mem.read a = h.mem.read a

/-- A trap is refused exactly when it is a synchronous exception from below M whose bit of `mtdeleg` is 1; traps from M,
interrupts and NMIs always enter M-mode (60_exceptions.md R230, R237, R252, R253). -/
def Obligations.DelegatedTrapsAreRefused : Prop :=
  ∀ (c : Config) (h : Hart c) (epc : Word c.width),
    (∀ e : Exc c.width, takeTrap h (.exception e) epc = .refused .delegatedTrap ↔
      h.cur ≠ .m ∧ (csrRead h .mtdeleg).getLsbD e.code.toNat = true) ∧
    (∀ e : Exc c.width, takeTrap h (.exception e) epc = .next (trapInto h (.exception e) epc) ↔
      ¬(h.cur ≠ .m ∧ (csrRead h .mtdeleg).getLsbD e.code.toNat = true)) ∧
    (∀ k, takeTrap h (.interrupt k) epc = .next (trapInto h (.interrupt k) epc)) ∧
    (∀ n, takeTrap h (.nmi n) epc = .next (trapInto h (.nmi n) epc))

/-- ERET straight after a trap brings back the mode and `IE` in force when it was taken, goes to the saved address, leaves
`MPRV` 0 and restores nothing else (60_exceptions.md R245). -/
def Obligations.EretAfterATrapRestores : Prop :=
  ∀ (c : Config) (h t : Hart c) (cause : Cause c.width) (epc : Word c.width),
    takeTrap h cause epc = .next t → c.pcAligned epc = true →
    ∃ u : Hart c, exec .eret ⟨c, t⟩ = .next ⟨c, u⟩ ∧ u.cur = h.cur ∧ u.ie = h.ie ∧ u.pc = epc ∧
      u.mstatus.mprv = false ∧ u = { t with mstatus := u.mstatus, pc := t.mepc }

/-! ### System instructions -/

/-- ECALL always raises the environment-call exception of the current mode, code 8 + mode: wherever that is not delegated
`mepc` is its own address, and what `mbadaddr` becomes is free; delegated, it is refused (41_system_instructions.md R191,
60_exceptions.md R253). -/
def Obligations.EcallTakesItsException : Prop :=
  ∀ (c : Config) (h : Hart c),
    (h.cur ≠ .m ∧ (csrRead h .mtdeleg).getLsbD (8 + h.cur.code.toNat) = true →
      exec .ecall ⟨c, h⟩ = .refused .delegatedTrap) ∧
    ((h.cur = .m ∨ (csrRead h .mtdeleg).getLsbD (8 + h.cur.code.toNat) = false) →
    ∃ t : Hart c, exec .ecall ⟨c, h⟩ = .next ⟨c, t⟩ ∧ t.mepc = c.alignPc h.pc ∧ (c.pcAligned h.pc = true → t.mepc = h.pc) ∧
      t.mcause = ⟨false, 8 + h.cur.code.setWidth 4⟩ ∧ t.mbadaddr = Config.draw c.width h.draws ∧ t.cur = .m ∧
      t.ie = false ∧ stackEntry c t.mstatus 1 = stackEntry c h.mstatus 0 ∧ t.mstatus.mprv = false ∧
      (c.extraVector false (8 + h.cur.code.setWidth 4) = none →
        t.pc = h.mtvecValue + BitVec.ofNat c.width (h.cur.code.toNat * 0x40)))

/-- EBREAK always raises the breakpoint exception, code 3: wherever that is not delegated `mepc` is its own address, and what
`mbadaddr` becomes is free; delegated, it is refused (41_system_instructions.md R192, 60_exceptions.md R253). -/
def Obligations.EbreakTakesItsException : Prop :=
  ∀ (c : Config) (h : Hart c),
    (h.cur ≠ .m ∧ (csrRead h .mtdeleg).getLsbD 3 = true → exec .ebreak ⟨c, h⟩ = .refused .delegatedTrap) ∧
    ((h.cur = .m ∨ (csrRead h .mtdeleg).getLsbD 3 = false) →
    ∃ t : Hart c, exec .ebreak ⟨c, h⟩ = .next ⟨c, t⟩ ∧ t.mepc = c.alignPc h.pc ∧ (c.pcAligned h.pc = true → t.mepc = h.pc) ∧
      t.mcause = ⟨false, 3⟩ ∧
      t.mbadaddr = Config.draw c.width h.draws ∧ t.cur = .m ∧ t.ie = false ∧
      stackEntry c t.mstatus 1 = stackEntry c h.mstatus 0 ∧ t.mstatus.mprv = false ∧
      (c.extraVector false 3 = none → t.pc = h.mtvecValue + BitVec.ofNat c.width (h.cur.code.toNat * 0x40)))

/-- ERET in M-mode: every stack entry takes the one above it, the oldest becomes the lowest mode with `IE` = 1, `pc` becomes
`mepc`, and nothing else changes (41_system_instructions.md R193, 10_state.md R46). -/
def Obligations.EretInMachineMode : Prop :=
  ∀ (c : Config) (h : Hart c), h.cur = .m →
    ∃ ms : MStatus, exec .eret ⟨c, h⟩ = .next ⟨c, { h with mstatus := ms, pc := h.mepc }⟩ ∧
      (∀ k, k + 1 < c.modes.depth → stackEntry c ms k = stackEntry c h.mstatus (k + 1)) ∧
      stackEntry c ms (c.modes.depth - 1) = ⟨if c.modes = .m then .m else .u, true⟩ ∧
      ms.mprv = h.mstatus.mprv ∧ ms.vm = h.mstatus.vm ∧ ms.fs = h.mstatus.fs ∧ ms.xs = h.mstatus.xs

/-- ERET below M: Illegal instruction in U, refused in S and H (41_system_instructions.md R193). -/
def Obligations.EretBelowMachineMode : Prop :=
  ∀ (c : Config) (h : Hart c),
    (h.cur = .u → exec .eret ⟨c, h⟩ = inState c (raise h .illegal)) ∧
    (h.cur = .s ∨ h.cur = .h → exec .eret ⟨c, h⟩ = .refused .eretBelowM)

/-- MRTS and MRTH: Illegal instruction below M or without the target mode, which from M-mode enters at `mtvec` + 0xC0 with
`mcause` 2; with the target mode, in M-mode, refused (41_system_instructions.md R194, R195). -/
def Obligations.RedirectionOutcomes : Prop :=
  ∀ (c : Config) (h : Hart c),
    (h.cur ≠ .m ∨ c.modes.has .s = false → exec .mrts ⟨c, h⟩ = inState c (raise h .illegal)) ∧
    (h.cur ≠ .m ∨ c.modes.has .h = false → exec .mrth ⟨c, h⟩ = inState c (raise h .illegal)) ∧
    (∀ i, i = .mrts ∧ c.modes.has .s = false ∨ i = .mrth ∧ c.modes.has .h = false → h.cur = .m →
      ∃ t : Hart c, exec i ⟨c, h⟩ = .next ⟨c, t⟩ ∧ t.mcause = ⟨false, 2⟩ ∧ t.mepc = c.alignPc h.pc ∧
        (c.extraVector false 2 = none → t.pc = h.mtvecValue + BitVec.ofNat c.width 0xC0) ∧ t.cur = .m ∧ t.ie = false) ∧
    (h.cur = .m → c.modes.has .s = true → exec .mrts ⟨c, h⟩ = .refused .mrtsRedirect) ∧
    (h.cur = .m → c.modes.has .h = true → exec .mrth ⟨c, h⟩ = .refused .mrthRedirect)

/-- The frame of ECALL, EBREAK, ERET, MRTS and MRTH: no general register, no byte of memory, no special register but
`mstatus` and `pc`, and, where a trap is taken, `mepc`, `mcause` and `mbadaddr` (41_system_instructions.md R190, R193,
60_exceptions.md R244). -/
def Obligations.SystemInstructionFrame : Prop :=
  ∀ (c : Config) (h t : Hart c) (i : Instr), csrNumber i = none → exec i ⟨c, h⟩ = .next ⟨c, t⟩ →
    (∀ r, t.reg r = h.reg r) ∧ (∀ a, t.mem.read a = h.mem.read a) ∧ t.mtvec = h.mtvec ∧ t.mtdeleg = h.mtdeleg ∧
    t.mip = h.mip ∧ t.mie = h.mie ∧ t.mtime = h.mtime ∧ t.mtimecmp = h.mtimecmp ∧ t.mscratch = h.mscratch ∧
    t.mstatus.vm = h.mstatus.vm ∧ t.mstatus.fs = h.mstatus.fs ∧ t.mstatus.xs = h.mstatus.xs ∧ t.env = h.env ∧
    t.boundary = h.boundary ∧
    (i = .eret → h.cur = .m →
      t.mepc = h.mepc ∧ t.mcause = h.mcause ∧ t.mbadaddr = h.mbadaddr ∧ t.mstatus.mprv = h.mstatus.mprv)

/-! ### CSR instructions: where each completes, and with what -/

/-- With legal addresses (30_encoding.md R136) a CSR number names a register exactly where it is that register's; by default
the fourteen numbers of R137 and no other (R138). The default places of the fields are those of 10_state.md R29, R33, R40, R70
and R89, and give every field bits of its own at every width. -/
def Obligations.CsrAddressesAndFieldsOfTheSpec : Prop :=
  (∀ (c : Config) (a : BitVec 12) (r : Csr), csrAddrOk c = true → (csrOfAddr c a = some r ↔ a = csrAddr c r)) ∧
  (∀ (c : Config) (a : BitVec 12) (r : Csr), c.csrAddr = CsrAddresses.default →
    (csrOfAddr c a = some r ↔
      (a = 0xF00 ∧ r = .mcpuid) ∨ (a = 0xF01 ∧ r = .mimpid) ∨ (a = 0xF10 ∧ r = .mhartid) ∨ (a = 0x300 ∧ r = .mstatus) ∨
      (a = 0x301 ∧ r = .mtvec) ∨ (a = 0x302 ∧ r = .mtdeleg) ∨ (a = 0x304 ∧ r = .mie) ∨ (a = 0x321 ∧ r = .mtimecmp) ∨
      (a = 0x701 ∧ r = .mtime) ∨ (a = 0x340 ∧ r = .mscratch) ∨ (a = 0x341 ∧ r = .mepc) ∨ (a = 0x342 ∧ r = .mcause) ∨
      (a = 0x343 ∧ r = .mbadaddr) ∨ (a = 0x344 ∧ r = .mip))) ∧
  (∀ c : Config, c.csrAddr = CsrAddresses.default → csrAddrOk c = true) ∧
  ∀ c : Config, c.layout = Layout.default c.width →
    layoutOk c = true ∧ (∀ k < 4, c.layout.iePos k = 3 * k ∧ c.layout.prvPos k = 3 * k + 1) ∧ c.layout.ie = 0 ∧
    c.layout.fs = 12 ∧ c.layout.xs = 14 ∧ c.layout.mprv = 16 ∧ c.layout.vm = 17 ∧ c.layout.sd = c.width - 1 ∧
    (∀ l, l = c.layout.mip ∨ l = c.layout.mie →
      intPos l .s .software = 1 ∧ intPos l .h .software = 2 ∧ intPos l .m .software = 3 ∧
      intPos l .s .timer = 5 ∧ intPos l .h .timer = 6 ∧ intPos l .m .timer = 7) ∧
    c.layout.interrupt = c.width - 1 ∧ c.layout.code = 0 ∧ c.layout.base = c.width - 2 ∧ c.layout.source = 0 ∧
    c.layout.implementation = 16

/-- CSRRW on a register that can be written, in M-mode: the CSR takes the old `x[rs1]`, `x[rd]` the old CSR value, `pc` + 4
(40_csr_instructions.md R166). -/
def Obligations.CsrrwCompletes : Prop :=
  ∀ (c : Config) (h : Hart c) (rd rs1 : Reg) (a : BitVec 12) (r : Csr),
    h.cur = .m → c.regOk rd = true → c.regOk rs1 = true → csrOfAddr c a = some r → a.extractLsb' 10 2 ≠ 0b11#2 →
    r ≠ .mtime → (r = .mstatus → mstatusModesOk c (h.reg rs1) = true ∧ mstatusVmOk c (h.reg rs1) = true) →
    exec (.csrrw rd a rs1) ⟨c, h⟩ = .next ⟨c, ((csrPut h (h.reg rs1) r).setReg rd (csrRead h r)).advance⟩

/-- CSRRS in M-mode: with `rs1` = `x0` a pure read, legal on every register; otherwise the CSR takes its old value with the
bits of `x[rs1]` set (40_csr_instructions.md R164, R167). -/
def Obligations.CsrrsCompletes : Prop :=
  ∀ (c : Config) (h : Hart c) (rd rs1 : Reg) (a : BitVec 12) (r : Csr),
    h.cur = .m → c.regOk rd = true → c.regOk rs1 = true → csrOfAddr c a = some r →
    (rs1 = 0 → exec (.csrrs rd a rs1) ⟨c, h⟩ = .next ⟨c, (h.setReg rd (csrRead h r)).advance⟩) ∧
    (rs1 ≠ 0 → a.extractLsb' 10 2 ≠ 0b11#2 → r ≠ .mtime →
      (r = .mstatus → mstatusModesOk c (csrRead h r ||| h.reg rs1) = true ∧
        mstatusVmOk c (csrRead h r ||| h.reg rs1) = true) →
      exec (.csrrs rd a rs1) ⟨c, h⟩ =
        .next ⟨c, ((csrPut h (csrRead h r ||| h.reg rs1) r).setReg rd (csrRead h r)).advance⟩)

/-- CSRRC in M-mode: with `rs1` = `x0` a pure read; otherwise the CSR takes its old value with the bits of `x[rs1]` cleared
(40_csr_instructions.md R164, R168). -/
def Obligations.CsrrcCompletes : Prop :=
  ∀ (c : Config) (h : Hart c) (rd rs1 : Reg) (a : BitVec 12) (r : Csr),
    h.cur = .m → c.regOk rd = true → c.regOk rs1 = true → csrOfAddr c a = some r →
    (rs1 = 0 → exec (.csrrc rd a rs1) ⟨c, h⟩ = .next ⟨c, (h.setReg rd (csrRead h r)).advance⟩) ∧
    (rs1 ≠ 0 → a.extractLsb' 10 2 ≠ 0b11#2 → r ≠ .mtime →
      (r = .mstatus → mstatusModesOk c (csrRead h r &&& ~~~(h.reg rs1)) = true ∧
        mstatusVmOk c (csrRead h r &&& ~~~(h.reg rs1)) = true) →
      exec (.csrrc rd a rs1) ⟨c, h⟩ =
        .next ⟨c, ((csrPut h (csrRead h r &&& ~~~(h.reg rs1)) r).setReg rd (csrRead h r)).advance⟩)

/-- CSRRWI in M-mode on a register that can be written: the CSR takes the zero-extended immediate, also when it is 0
(40_csr_instructions.md R169). -/
def Obligations.CsrrwiCompletes : Prop :=
  ∀ (c : Config) (h : Hart c) (rd : Reg) (a : BitVec 12) (z : BitVec 5) (r : Csr),
    h.cur = .m → c.regOk rd = true → csrOfAddr c a = some r → a.extractLsb' 10 2 ≠ 0b11#2 → r ≠ .mtime →
    (r = .mstatus → mstatusModesOk c (z.setWidth c.width) = true ∧ mstatusVmOk c (z.setWidth c.width) = true) →
    exec (.csrrwi rd a z) ⟨c, h⟩ = .next ⟨c, ((csrPut h (z.setWidth c.width) r).setReg rd (csrRead h r)).advance⟩

/-- CSRRSI in M-mode: with `zimm` = 0 a pure read; otherwise the CSR takes its old value with the bits of the zero-extended
immediate set (40_csr_instructions.md R164, R170). -/
def Obligations.CsrrsiCompletes : Prop :=
  ∀ (c : Config) (h : Hart c) (rd : Reg) (a : BitVec 12) (z : BitVec 5) (r : Csr),
    h.cur = .m → c.regOk rd = true → csrOfAddr c a = some r →
    (z = 0 → exec (.csrrsi rd a z) ⟨c, h⟩ = .next ⟨c, (h.setReg rd (csrRead h r)).advance⟩) ∧
    (z ≠ 0 → a.extractLsb' 10 2 ≠ 0b11#2 → r ≠ .mtime →
      (r = .mstatus → mstatusModesOk c (csrRead h r ||| z.setWidth c.width) = true ∧
        mstatusVmOk c (csrRead h r ||| z.setWidth c.width) = true) →
      exec (.csrrsi rd a z) ⟨c, h⟩ =
        .next ⟨c, ((csrPut h (csrRead h r ||| z.setWidth c.width) r).setReg rd (csrRead h r)).advance⟩)

/-- CSRRCI in M-mode: with `zimm` = 0 a pure read; otherwise the CSR takes its old value with the bits of the zero-extended
immediate cleared (40_csr_instructions.md R164, R171). -/
def Obligations.CsrrciCompletes : Prop :=
  ∀ (c : Config) (h : Hart c) (rd : Reg) (a : BitVec 12) (z : BitVec 5) (r : Csr),
    h.cur = .m → c.regOk rd = true → csrOfAddr c a = some r →
    (z = 0 → exec (.csrrci rd a z) ⟨c, h⟩ = .next ⟨c, (h.setReg rd (csrRead h r)).advance⟩) ∧
    (z ≠ 0 → a.extractLsb' 10 2 ≠ 0b11#2 → r ≠ .mtime →
      (r = .mstatus → mstatusModesOk c (csrRead h r &&& ~~~(z.setWidth c.width)) = true ∧
        mstatusVmOk c (csrRead h r &&& ~~~(z.setWidth c.width)) = true) →
      exec (.csrrci rd a z) ⟨c, h⟩ =
        .next ⟨c, ((csrPut h (csrRead h r &&& ~~~(z.setWidth c.width)) r).setReg rd (csrRead h r)).advance⟩)

/-- The access check of the six CSR instructions: an address that names no register, a mode below the address's level, or a
write to the read-only class is an Illegal instruction (40_csr_instructions.md R165). An address of S or H level, on a hart
with that mode, may be a register of which no source says anything (10_state.md R96): an access that the second and third
check let pass is refused (30_encoding.md R138; that the level of the address decides is the model's choice, log entry 37;
base ISAs, log entry 38). -/
def Obligations.CsrAccessCheckRaisesIllegal : Prop :=
  ∀ (c : Config) (h : Hart c) (i : Instr) (a : BitVec 12), csrNumber i = some a →
    let below := h.cur.code < a.extractLsb' 8 2
    let readOnly := writesCsr i = true ∧ a.extractLsb' 10 2 = 0b11#2
    let lowerLevel := (a.extractLsb' 8 2 = 1#2 ∧ c.modes.has .s = true) ∨ (a.extractLsb' 8 2 = 2#2 ∧ c.modes.has .h = true)
    ((csrOfAddr c a = none ∧ ¬lowerLevel) ∨ below ∨ readOnly → exec i ⟨c, h⟩ = inState c (raise h .illegal)) ∧
    (csrOfAddr c a = none → lowerLevel → ¬below → ¬readOnly → i.wellFormed c = true →
      exec i ⟨c, h⟩ = .refused .lowerLevelCsr)

/-- With the RV32E base a register number of 16 or more makes the instruction illegal (30_encoding.md R132). -/
def Obligations.Rv32eUpperRegistersAreIllegal : Prop :=
  ∀ (c : Config) (h : Hart c) (rd rs1 : Reg) (a : BitVec 12) (z : BitVec 5), c.rve = true →
    (16 ≤ rd.val ∨ 16 ≤ rs1.val →
      exec (.csrrw rd a rs1) ⟨c, h⟩ = inState c (raise h .illegal) ∧
      exec (.csrrs rd a rs1) ⟨c, h⟩ = inState c (raise h .illegal) ∧
      exec (.csrrc rd a rs1) ⟨c, h⟩ = inState c (raise h .illegal)) ∧
    (16 ≤ rd.val →
      exec (.csrrwi rd a z) ⟨c, h⟩ = inState c (raise h .illegal) ∧
      exec (.csrrsi rd a z) ⟨c, h⟩ = inState c (raise h .illegal) ∧
      exec (.csrrci rd a z) ⟨c, h⟩ = inState c (raise h .illegal))

/-- The frame of the six CSR instructions: no register but `rd`, no byte of memory, not `mtime`, and each special register
only where the instruction writes its address, or, for `mepc`, `mcause`, `mbadaddr` and `mstatus`, where the Illegal
instruction trap is taken; `mip` also where `mtimecmp` is written (40_csr_instructions.md R160 to R165, 10_state.md R81). -/
def Obligations.CsrInstructionFrame : Prop :=
  ∀ (c : Config) (h t : Hart c) (i : Instr) (a : BitVec 12) (rd : Reg),
    csrNumber i = some a → destination i = some rd → exec i ⟨c, h⟩ = .next ⟨c, t⟩ →
    let wrote := fun r => writesCsr i = true ∧ a = csrAddr c r
    let trapped := t = trapInto h (.exception .illegal) h.pc
    (∀ r, r ≠ rd → t.reg r = h.reg r) ∧ (∀ b, t.mem.read b = h.mem.read b) ∧ t.mtime = h.mtime ∧ t.env = h.env ∧
    t.boundary = h.boundary ∧
    (¬wrote .mtvec → t.mtvec = h.mtvec) ∧ (¬wrote .mtdeleg → t.mtdeleg = h.mtdeleg) ∧ (¬wrote .mie → t.mie = h.mie) ∧
    (¬wrote .mip → ¬wrote .mtimecmp → t.mip = h.mip) ∧ (¬wrote .mtimecmp → t.mtimecmp = h.mtimecmp) ∧
    (¬wrote .mscratch → t.mscratch = h.mscratch) ∧ (¬wrote .mstatus → ¬trapped → t.mstatus = h.mstatus) ∧
    (¬wrote .mepc → ¬trapped → t.mepc = h.mepc) ∧ (¬wrote .mcause → ¬trapped → t.mcause = h.mcause) ∧
    (¬wrote .mbadaddr → ¬trapped → t.mbadaddr = h.mbadaddr) ∧ (¬trapped → t.pc = h.pc + 4) ∧
    (trapped → ∀ r, t.reg r = h.reg r)

/-- A CSR instruction whose `rd` is `x0` changes no general register, and `x0` reads 0 in every state (10_state.md R21). -/
def Obligations.X0StaysZero : Prop :=
  (∀ (c : Config) (h : Hart c), h.reg 0 = 0) ∧
  ∀ (c : Config) (h t : Hart c) (i : Instr), destination i = some 0 → exec i ⟨c, h⟩ = .next ⟨c, t⟩ →
    ∀ r, t.reg r = h.reg r

/-- Reading the three identity registers in M-mode gives the constants of the configuration; every write to them, by any of the
six instructions, is an Illegal instruction in every mode (10_state.md R28, R33, R37; 40_csr_instructions.md R165). -/
def Obligations.IdentityRegisters : Prop :=
  ∀ (c : Config) (h : Hart c), csrAddrOk c = true →
    (∀ rd : Reg, h.cur = .m → c.regOk rd = true → rd ≠ 0 →
      (∃ t : Hart c, exec (.csrrs rd (csrAddr c .mcpuid) 0) ⟨c, h⟩ = .next ⟨c, t⟩ ∧ t.reg rd = c.mcpuid) ∧
      (∃ t : Hart c, exec (.csrrs rd (csrAddr c .mimpid) 0) ⟨c, h⟩ = .next ⟨c, t⟩ ∧ t.reg rd = c.mimpid) ∧
      (∃ t : Hart c, exec (.csrrs rd (csrAddr c .mhartid) 0) ⟨c, h⟩ = .next ⟨c, t⟩ ∧ t.reg rd = c.mhartid)) ∧
    ∀ (i : Instr) (r : Csr), r = .mcpuid ∨ r = .mimpid ∨ r = .mhartid →
      csrNumber i = some (csrAddr c r) → writesCsr i = true → exec i ⟨c, h⟩ = inState c (raise h .illegal)

/-! ### CSR write rules -/

/-- A write of `mstatus` is refused if an existing `PRVk` that is not hardwired gets a mode outside `MODES`, or `VM` a value
that names no supported scheme; otherwise each field reads back as 10_state.md R56 says, at its place in any legal layout. -/
def Obligations.MstatusWriteRule : Prop :=
  ∀ (c : Config) (h : Hart c) (v : Word c.width), layoutOk c = true →
    let l := c.layout
    ((c.modes ≠ .m ∧ ∃ k < c.modes.depth, c.modes.has (Priv.ofCode (v.extractLsb' (l.prvPos k) 2)) = false) →
      ∃ why, csrWrite h v .mstatus = .refused why) ∧
    ((∀ s ∈ c.vmSupported, s.code ≠ v.extractLsb' l.vm 5) → ∃ why, csrWrite h v .mstatus = .refused why) ∧
    ((c.modes = .m ∨ ∀ k < c.modes.depth, c.modes.has (Priv.ofCode (v.extractLsb' (l.prvPos k) 2)) = true) →
      (∃ s ∈ c.vmSupported, s.code = v.extractLsb' l.vm 5) →
      ∃ t : Hart c, csrWrite h v .mstatus = .next t ∧
        let w := csrRead t .mstatus
        (∀ k < c.modes.depth, w.getLsbD (l.iePos k) = v.getLsbD (l.iePos k) ∧
          w.extractLsb' (l.prvPos k) 2 = if c.modes = .m then 0b11#2 else v.extractLsb' (l.prvPos k) 2) ∧
        (∀ k, c.modes.depth ≤ k → k < 4 → w.getLsbD (l.iePos k) = false ∧ w.extractLsb' (l.prvPos k) 2 = 0#2) ∧
        w.extractLsb' l.fs 2 = (if c.hasFpu then v.extractLsb' l.fs 2 else 0#2) ∧
        w.extractLsb' l.xs 2 = (if c.hasXs then v.extractLsb' l.xs 2 else 0#2) ∧
        w.getLsbD l.mprv = v.getLsbD l.mprv ∧ w.extractLsb' l.vm 5 = v.extractLsb' l.vm 5 ∧
        (∀ i, (∀ q ∈ l.mstatusSpans, i < q.1 ∨ q.1 + q.2 ≤ i) → w.getLsbD i = false) ∧
        (c.layout = Layout.default c.width → ∀ i, 22 ≤ i → i < c.width - 1 → w.getLsbD i = false) ∧
        w.getLsbD l.sd = decide (w.extractLsb' l.fs 2 = 3#2 ∨ w.extractLsb' l.xs 2 = 3#2))

/-- `SD` of every `mstatus` word read says whether `FS` or `XS` of that word is Dirty, in any legal layout; with neither unit
it is 0 (10_state.md R54). -/
def Obligations.SdSummarisesFsAndXs : Prop :=
  ∀ (c : Config) (h : Hart c), layoutOk c = true → let w := csrRead h .mstatus
    (w.getLsbD c.layout.sd = true ↔ w.extractLsb' c.layout.fs 2 = 3#2 ∨ w.extractLsb' c.layout.xs 2 = 3#2) ∧
    (c.hasFpu = false → c.hasXs = false → w.getLsbD c.layout.sd = false)

/-- A write of `mtvec`: without writable bits nothing changes; otherwise a writable bit takes the written value, the bits
above the highest writable one below the top copy the sign, the low two bits are 0, and every other bit keeps its value
(10_state.md R57, R60, R61). -/
def Obligations.MtvecWriteRule : Prop :=
  ∀ (c : Config) (h : Hart c) (v : Word c.width), mtvecWOk c = true →
    (c.mtvecW = 0 → csrPut h v .mtvec = h ∧ csrRead h .mtvec = c.mtvecReset) ∧
    (c.mtvecW ≠ 0 → ∃ top, topWritable c.mtvecW (c.width - 1) = some top ∧ top < c.width - 1 ∧
      c.mtvecW.getLsbD top = true ∧ (∀ j, top < j → j < c.width - 1 → c.mtvecW.getLsbD j = false) ∧
      ∀ i < c.width, (csrRead (csrPut h v .mtvec) .mtvec).getLsbD i =
        if i < 2 then false
        else if top < i ∧ i < c.width - 1 then v.getLsbD (c.width - 1)
        else if c.mtvecW.getLsbD i then v.getLsbD i
        else h.mtvec.getLsbD i)

/-- A write of `mtdeleg` keeps the writable bits of any value (10_state.md R63); so writing ones everywhere and reading back
shows the delegatable bits (R65). -/
def Obligations.MtdelegProbing : Prop :=
  (∀ (c : Config) (h : Hart c) (v : Word c.width), csrRead (csrPut h v .mtdeleg) .mtdeleg = v &&& c.mtdelegW) ∧
  ∀ (c : Config) (h : Hart c) (rd rs1 : Reg), csrAddrOk c = true → h.cur = .m → c.regOk rd = true → c.regOk rs1 = true →
    rd ≠ 0 → h.reg rs1 = BitVec.allOnes c.width →
    ∃ t u : Hart c, exec (.csrrw 0 (csrAddr c .mtdeleg) rs1) ⟨c, h⟩ = .next ⟨c, t⟩ ∧
      exec (.csrrs rd (csrAddr c .mtdeleg) 0) ⟨c, t⟩ = .next ⟨c, u⟩ ∧ u.reg rd = c.mtdelegW

/-- A write of `mip` sets the software bits of supported modes and nothing else; a write of `mie` sets the software and
timer enables of supported modes; every other bit of both reads 0; in any legal layout (10_state.md R72). -/
def Obligations.MipAndMieWriteRule : Prop :=
  ∀ (c : Config) (h : Hart c) (v : Word c.width), layoutOk c = true →
    let p := intPos c.layout.mip
    let e := intPos c.layout.mie
    (∀ x, (csrRead (csrPut h v .mip) .mip).getLsbD (p x .software) =
      (c.modes.has x.priv && v.getLsbD (p x .software))) ∧
    (∀ x, (csrRead (csrPut h v .mip) .mip).getLsbD (p x .timer) = (csrRead h .mip).getLsbD (p x .timer)) ∧
    (∀ x k, (csrRead (csrPut h v .mie) .mie).getLsbD (e x k) = (c.modes.has x.priv && v.getLsbD (e x k))) ∧
    (∀ i, (∀ x k, i ≠ p x k) → (csrRead (csrPut h v .mip) .mip).getLsbD i = false) ∧
    (∀ i, (∀ x k, i ≠ e x k) → (csrRead (csrPut h v .mie) .mie).getLsbD i = false)

/-- A write of `mtimecmp` keeps the low 32 bits, which a read zero-extends, and clears MTIP, unless the value equals the low
32 bits of `mtime` now: then MTIP is free (10_state.md R79, R81). -/
def Obligations.MtimecmpWriteRule : Prop :=
  ∀ (c : Config) (h : Hart c) (v : Word c.width),
    let t := csrPut h v .mtimecmp
    csrRead t .mtimecmp = (v.setWidth 32).setWidth c.width ∧
    (h.mtime.setWidth 32 ≠ v.setWidth 32 → t.mip = { h.mip with mtimer := false }) ∧
    (h.mtime.setWidth 32 = v.setWidth 32 → ∃ b, t.mip = { h.mip with mtimer := b })

/-- A read of `mtime` gives the counter's low bits, and every write of it, by any of the six instructions, is refused
(10_state.md R78). -/
def Obligations.MtimeReadsAndRefusesWrites : Prop :=
  ∀ (c : Config) (h : Hart c) (rd rs1 : Reg) (z : BitVec 5), csrAddrOk c = true → h.cur = .m → c.regOk rd = true →
    c.regOk rs1 = true →
    let a := csrAddr c .mtime
    (rd ≠ 0 → ∃ t : Hart c, exec (.csrrs rd a 0) ⟨c, h⟩ = .next ⟨c, t⟩ ∧
      t.reg rd = BitVec.ofNat c.width h.mtime.toNat) ∧
    exec (.csrrw rd a rs1) ⟨c, h⟩ = .refused .mtimeWrite ∧
    (rs1 ≠ 0 → exec (.csrrs rd a rs1) ⟨c, h⟩ = .refused .mtimeWrite ∧
      exec (.csrrc rd a rs1) ⟨c, h⟩ = .refused .mtimeWrite) ∧
    exec (.csrrwi rd a z) ⟨c, h⟩ = .refused .mtimeWrite ∧
    (z ≠ 0 → exec (.csrrsi rd a z) ⟨c, h⟩ = .refused .mtimeWrite ∧
      exec (.csrrci rd a z) ⟨c, h⟩ = .refused .mtimeWrite)

/-- `mscratch` and `mbadaddr` hold what is written, and CSRRW with `rd` = `rs1` swaps the register with `mscratch`
(10_state.md R84, R92; 40_csr_instructions.md R166). -/
def Obligations.ScratchAndBadAddrHoldTheWord : Prop :=
  ∀ (c : Config) (h : Hart c) (rd rs1 : Reg), csrAddrOk c = true → h.cur = .m → c.regOk rd = true →
    c.regOk rs1 = true →
    (∃ t : Hart c, exec (.csrrw rd (csrAddr c .mscratch) rs1) ⟨c, h⟩ = .next ⟨c, t⟩ ∧ csrRead t .mscratch = h.reg rs1 ∧
      (rd ≠ 0 → t.reg rd = h.mscratch)) ∧
    (∃ t : Hart c, exec (.csrrw rd (csrAddr c .mbadaddr) rs1) ⟨c, h⟩ = .next ⟨c, t⟩ ∧ csrRead t .mbadaddr = h.reg rs1 ∧
      (rd ≠ 0 → t.reg rd = h.mbadaddr)) ∧
    (rd ≠ 0 → ∃ t : Hart c, exec (.csrrw rd (csrAddr c .mscratch) rd) ⟨c, h⟩ = .next ⟨c, t⟩ ∧ t.reg rd = h.mscratch ∧
      t.mscratch = h.reg rd)

/-- A write of `mepc` drops bit 0, and bit 1 with 32-bit alignment, and keeps every other bit; an aligned address results
(10_state.md R86, R87). -/
def Obligations.MepcWriteRule : Prop :=
  ∀ (c : Config) (h : Hart c) (v : Word c.width),
    (∀ i < c.width, (csrRead (csrPut h v .mepc) .mepc).getLsbD i =
      if i = 0 ∨ (i = 1 ∧ c.ialign = .a32) then false else v.getLsbD i) ∧
    c.pcAligned (csrRead (csrPut h v .mepc) .mepc) = true

/-- The bits of `mcause` that are no field read 0 in every state; a write keeps the two fields of any value, in any legal
layout; by default the fields are the top bit and bits 3 to 0 (10_state.md R90). -/
def Obligations.McauseWriteRule : Prop :=
  ∀ (c : Config) (h : Hart c) (v : Word c.width),
    (∀ i, i ≠ c.layout.interrupt → (i < c.layout.code ∨ c.layout.code + 4 ≤ i) → (csrRead h .mcause).getLsbD i = false) ∧
    (layoutOk c = true → let w := csrRead (csrPut h v .mcause) .mcause
      w.getLsbD c.layout.interrupt = v.getLsbD c.layout.interrupt ∧
      w.extractLsb' c.layout.code 4 = v.extractLsb' c.layout.code 4) ∧
    (c.layout = Layout.default c.width → ∀ i, i < c.width →
      (4 ≤ i → i < c.width - 1 → (csrRead h .mcause).getLsbD i = false) ∧
      (csrRead (csrPut h v .mcause) .mcause).getLsbD i = if i = c.width - 1 ∨ i < 4 then v.getLsbD i else false)

/-! ### Timer -/

/-- A tick advances `mtime` by one modulo its width, posts MTIP if the low 32 bits then match, never clears it, and changes
nothing else; a boundary with one tick does just that (10_state.md R78, R80). -/
def Obligations.TickAdvancesAndPosts : Prop :=
  (∀ (c : Config) (mtimecmp : BitVec 32) (t : Timer c), let u := tick mtimecmp t
    u.mtime.toNat = (t.mtime.toNat + 1) % 2 ^ c.mtimeBits ∧
    (u.mip.mtimer = true ↔ t.mip.mtimer = true ∨ u.mtime.setWidth 32 = mtimecmp) ∧
    u.mip = { t.mip with mtimer := u.mip.mtimer }) ∧
  ∀ (c : Config) (h : Hart c), dueEvents h = [.tick] → let t := afterEvents h
    t.mtime.toNat = (h.mtime.toNat + 1) % 2 ^ c.mtimeBits ∧
    (t.mip.mtimer = true ↔ h.mip.mtimer = true ∨ t.mtime.setWidth 32 = h.mtimecmp) ∧
    t.mip = { h.mip with mtimer := t.mip.mtimer } ∧
    t = { h with mtime := t.mtime, mip := t.mip, env := h.env.tail, boundary := h.boundary + 1 }

/-- MTIP, once posted, stays posted across every step but one that executes a CSR instruction writing `mtimecmp`, with any
base ISA (10_state.md R81). -/
def Obligations.TimerInterruptStaysPosted : Prop :=
  ∀ (base : BaseISA) (c : Config) (h t : Hart c), stepWith base ⟨c, h⟩ = .next ⟨c, t⟩ → h.mip.mtimer = true →
    t.mip.mtimer = true ∨ ∃ i, StepExecutes h i ∧ csrNumber i = some (csrAddr c .mtimecmp) ∧ writesCsr i = true

/-! ### Memory and the base ISA -/

/-- The outcomes of a data access of at least one byte under Mbare, in the order of 20_memory.md R104: misaligned where the
policy is to trap, access fault where `PMEM` does not allow it, otherwise done, byte j of the value being the byte of memory
at the address + j (R108); `MPRV` makes no difference to a load. -/
def Obligations.DataAccessOutcomes : Prop :=
  ∀ (c : Config) (h : Hart c) (a : Word c.width) (len : Nat) (v : BitVec (8 * len)), 0 < len → h.mstatus.vm = .mbare →
    (c.misaligned = .trap → a.toNat % len ≠ 0 →
      memRead h a len = .raise (.loadMisaligned a) ∧ memWrite h a len v = .raise (.storeMisaligned a)) ∧
    (c.misaligned = .perform ∨ a.toNat % len = 0 →
      (allows c .load a len = false → memRead h a len = .raise (.loadAccess a)) ∧
      (allows c .store a len = false → memWrite h a len v = .raise (.storeAccess a)) ∧
      (allows c .load a len = true → ∃ r, memRead h a len = .ok r ∧
        ∀ j < len, r.extractLsb' (8 * j) 8 = h.mem.read (byteAddr a j)) ∧
      (allows c .store a len = true → ∃ t, memWrite h a len v = .ok t)) ∧
    ∀ b : Bool, memRead { h with mstatus := { h.mstatus with mprv := b } } a len = memRead h a len

/-- A store puts byte j of the value at the address + j, the value stored is the value loaded, every byte outside it reads as
before, and memory stays canonical, for an access no longer than the address space (20_memory.md R104, R108). -/
def Obligations.StoreThenLoad : Prop :=
  ∀ (c : Config) (h t : Hart c) (a : Word c.width) (len : Nat) (v : BitVec (8 * len)),
    h.mem.wf = true → len ≤ 2 ^ c.width → memWrite h a len v = .ok t →
    t.mem.wf = true ∧ (∀ j < len, t.mem.read (byteAddr a j) = v.extractLsb' (8 * j) 8) ∧
    (allows c .load a len = true → memRead t a len = .ok v) ∧
    (∀ b, (∀ j < len, b ≠ byteAddr a j) → t.mem.read b = h.mem.read b) ∧ t = { h with mem := t.mem }

/-- An instruction left to a base ISA either traps, with every effect of the instruction undone, or changes no more than the general
registers, `pc` and memory: no base instruction reaches a CSR of this spec (00_scope.md R12, 60_exceptions.md R243). -/
def Obligations.BaseInstructionsKeepTheCsrs : Prop :=
  ∀ (c : Config) (h t : Hart c),
    let kept := t = { h with x := t.x, pc := t.pc, mem := t.mem } ∧ c.pcAligned t.pc = true
    (∀ act : BaseAction c, runBase h h act = .next t → (∃ e, t = trapInto h (.exception e) h.pc) ∨ kept) ∧
    ∀ (base : BaseISA) (halves : List Half), runClaimed base h halves (inState c (raise h .illegal)) = .next ⟨c, t⟩ →
      (∃ e, t = trapInto h (.exception e) h.pc) ∨ kept

/-! ### The whole machine -/

/-- Every hart of a legal configuration is in a safe state at reset. -/
def Obligations.InvariantHoldsAtReset : Prop := ∀ c : Config, configLegal c = true → Inv (State.resetOf c)

/-- Every step keeps the invariant: memory canonical, `pc`, `mepc` and `mtvec` aligned, every stack entry a supported mode,
`VM` a supported scheme (10_state.md R47, R56, R60, R86; 20_memory.md R109). It holds for `step` and with any base ISA. -/
def Obligations.InvariantKeptByEveryStep : Prop :=
  (∀ s t : State, Inv s → step s = .next t → Inv t) ∧
  ∀ (base : BaseISA) (s t : State), Inv s → stepWith base s = .next t → Inv t

/-- The privilege mode changes only by trap entry, to M, from the state that the boundary's events leave, by ERET, to the mode
of `PRV1`, or by a CSR write of `mstatus` (41_system_instructions.md R197). -/
def Obligations.PrivilegeModeChangesOnlyBy : Prop :=
  ∀ (base : BaseISA) (c : Config) (h t : Hart c), stepWith base ⟨c, h⟩ = .next ⟨c, t⟩ → t.cur ≠ h.cur →
    (t.cur = .m ∧ ∃ (n : Nat) (cause : Cause c.width), t = trapInto { afterEvents h with draws := n } cause h.pc) ∨
    (StepExecutes h .eret ∧ t.cur = (stackEntry c h.mstatus 1).prv) ∨
    (∃ i, StepExecutes h i ∧ csrNumber i = some (csrAddr c .mstatus) ∧ writesCsr i = true)

/-- No step from a mode below M, with any base ISA and legal addresses, writes a machine register but by trap entry:
`mtvec`, `mtdeleg`, `mie`, `mtimecmp` and `mscratch` stay; `mip` and `mtime` are as the events of the boundary left them, whose
list or freedom is the model's choice (log entry 8); `mstatus`, `mepc`, `mcause` and `mbadaddr` stay unless the next state is a
trap entry from the state those events leave (60_exceptions.md R255). -/
def Obligations.BelowMachineModeNoMachineCsrIsWritten : Prop :=
  ∀ (base : BaseISA) (c : Config) (h t : Hart c), csrAddrOk c = true → h.cur ≠ .m →
    stepWith base ⟨c, h⟩ = .next ⟨c, t⟩ →
    t.mtvec = h.mtvec ∧ t.mtdeleg = h.mtdeleg ∧ t.mie = h.mie ∧ t.mtimecmp = h.mtimecmp ∧ t.mscratch = h.mscratch ∧
    t.mip = (afterEvents h).mip ∧ t.mtime = (afterEvents h).mtime ∧
    ((t.mstatus = h.mstatus ∧ t.mepc = h.mepc ∧ t.mcause = h.mcause ∧ t.mbadaddr = h.mbadaddr) ∨
      ∃ (n : Nat) (cause : Cause c.width), t = trapInto { afterEvents h with draws := n } cause h.pc)

/-- No step changes the configuration: the identity registers are constants (10_state.md R28, R37). -/
def Obligations.ConfigurationNeverChanges : Prop :=
  ∀ (base : BaseISA) (s t : State), stepWith base s = .next t →
    t.cfg = s.cfg ∧ (csrRead t.hart .mcpuid).toNat = (csrRead s.hart .mcpuid).toNat ∧
    (csrRead t.hart .mhartid).toNat = (csrRead s.hart .mhartid).toNat

/-- What the spec states of reset: M-mode, Mbare, `mtvec` and `pc` at one standard pair, hardwired fields at their values
(10_state.md R97, R98). -/
def Obligations.ResetValuesOfTheSpec : Prop :=
  ∀ c : Config, let h := Hart.reset c
    h.cur = .m ∧ h.ie = false ∧ h.mstatus.vm = .mbare ∧ h.mstatus.mprv = false ∧ h.reg 0 = 0 ∧
    (c.vecHigh = false → csrRead h .mtvec = 0x100 ∧ h.pc = 0x200) ∧
    (c.vecHigh = true → csrRead h .mtvec = -0x200 ∧ h.pc = -0x100) ∧
    (csrRead h .mcpuid = c.mcpuid ∧ csrRead h .mimpid = c.mimpid ∧ csrRead h .mhartid = c.mhartid) ∧
    (c.modes = .m → (stackEntry c h.mstatus 1).prv = .m) ∧
    (c.hasFpu = false → fsOf c h.mstatus = .off) ∧ (c.hasXs = false → xsOf c h.mstatus = .off) ∧
    (c.mtdelegW = 0 → csrRead h .mtdeleg = 0) ∧ h.pc = csrRead h .mtvec + 0x100

/-- After reset no maskable interrupt can be taken, whatever `mip` and `mie` hold (10_state.md R99). -/
def Obligations.NoMaskableInterruptAtReset : Prop :=
  ∀ (c : Config) (pending enabled : IntBits),
    chooseInterrupt { Hart.reset c with mip := pending, mie := enabled } = none

/-- Where the platform lets the reset vector and the reachable vector entries be executed, the first step of a hart on which no
NMI is signalled executes the instruction whose bytes lie at the reset vector, on the state that the first boundary's events
leave (70_reset_and_hazards.md R292); and the entry of every mode of the hart, and of the NMI, can be executed then (R296). -/
def Obligations.FirstInstructionIsAtTheResetVector : Prop :=
  (∀ (c : Config) (m : Memory) (events : List (List EnvEvent)) (i : Instr) (rest : List Byte), platformBoots c = true →
    decodeBytes (m.readBytes c.resetVector 4) = .ok (i, rest) →
    let h : Hart c := { Hart.reset c with mem := m, env := events }
    nmiDue h = false → step ⟨c, h⟩ = exec i ⟨c, afterEvents h⟩) ∧
  ∀ c : Config, platformBoots c = true →
    allows c .execute (Hart.reset c).pc 4 = true ∧
    (∀ p, c.modes.has p = true →
      allows c .execute ((Hart.reset c).mtvecValue + BitVec.ofNat c.width (p.code.toNat * 0x40)) 4 = true) ∧
    (c.nmiPresent = true → allows c .execute ((Hart.reset c).mtvecValue + BitVec.ofNat c.width 0xFC) 4 = true)
end

