-- ==== Sys2Proof/Laws/Decode.lean ====
section
/-! SUPPORT. The fields of a packed word, and what the table's masks test. -/

namespace Sys2Proof

/-- Each bit of a packed word, by the field it lies in (30_encoding.md R131). -/
theorem pack_bit (f12 : BitVec 12) (s1 : BitVec 5) (f3 : BitVec 3) (d : BitVec 5) (i : Nat) :
    (packSystem f12 s1 f3 d).getLsbD i =
      if i < 7 then (0x73#7).getLsbD i else if i - 7 < 5 then d.getLsbD (i - 7)
      else if i - 7 - 5 < 3 then f3.getLsbD (i - 7 - 5) else if i - 7 - 5 - 3 < 5 then s1.getLsbD (i - 7 - 5 - 3)
      else f12.getLsbD (i - 7 - 5 - 3 - 5) := by
  change (f12 ++ s1 ++ f3 ++ d ++ 0x73#7 : BitVec (12 + 5 + 3 + 5 + 7)).getLsbD i = _
  simp only [BitVec.getLsbD_append]

@[simp] theorem fieldOpcode_pack (f12 : BitVec 12) (s1 : BitVec 5) (f3 : BitVec 3) (d : BitVec 5) :
    fieldOpcode (packSystem f12 s1 f3 d) = 0x73#7 := by
  apply BitVec.eq_of_getLsbD_eq
  intro i hi
  simp only [fieldOpcode, BitVec.getLsbD_extractLsb', pack_bit]
  simp [hi]

@[simp] theorem rdBits_pack (f12 : BitVec 12) (s1 : BitVec 5) (f3 : BitVec 3) (d : BitVec 5) :
    (packSystem f12 s1 f3 d).extractLsb' 7 5 = d := by
  apply BitVec.eq_of_getLsbD_eq
  intro i hi
  simp only [BitVec.getLsbD_extractLsb', pack_bit]
  interval_cases i <;> simp

@[simp] theorem fieldFunct3_pack (f12 : BitVec 12) (s1 : BitVec 5) (f3 : BitVec 3) (d : BitVec 5) :
    fieldFunct3 (packSystem f12 s1 f3 d) = f3 := by
  apply BitVec.eq_of_getLsbD_eq
  intro i hi
  simp only [fieldFunct3, BitVec.getLsbD_extractLsb', pack_bit]
  interval_cases i <;> simp

@[simp] theorem fieldZimm_pack (f12 : BitVec 12) (s1 : BitVec 5) (f3 : BitVec 3) (d : BitVec 5) :
    fieldZimm (packSystem f12 s1 f3 d) = s1 := by
  apply BitVec.eq_of_getLsbD_eq
  intro i hi
  simp only [fieldZimm, BitVec.getLsbD_extractLsb', pack_bit]
  interval_cases i <;> simp

@[simp] theorem fieldCsr_pack (f12 : BitVec 12) (s1 : BitVec 5) (f3 : BitVec 3) (d : BitVec 5) :
    fieldCsr (packSystem f12 s1 f3 d) = f12 := by
  apply BitVec.eq_of_getLsbD_eq
  intro i hi
  simp only [fieldCsr, BitVec.getLsbD_extractLsb', pack_bit]
  interval_cases i <;> simp

@[simp] theorem fieldRd_pack (f12 : BitVec 12) (s1 : BitVec 5) (f3 : BitVec 3) (rd : Reg) :
    fieldRd (packSystem f12 s1 f3 (regField rd)) = rd := by
  unfold fieldRd; rw [rdBits_pack]; rfl

@[simp] theorem fieldRs1_pack (f12 : BitVec 12) (rs1 : Reg) (f3 : BitVec 3) (d : BitVec 5) :
    fieldRs1 (packSystem f12 (regField rs1) f3 d) = rs1 := by
  have : fieldRs1 (packSystem f12 (regField rs1) f3 d) = (fieldZimm (packSystem f12 (regField rs1) f3 d)).toFin := rfl
  rw [this, fieldZimm_pack]; rfl

/-- The low bits of a SYSTEM word. -/
theorem opcode_bit {w : BitVec 32} (op : fieldOpcode w = 0x73#7) {j : Nat} (low : j < 7) :
    w.getLsbD j = (0x73#7).getLsbD j := by
  rw [← op]
  simp [fieldOpcode, low]

/-- A word is its five fields put together (30_encoding.md R131). -/
theorem pack_fields (w : BitVec 32) (op : fieldOpcode w = 0x73#7) :
    packSystem (fieldCsr w) (fieldZimm w) (fieldFunct3 w) (w.extractLsb' 7 5) = w := by
  apply BitVec.eq_of_getLsbD_eq
  intro i hi
  rw [pack_bit]
  by_cases low : i < 7
  · simp only [low, if_true, opcode_bit op low]
  · interval_cases i <;> first | omega | simp [fieldCsr, fieldZimm, fieldFunct3]

/-- What the mask of the CSR rows tests: opcode and funct3 (30_encoding.md R139). -/
theorem csrMask_eq (w : BitVec 32) (f3 : BitVec 3) :
    (w &&& 0x0000707F#32 == (f3.setWidth 32 <<< 12 ||| 0x73#32)) = (fieldOpcode w == 0x73#7 && fieldFunct3 w == f3) := by
  rw [Bool.eq_iff_iff, Bool.and_eq_true, beq_iff_eq, beq_iff_eq, beq_iff_eq]
  constructor
  · intro e
    have bit : ∀ i, (w &&& 0x0000707F#32).getLsbD i = (f3.setWidth 32 <<< 12 ||| 0x73#32).getLsbD i := fun i => by rw [e]
    constructor
    · apply BitVec.eq_of_getLsbD_eq
      intro i hi
      have b := bit i
      interval_cases i <;> simpa [fieldOpcode] using b
    · apply BitVec.eq_of_getLsbD_eq
      intro i hi
      have b := bit (12 + i)
      interval_cases i <;> simpa [fieldFunct3] using b
  · rintro ⟨op, f⟩
    subst f
    apply BitVec.eq_of_getLsbD_eq
    intro i hi
    by_cases low : i < 7
    · rw [BitVec.getLsbD_and, opcode_bit op low]
      interval_cases i <;> simp
    · interval_cases i <;> first | omega | simp [fieldFunct3]

/-- The mask of the privileged rows keeps the whole word. -/
theorem wholeMask_eq (w p : BitVec 32) : (w &&& 0xFFFFFFFF#32 == p) = (w == p) := by
  have : w &&& 0xFFFFFFFF#32 = w := by
    have : (0xFFFFFFFF#32) = BitVec.allOnes 32 := by decide
    rw [this, BitVec.and_allOnes]
  rw [this]

/-- Decoding by a list of rows; `decodeWord` is this on the whole table. -/
def decodeRows (rows : List Row) (w : BitVec 32) : Except DecodeError Instr :=
  match rows.find? (fun r => w &&& r.mask == r.pattern) with
  | some r => .ok (r.build w)
  | none => .error (decodeReason w)

theorem decodeRows_cons (r : Row) (rows : List Row) (w : BitVec 32) :
    decodeRows (r :: rows) w = if w &&& r.mask = r.pattern then .ok (r.build w) else decodeRows rows w := by
  unfold decodeRows
  by_cases h : w &&& r.mask = r.pattern
  · simp [h]
  · rw [List.find?_cons_of_neg (by simpa using h)]
    simp [h]

/-- The table as a chain of tests, in its order. -/
theorem decodeWord_eq (w : BitVec 32) : decodeWord w =
    if w &&& 0x0000707F#32 = 0x00001073#32 then .ok (.csrrw (fieldRd w) (fieldCsr w) (fieldRs1 w))
    else if w &&& 0x0000707F#32 = 0x00002073#32 then .ok (.csrrs (fieldRd w) (fieldCsr w) (fieldRs1 w))
    else if w &&& 0x0000707F#32 = 0x00003073#32 then .ok (.csrrc (fieldRd w) (fieldCsr w) (fieldRs1 w))
    else if w &&& 0x0000707F#32 = 0x00005073#32 then .ok (.csrrwi (fieldRd w) (fieldCsr w) (fieldZimm w))
    else if w &&& 0x0000707F#32 = 0x00006073#32 then .ok (.csrrsi (fieldRd w) (fieldCsr w) (fieldZimm w))
    else if w &&& 0x0000707F#32 = 0x00007073#32 then .ok (.csrrci (fieldRd w) (fieldCsr w) (fieldZimm w))
    else if w = 0x00000073#32 then .ok .ecall
    else if w = 0x00100073#32 then .ok .ebreak
    else if w = 0x10000073#32 then .ok .eret
    else if w = 0x30500073#32 then .ok .mrts
    else if w = 0x30600073#32 then .ok .mrth
    else .error (decodeReason w) := by
  have whole : ∀ p : BitVec 32, (w &&& 0xFFFFFFFF#32 = p) = (w = p) := fun p => by simpa using wholeMask_eq w p
  change decodeRows (csrRows ++ privilegedRows) w = _
  simp only [csrRows, privilegedRows, List.cons_append, List.nil_append, decodeRows_cons, whole]
  rfl

end Sys2Proof
end

