-- ==== Sys2Proof/Laws/State.lean ====
section
/-! SUPPORT. One lemma per field for each update of the hart: what the update leaves in that field. -/

namespace Sys2Proof.Machine

variable {c : Config} (h : Hart c)


/-! ### `pc + 4` -/

@[simp] theorem advance_x : h.advance.x = h.x := rfl
@[simp] theorem advance_pc : h.advance.pc = h.pc + 4 := rfl
@[simp] theorem advance_mstatus : h.advance.mstatus = h.mstatus := rfl
@[simp] theorem advance_mtvec : h.advance.mtvec = h.mtvec := rfl
@[simp] theorem advance_mtdeleg : h.advance.mtdeleg = h.mtdeleg := rfl
@[simp] theorem advance_mip : h.advance.mip = h.mip := rfl
@[simp] theorem advance_mie : h.advance.mie = h.mie := rfl
@[simp] theorem advance_mtime : h.advance.mtime = h.mtime := rfl
@[simp] theorem advance_mtimecmp : h.advance.mtimecmp = h.mtimecmp := rfl
@[simp] theorem advance_mscratch : h.advance.mscratch = h.mscratch := rfl
@[simp] theorem advance_mepc : h.advance.mepc = h.mepc := rfl
@[simp] theorem advance_mcause : h.advance.mcause = h.mcause := rfl
@[simp] theorem advance_mbadaddr : h.advance.mbadaddr = h.mbadaddr := rfl
@[simp] theorem advance_mem : h.advance.mem = h.mem := rfl
@[simp] theorem advance_env : h.advance.env = h.env := rfl
@[simp] theorem advance_boundary : h.advance.boundary = h.boundary := rfl
@[simp] theorem advance_draws : h.advance.draws = h.draws := rfl

/-! ### A register written -/

@[simp] theorem setReg_pc (i : Reg) (v : Word c.width) : (h.setReg i v).pc = h.pc := by
  unfold Hart.setReg; split <;> rfl
@[simp] theorem setReg_mstatus (i : Reg) (v : Word c.width) : (h.setReg i v).mstatus = h.mstatus := by
  unfold Hart.setReg; split <;> rfl
@[simp] theorem setReg_mtvec (i : Reg) (v : Word c.width) : (h.setReg i v).mtvec = h.mtvec := by
  unfold Hart.setReg; split <;> rfl
@[simp] theorem setReg_mtdeleg (i : Reg) (v : Word c.width) : (h.setReg i v).mtdeleg = h.mtdeleg := by
  unfold Hart.setReg; split <;> rfl
@[simp] theorem setReg_mip (i : Reg) (v : Word c.width) : (h.setReg i v).mip = h.mip := by
  unfold Hart.setReg; split <;> rfl
@[simp] theorem setReg_mie (i : Reg) (v : Word c.width) : (h.setReg i v).mie = h.mie := by
  unfold Hart.setReg; split <;> rfl
@[simp] theorem setReg_mtime (i : Reg) (v : Word c.width) : (h.setReg i v).mtime = h.mtime := by
  unfold Hart.setReg; split <;> rfl
@[simp] theorem setReg_mtimecmp (i : Reg) (v : Word c.width) : (h.setReg i v).mtimecmp = h.mtimecmp := by
  unfold Hart.setReg; split <;> rfl
@[simp] theorem setReg_mscratch (i : Reg) (v : Word c.width) : (h.setReg i v).mscratch = h.mscratch := by
  unfold Hart.setReg; split <;> rfl
@[simp] theorem setReg_mepc (i : Reg) (v : Word c.width) : (h.setReg i v).mepc = h.mepc := by
  unfold Hart.setReg; split <;> rfl
@[simp] theorem setReg_mcause (i : Reg) (v : Word c.width) : (h.setReg i v).mcause = h.mcause := by
  unfold Hart.setReg; split <;> rfl
@[simp] theorem setReg_mbadaddr (i : Reg) (v : Word c.width) : (h.setReg i v).mbadaddr = h.mbadaddr := by
  unfold Hart.setReg; split <;> rfl
@[simp] theorem setReg_mem (i : Reg) (v : Word c.width) : (h.setReg i v).mem = h.mem := by
  unfold Hart.setReg; split <;> rfl
@[simp] theorem setReg_env (i : Reg) (v : Word c.width) : (h.setReg i v).env = h.env := by
  unfold Hart.setReg; split <;> rfl
@[simp] theorem setReg_boundary (i : Reg) (v : Word c.width) : (h.setReg i v).boundary = h.boundary := by
  unfold Hart.setReg; split <;> rfl
@[simp] theorem setReg_draws (i : Reg) (v : Word c.width) : (h.setReg i v).draws = h.draws := by
  unfold Hart.setReg; split <;> rfl

/-! ### Trap entry -/

@[simp] theorem trapInto_x (cause : Cause c.width) (epc : Word c.width) :
    (trapInto h cause epc).x = h.x := rfl
@[simp] theorem trapInto_pc (cause : Cause c.width) (epc : Word c.width) :
    (trapInto h cause epc).pc = h.mtvecValue + cause.offset c h.cur := rfl
@[simp] theorem trapInto_mstatus (cause : Cause c.width) (epc : Word c.width) :
    (trapInto h cause epc).mstatus = { pushStack c .m h.mstatus with mprv := false } := rfl
@[simp] theorem trapInto_mtvec (cause : Cause c.width) (epc : Word c.width) :
    (trapInto h cause epc).mtvec = h.mtvec := rfl
@[simp] theorem trapInto_mtdeleg (cause : Cause c.width) (epc : Word c.width) :
    (trapInto h cause epc).mtdeleg = h.mtdeleg := rfl
@[simp] theorem trapInto_mip (cause : Cause c.width) (epc : Word c.width) :
    (trapInto h cause epc).mip = h.mip := rfl
@[simp] theorem trapInto_mie (cause : Cause c.width) (epc : Word c.width) :
    (trapInto h cause epc).mie = h.mie := rfl
@[simp] theorem trapInto_mtime (cause : Cause c.width) (epc : Word c.width) :
    (trapInto h cause epc).mtime = h.mtime := rfl
@[simp] theorem trapInto_mtimecmp (cause : Cause c.width) (epc : Word c.width) :
    (trapInto h cause epc).mtimecmp = h.mtimecmp := rfl
@[simp] theorem trapInto_mscratch (cause : Cause c.width) (epc : Word c.width) :
    (trapInto h cause epc).mscratch = h.mscratch := rfl
@[simp] theorem trapInto_mepc (cause : Cause c.width) (epc : Word c.width) :
    (trapInto h cause epc).mepc = c.alignPc epc := rfl
@[simp] theorem trapInto_mcause (cause : Cause c.width) (epc : Word c.width) :
    (trapInto h cause epc).mcause = cause.mcause := rfl
@[simp] theorem trapInto_mem (cause : Cause c.width) (epc : Word c.width) :
    (trapInto h cause epc).mem = h.mem := rfl
@[simp] theorem trapInto_env (cause : Cause c.width) (epc : Word c.width) :
    (trapInto h cause epc).env = h.env := rfl
@[simp] theorem trapInto_boundary (cause : Cause c.width) (epc : Word c.width) :
    (trapInto h cause epc).boundary = h.boundary := rfl

/-! ### Return from a trap -/

@[simp] theorem trapReturn_x : (trapReturn h).x = h.x := rfl
@[simp] theorem trapReturn_pc : (trapReturn h).pc = h.mepc := rfl
@[simp] theorem trapReturn_mstatus : (trapReturn h).mstatus = popStack c h.mstatus := rfl
@[simp] theorem trapReturn_mtvec : (trapReturn h).mtvec = h.mtvec := rfl
@[simp] theorem trapReturn_mtdeleg : (trapReturn h).mtdeleg = h.mtdeleg := rfl
@[simp] theorem trapReturn_mip : (trapReturn h).mip = h.mip := rfl
@[simp] theorem trapReturn_mie : (trapReturn h).mie = h.mie := rfl
@[simp] theorem trapReturn_mtime : (trapReturn h).mtime = h.mtime := rfl
@[simp] theorem trapReturn_mtimecmp : (trapReturn h).mtimecmp = h.mtimecmp := rfl
@[simp] theorem trapReturn_mscratch : (trapReturn h).mscratch = h.mscratch := rfl
@[simp] theorem trapReturn_mepc : (trapReturn h).mepc = h.mepc := rfl
@[simp] theorem trapReturn_mcause : (trapReturn h).mcause = h.mcause := rfl
@[simp] theorem trapReturn_mbadaddr : (trapReturn h).mbadaddr = h.mbadaddr := rfl
@[simp] theorem trapReturn_mem : (trapReturn h).mem = h.mem := rfl
@[simp] theorem trapReturn_env : (trapReturn h).env = h.env := rfl
@[simp] theorem trapReturn_boundary : (trapReturn h).boundary = h.boundary := rfl
@[simp] theorem trapReturn_draws : (trapReturn h).draws = h.draws := rfl

/-! ### The events of a boundary -/

@[simp] theorem afterEvents_x : (afterEvents h).x = h.x := rfl
@[simp] theorem afterEvents_pc : (afterEvents h).pc = h.pc := rfl
@[simp] theorem afterEvents_mstatus : (afterEvents h).mstatus = h.mstatus := rfl
@[simp] theorem afterEvents_mtvec : (afterEvents h).mtvec = h.mtvec := rfl
@[simp] theorem afterEvents_mtdeleg : (afterEvents h).mtdeleg = h.mtdeleg := rfl
@[simp] theorem afterEvents_mie : (afterEvents h).mie = h.mie := rfl
@[simp] theorem afterEvents_mtimecmp : (afterEvents h).mtimecmp = h.mtimecmp := rfl
@[simp] theorem afterEvents_mscratch : (afterEvents h).mscratch = h.mscratch := rfl
@[simp] theorem afterEvents_mepc : (afterEvents h).mepc = h.mepc := rfl
@[simp] theorem afterEvents_mcause : (afterEvents h).mcause = h.mcause := rfl
@[simp] theorem afterEvents_mbadaddr : (afterEvents h).mbadaddr = h.mbadaddr := rfl
@[simp] theorem afterEvents_mem : (afterEvents h).mem = h.mem := rfl
@[simp] theorem afterEvents_draws : (afterEvents h).draws = h.draws := rfl
@[simp] theorem afterEvents_env : (afterEvents h).env = h.env.tail := rfl
@[simp] theorem afterEvents_boundary : (afterEvents h).boundary = h.boundary + 1 := rfl
@[simp] theorem tick_mtime (b : BitVec 32) (t : Timer c) : (tick b t).mtime = t.mtime + 1 := rfl
@[simp] theorem tick_mip (b : BitVec 32) (t : Timer c) : (tick b t).mip =
    { t.mip with mtimer := t.mip.mtimer || (t.mtime + 1).setWidth 32 == b } := rfl

/-! ### A CSR write: each field only by the registers that own it -/

theorem mtimecmpPut_eq (v : Word c.width) : ∃ (b : Bool) (k : Nat), mtimecmpPut h v =
    { h with mtimecmp := v.setWidth 32, mip := { h.mip with mtimer := b }, draws := k } := by
  unfold mtimecmpPut; split
  · exact ⟨_, _, rfl⟩
  · exact ⟨false, h.draws, rfl⟩

@[simp] theorem csrPut_x (v : Word c.width) (r : Csr) : (csrPut h v r).x = h.x := by
  cases r <;> first | rfl | contradiction | (obtain ⟨b, k, e⟩ := mtimecmpPut_eq h v; simp only [csrPut, e])
@[simp] theorem csrPut_pc (v : Word c.width) (r : Csr) : (csrPut h v r).pc = h.pc := by
  cases r <;> first | rfl | contradiction | (obtain ⟨b, k, e⟩ := mtimecmpPut_eq h v; simp only [csrPut, e])
@[simp] theorem csrPut_mstatus (v : Word c.width) (r : Csr) (_0 : r ≠ .mstatus) : (csrPut h v r).mstatus = h.mstatus := by
  cases r <;> first | rfl | contradiction | (obtain ⟨b, k, e⟩ := mtimecmpPut_eq h v; simp only [csrPut, e])
@[simp] theorem csrPut_mtvec (v : Word c.width) (r : Csr) (_0 : r ≠ .mtvec) : (csrPut h v r).mtvec = h.mtvec := by
  cases r <;> first | rfl | contradiction | (obtain ⟨b, k, e⟩ := mtimecmpPut_eq h v; simp only [csrPut, e])
@[simp] theorem csrPut_mtdeleg (v : Word c.width) (r : Csr) (_0 : r ≠ .mtdeleg) : (csrPut h v r).mtdeleg = h.mtdeleg := by
  cases r <;> first | rfl | contradiction | (obtain ⟨b, k, e⟩ := mtimecmpPut_eq h v; simp only [csrPut, e])
@[simp] theorem csrPut_mip (v : Word c.width) (r : Csr) (_0 : r ≠ .mip) (_1 : r ≠ .mtimecmp) : (csrPut h v r).mip = h.mip := by
  cases r <;> first | rfl | contradiction
@[simp] theorem csrPut_mie (v : Word c.width) (r : Csr) (_0 : r ≠ .mie) : (csrPut h v r).mie = h.mie := by
  cases r <;> first | rfl | contradiction | (obtain ⟨b, k, e⟩ := mtimecmpPut_eq h v; simp only [csrPut, e])
@[simp] theorem csrPut_mtime (v : Word c.width) (r : Csr) : (csrPut h v r).mtime = h.mtime := by
  cases r <;> first | rfl | contradiction | (obtain ⟨b, k, e⟩ := mtimecmpPut_eq h v; simp only [csrPut, e])
@[simp] theorem csrPut_mtimecmp (v : Word c.width) (r : Csr) (_0 : r ≠ .mtimecmp) : (csrPut h v r).mtimecmp = h.mtimecmp := by
  cases r <;> first | rfl | contradiction
@[simp] theorem csrPut_mscratch (v : Word c.width) (r : Csr) (_0 : r ≠ .mscratch) : (csrPut h v r).mscratch = h.mscratch := by
  cases r <;> first | rfl | contradiction | (obtain ⟨b, k, e⟩ := mtimecmpPut_eq h v; simp only [csrPut, e])
@[simp] theorem csrPut_mepc (v : Word c.width) (r : Csr) (_0 : r ≠ .mepc) : (csrPut h v r).mepc = h.mepc := by
  cases r <;> first | rfl | contradiction | (obtain ⟨b, k, e⟩ := mtimecmpPut_eq h v; simp only [csrPut, e])
@[simp] theorem csrPut_mcause (v : Word c.width) (r : Csr) (_0 : r ≠ .mcause) : (csrPut h v r).mcause = h.mcause := by
  cases r <;> first | rfl | contradiction | (obtain ⟨b, k, e⟩ := mtimecmpPut_eq h v; simp only [csrPut, e])
@[simp] theorem csrPut_mbadaddr (v : Word c.width) (r : Csr) (_0 : r ≠ .mbadaddr) : (csrPut h v r).mbadaddr = h.mbadaddr := by
  cases r <;> first | rfl | contradiction | (obtain ⟨b, k, e⟩ := mtimecmpPut_eq h v; simp only [csrPut, e])
@[simp] theorem csrPut_mem (v : Word c.width) (r : Csr) : (csrPut h v r).mem = h.mem := by
  cases r <;> first | rfl | contradiction | (obtain ⟨b, k, e⟩ := mtimecmpPut_eq h v; simp only [csrPut, e])
@[simp] theorem csrPut_env (v : Word c.width) (r : Csr) : (csrPut h v r).env = h.env := by
  cases r <;> first | rfl | contradiction | (obtain ⟨b, k, e⟩ := mtimecmpPut_eq h v; simp only [csrPut, e])
@[simp] theorem csrPut_boundary (v : Word c.width) (r : Csr) : (csrPut h v r).boundary = h.boundary := by
  cases r <;> first | rfl | contradiction | (obtain ⟨b, k, e⟩ := mtimecmpPut_eq h v; simp only [csrPut, e])
@[simp] theorem csrPut_draws (v : Word c.width) (r : Csr) (_0 : r ≠ .mtimecmp) : (csrPut h v r).draws = h.draws := by
  cases r <;> first | rfl | contradiction

end Sys2Proof.Machine
end

