-- ==== Sys2Proof/Laws/Memory.lean ====
section
/-! SUPPORT. Memory: a read after a write, and that every operation keeps the canonical form. -/

namespace Sys2Proof.Machine

@[simp] theorem Memory.read_nil (a : Nat) : Memory.read [] a = unlistedByte := rfl

/-- In a canonical memory every address at or below the bound is unlisted. -/
theorem Memory.read_below {m : Memory} {lo a : Nat} (w : Memory.wfFrom (some lo) m = true) (le : a ≤ lo) :
    m.read a = unlistedByte := by
  induction m generalizing lo with
  | nil => rfl
  | cons e rest ih =>
    obtain ⟨k, b⟩ := e
    simp only [Memory.wfFrom, Bool.and_eq_true, decide_eq_true_eq] at w
    obtain ⟨⟨lt, -⟩, tailWf⟩ := w
    have ne : k ≠ a := by omega
    simp only [Memory.read, ne, if_false]
    exact ih tailWf (by omega)

/-- Lowering the bound keeps the canonical form. -/
theorem Memory.wfFrom_lower {m : Memory} {lo hi : Nat} (w : Memory.wfFrom (some hi) m = true) (le : lo ≤ hi) :
    Memory.wfFrom (some lo) m = true := by
  cases m with
  | nil => rfl
  | cons e rest =>
    obtain ⟨k, b⟩ := e
    simp only [Memory.wfFrom, Bool.and_eq_true, decide_eq_true_eq] at w ⊢
    exact ⟨⟨by omega, w.1.2⟩, w.2⟩

theorem Memory.wf_of_wfFrom {m : Memory} {lo : Nat} (w : Memory.wfFrom (some lo) m = true) : m.wf = true := by
  cases m with
  | nil => rfl
  | cons e rest =>
    obtain ⟨k, b⟩ := e
    simp only [Memory.wf, Memory.wfFrom, Bool.and_eq_true, Bool.true_and] at w ⊢
    exact ⟨w.1.2, w.2⟩

/-- A write above the bound keeps the canonical form above it. -/
theorem Memory.write_wfFrom {m : Memory} {lo a : Nat} (v : Byte) (w : Memory.wfFrom (some lo) m = true) (lt : lo < a) :
    Memory.wfFrom (some lo) (m.write a v) = true := by
  induction m generalizing lo with
  | nil =>
    unfold Memory.write
    split <;> simp_all [Memory.wfFrom]
  | cons e rest ih =>
    obtain ⟨k, b⟩ := e
    simp only [Memory.wfFrom, Bool.and_eq_true, decide_eq_true_eq] at w
    obtain ⟨⟨low, used⟩, tailWf⟩ := w
    simp only [Memory.write]
    split
    · split
      · simp [Memory.wfFrom, low, used, tailWf]
      · rename_i below ne
        simp [Memory.wfFrom, lt, below, used, tailWf, ne]
    · split
      · split
        · exact Memory.wfFrom_lower tailWf (by omega)
        · rename_i eq ne
          subst eq
          simp [Memory.wfFrom, lt, tailWf, ne]
      · have above : k < a := by omega
        simp [Memory.wfFrom, low, used, ih tailWf above]

/-- A write keeps the canonical form. -/
theorem Memory.write_wf {m : Memory} (a : Nat) (v : Byte) (w : m.wf = true) : (m.write a v).wf = true := by
  cases m with
  | nil =>
    unfold Memory.write
    split <;> simp_all [Memory.wf, Memory.wfFrom]
  | cons e rest =>
    obtain ⟨k, b⟩ := e
    simp only [Memory.wf, Memory.wfFrom, Bool.and_eq_true, Bool.true_and] at w
    obtain ⟨used, tailWf⟩ := w
    simp only [Memory.write]
    split
    · split
      · simp [Memory.wf, Memory.wfFrom, used, tailWf]
      · rename_i below ne
        simp [Memory.wf, Memory.wfFrom, below, used, tailWf, ne]
    · split
      · split
        · exact Memory.wf_of_wfFrom tailWf
        · rename_i eq ne
          subst eq
          simp [Memory.wf, Memory.wfFrom, tailWf, ne]
      · have above : k < a := by omega
        simp [Memory.wf, Memory.wfFrom, used, Memory.write_wfFrom v tailWf above]

/-- A write leaves every other address alone. -/
theorem Memory.read_write_other {m : Memory} {a b : Nat} (v : Byte) (w : m.wf = true) (ne : b ≠ a) :
    (m.write a v).read b = m.read b := by
  induction m with
  | nil =>
    unfold Memory.write
    split
    · rfl
    · simp [Memory.read, ne.symm]
  | cons e rest ih =>
    obtain ⟨k, x⟩ := e
    have tailWf : Memory.wfFrom (some k) rest = true := by
      simp only [Memory.wf, Memory.wfFrom, Bool.and_eq_true] at w; exact w.2
    simp only [Memory.write]
    split
    · split
      · rfl
      · simp [Memory.read, ne.symm]
    · split
      · rename_i eq
        subst eq
        split
        · simp [Memory.read, ne.symm]
        · simp [Memory.read, ne.symm]
      · simp only [Memory.read, ih (Memory.wf_of_wfFrom tailWf)]

/-- A read after a write gives the byte written. -/
theorem Memory.read_write_same {m : Memory} {a : Nat} (v : Byte) (w : m.wf = true) : (m.write a v).read a = v := by
  induction m with
  | nil =>
    unfold Memory.write
    split
    · rename_i z; exact z.symm
    · simp [Memory.read]
  | cons e rest ih =>
    obtain ⟨k, x⟩ := e
    have tailWf : Memory.wfFrom (some k) rest = true := by
      simp only [Memory.wf, Memory.wfFrom, Bool.and_eq_true] at w; exact w.2
    simp only [Memory.write]
    split
    · rename_i below
      split
      · rename_i z
        have ne : k ≠ a := by omega
        simp only [Memory.read, ne, if_false]
        rw [Memory.read_below tailWf (by omega), z]
      · simp [Memory.read]
    · split
      · rename_i eq
        subst eq
        split
        · rename_i z; rw [Memory.read_below tailWf (Nat.le_refl _), z]
        · simp [Memory.read]
      · rename_i ne
        have ne' : k ≠ a := fun e => ne e.symm
        simp only [Memory.read, ne', if_false, ih (Memory.wf_of_wfFrom tailWf)]

/-- A run of byte writes keeps the canonical form. -/
theorem Memory.writeBytes_wf {n : Nat} (a : Word n) (bs : List Byte) {m : Memory} (i : Nat) (w : m.wf = true) :
    (m.writeBytes a i bs).wf = true := by
  induction bs generalizing m i with
  | nil => exact w
  | cons b bs ih => exact ih (i + 1) (Memory.write_wf _ _ w)

/-- A run of byte writes leaves every address outside it alone. -/
theorem Memory.read_writeBytes_other {n : Nat} (a : Word n) (bs : List Byte) {m : Memory} (i b : Nat) (w : m.wf = true)
    (out : ∀ j, i ≤ j → j < i + bs.length → b ≠ byteAddr a j) : (m.writeBytes a i bs).read b = m.read b := by
  induction bs generalizing m i with
  | nil => rfl
  | cons x bs ih =>
    have first : b ≠ byteAddr a i := out i (Nat.le_refl i) (by simp)
    have rest := ih (i + 1) (Memory.write_wf (byteAddr a i) x w)
      (fun j low high => out j (by omega) (by simp only [List.length_cons]; omega))
    exact rest.trans (Memory.read_write_other x w first)

/-- Byte addresses of one access are distinct while it is no longer than the address space. -/
theorem byteAddr_injective {n : Nat} (a : Word n) {i j : Nat} (hi : i < 2 ^ n) (hj : j < 2 ^ n)
    (e : byteAddr a i = byteAddr a j) : i = j := by
  unfold byteAddr at e
  have e := BitVec.eq_of_toNat_eq e
  have e : BitVec.ofNat n i = BitVec.ofNat n j := by simpa using e
  have e := congrArg BitVec.toNat e
  simpa [Nat.mod_eq_of_lt hi, Nat.mod_eq_of_lt hj] using e

/-- A read of the byte j of a run just written gives that byte. -/
theorem Memory.read_writeBytes_same {n : Nat} (a : Word n) (bs : List Byte) {m : Memory} (i j : Nat) (w : m.wf = true)
    (fits : i + bs.length ≤ 2 ^ n) (hj : j < bs.length) :
    (m.writeBytes a i bs).read (byteAddr a (i + j)) = bs[j] := by
  induction bs generalizing m i j with
  | nil => simp at hj
  | cons x bs ih =>
    simp only [List.length_cons] at fits hj
    have w' := Memory.write_wf (byteAddr a i) x w
    cases j with
    | zero =>
      have out : ∀ k, i + 1 ≤ k → k < i + 1 + bs.length → byteAddr a i ≠ byteAddr a k := fun k low high e => by
        have := byteAddr_injective a (by omega) (by omega) e
        omega
      have kept := Memory.read_writeBytes_other a bs (i + 1) (byteAddr a i) w' out
      have same := Memory.read_write_same (a := byteAddr a i) x w
      simpa [Memory.writeBytes] using kept.trans same
    | succ k =>
      have rest := ih (i + 1) k w' (by omega) (by omega)
      have e : i + 1 + k = i + (k + 1) := by omega
      rw [e] at rest
      simpa [Memory.writeBytes] using rest

/-- Reading back a run just written gives its bytes. -/
theorem Memory.readBytes_writeBytes {n : Nat} (a : Word n) (bs : List Byte) {m : Memory} (w : m.wf = true)
    (fits : bs.length ≤ 2 ^ n) : (m.writeBytes a 0 bs).readBytes a bs.length = bs := by
  apply List.ext_getElem (by simp [Memory.readBytes])
  intro j _ hj
  have := Memory.read_writeBytes_same a bs (m := m) 0 j w (by simpa using fits) hj
  simpa [Memory.readBytes] using this

@[simp] theorem leBytes_length (k v : Nat) : (leBytes k v).length = k := by
  induction k generalizing v with
  | zero => rfl
  | succ k ih => simp [leBytes, ih]

/-- Little-endian bytes give their number back, modulo the width. -/
theorem leNat_leBytes (k v : Nat) : leNat (leBytes k v) = v % 256 ^ k := by
  induction k generalizing v with
  | zero => simp [leBytes, leNat, Nat.mod_one]
  | succ k ih =>
    have split : v % 256 ^ (k + 1) = v % 256 + 256 * (v / 256 % 256 ^ k) := by
      rw [Nat.pow_succ', Nat.mod_mul]
    simp only [leBytes, leNat, ih, BitVec.toNat_ofNat, split]

/-- Byte j of a number, lowest first (20_memory.md R108). -/
theorem getElem_leBytes (k v j : Nat) (lt : j < (leBytes k v).length) :
    (leBytes k v)[j] = BitVec.ofNat 8 (v / 256 ^ j) := by
  induction k generalizing v j with
  | zero => simp at lt
  | succ k ih =>
    cases j with
    | zero => simp [leBytes]
    | succ j =>
      simp only [leBytes, List.getElem_cons_succ]
      rw [ih, Nat.div_div_eq_div_mul, Nat.pow_succ, Nat.mul_comm]

/-- Byte j of the number that bytes make, lowest first (20_memory.md R108). -/
theorem leNat_byte (bs : List Byte) (j : Nat) (lt : j < bs.length) : leNat bs / 256 ^ j % 256 = bs[j].toNat := by
  induction bs generalizing j with
  | nil => cases lt
  | cons b bs ih =>
    have := b.isLt
    cases j with
    | zero => simp only [leNat, List.getElem_cons_zero]; omega
    | succ j =>
      rw [List.getElem_cons_succ, ← ih j (by simpa using lt), leNat, Nat.pow_succ, Nat.mul_comm (256 ^ j),
        ← Nat.div_div_eq_div_mul]
      congr 2
      omega

end Sys2Proof.Machine
end

