-- ==== Sys2Proof/Laws/Ops.lean ====
section
/-! SUPPORT. What each shared operation can do, said once: outcomes, accesses, taking a trap, the boundary, the operation
behind the CSR instructions, the base ISA and the step. -/

namespace Sys2Proof.Machine

variable {c : Config}

/-! ### Outcomes -/

theorem andThen_eq_next {α β : Type} {o : Res α} {k : α → Res β} {b : β} :
    andThen o k = .next b ↔ ∃ a, o = .next a ∧ k a = .next b := by
  cases o <;> simp [andThen]

@[simp] theorem andThen_next {α β : Type} (a : α) (k : α → Res β) : andThen (.next a) k = k a := rfl

@[simp] theorem andThen_refused {α β : Type} (r : Refusal) (k : α → Res β) : andThen (.refused r) k = .refused r := rfl

@[simp] theorem andThen_fault {α β : Type} (f : Fault) (k : α → Res β) : andThen (.fault f) k = .fault f := rfl

@[simp] theorem inState_next (h : Hart c) : inState c (.next h) = .next ⟨c, h⟩ := rfl

@[simp] theorem inState_refused (r : Refusal) : inState c (.refused r) = .refused r := rfl

@[simp] theorem inState_fault (f : Fault) : inState c (.fault f) = .fault f := rfl

/-- The hart's next state is the machine's, with the configuration kept. -/
theorem inState_eq_next {o : Res (Hart c)} {h : Hart c} : inState c o = .next ⟨c, h⟩ ↔ o = .next h := by
  cases o <;> simp [inState, andThen]

theorem inState_next_cfg {o : Res (Hart c)} {s : State} (e : inState c o = .next s) :
    ∃ h, s = ⟨c, h⟩ ∧ o = .next h := by
  cases o <;> simp [inState, andThen] at e
  exact ⟨_, e.symm, rfl⟩

/-! ### Registers -/

@[simp] theorem reg_zero (h : Hart c) : h.reg 0 = 0 := by simp [Hart.reg]

@[simp] theorem setReg_zero (h : Hart c) (v : Word c.width) : h.setReg 0 v = h := by simp [Hart.setReg]

theorem reg_setReg_same (h : Hart c) {i : Reg} (ne : i ≠ 0) (v : Word c.width) : (h.setReg i v).reg i = v := by
  simp [Hart.reg, Hart.setReg, ne]

theorem reg_setReg_other (h : Hart c) {i j : Reg} (ne : j ≠ i) (v : Word c.width) : (h.setReg i v).reg j = h.reg j := by
  unfold Hart.reg Hart.setReg
  split
  · rfl
  · split
    · rfl
    · have : (i : Nat) ≠ j := fun e => ne (Fin.ext e.symm)
      exact Vector.getElem_set_ne i.isLt j.isLt this

/-- Equal register files read equally. -/
theorem reg_congr {h h' : Hart c} (e : h'.x = h.x) (i : Reg) : h'.reg i = h.reg i := by simp [Hart.reg, e]

/-- Equal status words mean equal modes. -/
theorem cur_congr {h h' : Hart c} (e : h'.mstatus = h.mstatus) : h'.cur = h.cur := by simp [Hart.cur, e]

/-! ### CSR addresses (30_encoding.md R137, R138) -/

theorem mem_csrAll (r : Csr) : r ∈ csrAll := by cases r <;> simp [csrAll]

/-- The default table is legal. -/
theorem csrAddrOk_default {c : Config} (e : c.csrAddr = CsrAddresses.default) : csrAddrOk c = true := by
  have same : csrAddr c = csrAddr Config.default := by
    funext r; cases r <;> simp only [csrAddr, e] <;> rfl
  unfold csrAddrOk; rw [same]; decide

theorem csrAddr_of_csrOfAddr {a : BitVec 12} {r : Csr} (e : csrOfAddr c a = some r) : csrAddr c r = a := by
  have := List.find?_some e
  simpa using this

section
variable (ok : csrAddrOk c = true)
include ok

theorem csrAddr_injective : Function.Injective (csrAddr c) := by
  intro r q e
  simp only [csrAddrOk, Bool.and_eq_true, decide_eq_true_eq] at ok
  exact List.inj_on_of_nodup_map ok.1 (mem_csrAll r) (mem_csrAll q) e

/-- A CSR address names the register that has it. -/
theorem csrOfAddr_addr (r : Csr) : csrOfAddr c (csrAddr c r) = some r := by
  cases e : csrOfAddr c (csrAddr c r) with
  | none => exact absurd (List.find?_eq_none.mp e r (mem_csrAll r)) (by simp)
  | some q => rw [csrAddr_injective ok (csrAddr_of_csrOfAddr e)]

theorem csrOfAddr_eq_some {a : BitVec 12} {r : Csr} : csrOfAddr c a = some r ↔ a = csrAddr c r :=
  ⟨fun e => (csrAddr_of_csrOfAddr e).symm, fun e => e ▸ csrOfAddr_addr ok r⟩

theorem csrAddr_class (r : Csr) : csrLevel (csrAddr c r) = .m ∧
    (csrReadOnly (csrAddr c r) = true ↔ r = .mcpuid ∨ r = .mimpid ∨ r = .mhartid) := by
  simp only [csrAddrOk, Bool.and_eq_true, List.all_eq_true, beq_iff_eq] at ok
  have := ok.2 r (mem_csrAll r)
  rw [this.2]
  simp [this.1, or_assoc]

/-- Every CSR of this spec is of machine level (10_state.md R27). -/
theorem csrLevel_machine {a : BitVec 12} {r : Csr} (e : csrOfAddr c a = some r) : csrLevel a = .m := by
  rw [← csrAddr_of_csrOfAddr e]; exact (csrAddr_class ok r).1

/-- The read-only class of this spec (30_encoding.md R137). -/
theorem csrReadOnly_iff {a : BitVec 12} {r : Csr} (e : csrOfAddr c a = some r) :
    csrReadOnly a = true ↔ r = .mcpuid ∨ r = .mimpid ∨ r = .mhartid := by
  rw [← csrAddr_of_csrOfAddr e]; exact (csrAddr_class ok r).2

end

theorem below_m_iff (p : Priv) : p.below .m = true ↔ p ≠ .m := by cases p <;> simp <;> rfl

/-! ### Taking a trap -/

/-- A trap that goes on enters the M-mode handler. -/
theorem takeTrap_eq_next {h t : Hart c} {cause : Cause c.width} {epc : Word c.width} :
    takeTrap h cause epc = .next t ↔ handlerMode h cause = .m ∧ t = trapInto h cause epc := by
  unfold takeTrap
  split <;> simp_all [eq_comm]

theorem raise_eq_next {h t : Hart c} {e : Exc c.width} :
    raise h e = .next t ↔ handlerMode h (.exception e) = .m ∧ t = trapInto h (.exception e) h.pc := takeTrap_eq_next

theorem raise_of_machine (h : Hart c) (e : Exc c.width) (m : h.cur = .m) :
    raise h e = .next (trapInto h (.exception e) h.pc) := by
  simp [raise, takeTrap, handlerMode, m]

/-- Interrupts and NMIs are handled in M (60_exceptions.md R230). -/
theorem takeInterrupt_eq (h : Hart c) (k : IntKind) : takeInterrupt h k = .next (trapInto h (.interrupt k) h.pc) := by
  simp [takeInterrupt, takeTrap, handlerMode]

theorem takeNmi_eq (h : Hart c) :
    takeNmi h = .next (trapInto { h with draws := h.draws + 1 } (.nmi (Config.draw 4 h.draws)) h.pc) := by
  simp [takeNmi, takeTrap, handlerMode]

/-- After a trap the mode is M. -/
@[simp] theorem trapInto_cur (h : Hart c) (cause : Cause c.width) (epc : Word c.width) :
    (trapInto h cause epc).cur = .m := by
  unfold Hart.cur stackEntry
  cases hm : c.modes <;> simp [pushStack, Modes.depth, Modes.prv]

/-- After a trap interrupts of the handler's level are off (60_exceptions.md R246). -/
@[simp] theorem trapInto_ie (h : Hart c) (cause : Cause c.width) (epc : Word c.width) :
    (trapInto h cause epc).ie = false := by
  unfold Hart.ie stackEntry
  cases hm : c.modes <;> simp [pushStack, Modes.depth]

/-- After a trap each older entry is the one before it (10_state.md R45). -/
theorem stackEntry_pushStack (ms : MStatus) (p : Priv) {k : Nat} (low : k + 1 < c.modes.depth) :
    stackEntry c (pushStack c p ms) (k + 1) = stackEntry c ms k := by
  have small : k = 0 ∨ k = 1 ∨ k = 2 := by
    cases hm : c.modes <;> simp only [hm, Modes.depth] at low <;> omega
  unfold stackEntry pushStack
  cases hm : c.modes <;> rcases small with rfl | rfl | rfl <;> simp_all [Modes.depth]

/-- After a pop each entry is the one after it (10_state.md R46). -/
theorem stackEntry_popStack (ms : MStatus) {k : Nat} (low : k + 1 < c.modes.depth) :
    stackEntry c (popStack c ms) k = stackEntry c ms (k + 1) := by
  have small : k = 0 ∨ k = 1 ∨ k = 2 := by
    cases hm : c.modes <;> simp only [hm, Modes.depth] at low <;> omega
  unfold stackEntry popStack
  cases hm : c.modes <;> rcases small with rfl | rfl | rfl <;> simp_all [Modes.depth]

/-- After a pop the oldest entry is the lowest mode with interrupts enabled (10_state.md R46). -/
theorem stackEntry_popStack_oldest (ms : MStatus) :
    stackEntry c (popStack c ms) (c.modes.depth - 1) = ⟨c.modes.lowest, true⟩ := by
  unfold stackEntry popStack
  cases hm : c.modes <;> simp [Modes.depth, Modes.lowest, Modes.prv]

/-- Where an exception enters (60_exceptions.md R240). -/
theorem offset_exception (p : Priv) (e : Exc c.width) : Cause.offset c p (.exception e) =
    match c.extraVector false e.code with
    | some own => BitVec.ofNat c.width own
    | none => BitVec.ofNat c.width (p.code.toNat * 0x40) := rfl

/-- Where an interrupt enters (60_exceptions.md R240). -/
theorem offset_interrupt (p : Priv) (k : IntKind) : Cause.offset c p (.interrupt k) =
    match c.extraVector true k.code with
    | some own => BitVec.ofNat c.width own
    | none => BitVec.ofNat c.width (p.code.toNat * 0x40) := rfl

/-- Every entry lies a multiple of four bytes above `mtvec`. -/
theorem offset_aligned (p : Priv) (cause : Cause c.width) : ∃ k, cause.offset c p = BitVec.ofNat c.width (4 * k) := by
  have own : ∀ i code, ∃ k, (match c.extraVector i code with
      | some own => BitVec.ofNat c.width own
      | none => BitVec.ofNat c.width (p.code.toNat * 0x40)) = BitVec.ofNat c.width (4 * k) := by
    intro i code
    unfold Config.extraVector
    cases c.extraVectors.find? (fun e => e.interrupt == i && e.code == code) with
    | some e => exact ⟨e.slot, rfl⟩
    | none => exact ⟨p.code.toNat * 0x10, by simp only [Option.map_none]; congr 1; omega⟩
  cases cause with
  | exception e => exact own _ _
  | interrupt k => exact own _ _
  | nmi n => exact ⟨0x3F, rfl⟩

/-! ### The boundary -/

/-- What the events of a boundary never change: everything but `mtime`, `mip` and the model's own environment fields. -/
theorem afterEvents_eq (h : Hart c) : ∃ time bits,
    afterEvents h = { h with mtime := time, mip := bits, env := h.env.tail, boundary := h.boundary + 1 } := ⟨_, _, rfl⟩

@[simp] theorem afterEvents_reg (h : Hart c) (r : Reg) : (afterEvents h).reg r = h.reg r := rfl
@[simp] theorem afterEvents_cur (h : Hart c) : (afterEvents h).cur = h.cur := rfl
@[simp] theorem afterEvents_ie (h : Hart c) : (afterEvents h).ie = h.ie := rfl
@[simp] theorem afterEvents_mtvecValue (h : Hart c) : (afterEvents h).mtvecValue = h.mtvecValue := rfl
@[simp] theorem afterEvents_mtdelegValue (h : Hart c) : (afterEvents h).mtdelegValue = h.mtdelegValue := rfl
@[simp] theorem afterEvents_handlerMode (h : Hart c) (cause : Cause c.width) :
    handlerMode (afterEvents h) cause = handlerMode h cause := rfl

/-- The pending bits that only the hart's own software writes stay, and MTIP is not cleared (10_state.md R75, R81). -/
theorem foldEvents_bits (cmp : BitVec 32) (evs : List EnvEvent) (t : Timer c) :
    let u := evs.foldl (applyEvent cmp) t
    u.mip.ssoft = t.mip.ssoft ∧ u.mip.hsoft = t.mip.hsoft ∧ (t.mip.mtimer = true → u.mip.mtimer = true) := by
  induction evs generalizing t with
  | nil => simp
  | cons e evs ih =>
    obtain ⟨s, h, m⟩ := ih (applyEvent cmp t e)
    simp only [List.foldl_cons]
    refine ⟨s.trans ?_, h.trans ?_, fun on => m ?_⟩ <;> cases e <;> simp_all [applyEvent]

/-- Only ticks move `mtime`: by one each (10_state.md R78). -/
theorem foldEvents_mtime (cmp : BitVec 32) (evs : List EnvEvent) (t : Timer c) :
    (evs.foldl (applyEvent cmp) t).mtime = t.mtime + BitVec.ofNat c.mtimeBits (evs.count .tick) := by
  induction evs generalizing t with
  | nil => simp
  | cons e evs ih =>
    rw [List.foldl_cons, ih]
    cases e
    case tick =>
      simp only [applyEvent, tick_mtime, List.count_cons_self, BitVec.ofNat_add]
      rw [BitVec.add_assoc, BitVec.add_comm 1]; rfl
    all_goals simp [applyEvent]

/-- Without an event due, the boundary changes only the model's own environment fields. -/
theorem afterEvents_nil {h : Hart c} (e : dueEvents h = []) :
    afterEvents h = { h with env := h.env.tail, boundary := h.boundary + 1 } := by simp [afterEvents, e]

/-- An interrupt is chosen exactly when one may be taken. -/
theorem chooseInterrupt_none_iff (h : Hart c) : chooseInterrupt h = none ↔ takeables h = [] := by
  unfold chooseInterrupt
  split <;> simp_all

/-- The chosen interrupt may be taken, and choosing changes only the count of free values. -/
theorem chooseInterrupt_some {h h' : Hart c} {i : Level × IntKind} (e : chooseInterrupt h = some (i, h')) :
    takeable h i.1 i.2 = true ∧ ∃ k, h' = { h with draws := k } := by
  have mem_of : i ∈ takeables h ∧ ∃ k, h' = { h with draws := k } := by
    unfold chooseInterrupt at e
    split at e
    · cases e
    · rename_i j hj
      cases e
      exact ⟨by simp [hj], h.draws, rfl⟩
    · rename_i j rest _ hj
      cases e
      refine ⟨?_, h.draws + 1, rfl⟩
      rw [hj, List.getD_eq_getElem _ _ (Nat.mod_lt _ (by simp))]
      exact List.getElem_mem _
  exact ⟨(List.mem_filter.mp mem_of.1).2, mem_of.2⟩

theorem mem_allInterrupts (x : Level) (k : IntKind) : (x, k) ∈ allInterrupts := by
  cases x <;> cases k <;> simp [allInterrupts]

/-! ### CSR instructions -/

theorem csrPermits_iff {h : Hart c} {a : BitVec 12} {w : Bool} :
    csrPermits h a w = true ↔ h.cur.below (csrLevel a) = false ∧ ¬(w = true ∧ csrReadOnly a = true) := by
  unfold csrPermits; cases h.cur.below (csrLevel a) <;> cases w <;> cases csrReadOnly a <;> simp

/-- The access check reaches a register where the address is its own, the mode is not below its level and a write is not to
the read-only class. -/
theorem csrCheck_eq_register {h : Hart c} {a : BitVec 12} {w : Bool} {r : Csr} :
    csrCheck h a w = .register r ↔ csrOfAddr c a = some r ∧ csrPermits h a w = true := by
  unfold csrCheck
  cases csrPermits h a w
  · simp
  · cases csrOfAddr c a
    · cases claimedByModes c a <;> simp
    · simp

/-- With legal addresses only M-mode reaches a register. -/
theorem csrCheck_machine (ok : csrAddrOk c = true) {h : Hart c} {a : BitVec 12} {w : Bool} {r : Csr} :
    csrCheck h a w = .register r ↔ csrOfAddr c a = some r ∧ h.cur = .m ∧ ¬(w = true ∧ csrReadOnly a = true) := by
  rw [csrCheck_eq_register, csrPermits_iff]
  refine and_congr_right fun e => ?_
  rw [csrLevel_machine ok e]
  exact and_congr_left' (by rw [← Bool.not_eq_true, below_m_iff, not_not])

/-- The access check raises Illegal instruction on the three grounds of 40_csr_instructions.md R165. -/
theorem csrCheck_eq_illegal {h : Hart c} {a : BitVec 12} {w : Bool} :
    csrCheck h a w = .illegal ↔ (csrOfAddr c a = none ∧ claimedByModes c a = false) ∨ csrPermits h a w = false := by
  unfold csrCheck
  cases csrPermits h a w
  · simp
  · cases csrOfAddr c a
    · cases claimedByModes c a <;> simp
    · simp

/-- The access check stops at an S-level or H-level register of a hart with the mode. -/
theorem csrCheck_eq_lowerLevel {h : Hart c} {a : BitVec 12} {w : Bool} :
    csrCheck h a w = .lowerLevel ↔
      csrOfAddr c a = none ∧ claimedByModes c a = true ∧ csrPermits h a w = true := by
  unfold csrCheck
  cases csrPermits h a w
  · simp
  · cases csrOfAddr c a
    · cases claimedByModes c a <;> simp
    · simp

/-- The state a CSR instruction leaves when it completes. -/
def csrDone (h : Hart c) (rd : Reg) (r : Csr) (writes : Bool) (v : Word c.width) : Hart c :=
  ((if writes then csrPut h v r else h).setReg rd (csrRead h r)).advance

/-- What a CSR instruction can do when it goes on: it completes on the checked register, or its check fails and it is an
Illegal instruction. -/
theorem csrInstr_cases {h t : Hart c} {legal writes : Bool} {rd : Reg} {a : BitVec 12} {new : Word c.width → Word c.width}
    (e : csrInstr h legal rd a writes new = .next t) :
    (∃ r, legal = true ∧ csrCheck h a writes = .register r ∧
      (writes = true → csrRefusal c (new (csrRead h r)) r = none) ∧ t = csrDone h rd r writes (new (csrRead h r))) ∨
    ((legal = false ∨ csrCheck h a writes = .illegal) ∧ handlerMode h (.exception .illegal) = .m ∧
      t = trapInto h (.exception .illegal) h.pc) := by
  unfold csrInstr at e
  cases legal with
  | false => exact .inr ⟨.inl rfl, raise_eq_next.mp (by simpa using e)⟩
  | true =>
    simp only [Bool.not_true, Bool.false_eq_true, if_false] at e
    cases hr : csrCheck h a writes with
    | illegal => exact .inr ⟨.inr rfl, raise_eq_next.mp (by simpa [hr] using e)⟩
    | lowerLevel => rw [hr] at e; cases e
    | register r =>
      left
      simp only [hr] at e
      cases writes with
      | false =>
        simp only [Bool.false_eq_true, if_false, andThen_next, Host.Outcome.next.injEq] at e
        exact ⟨r, rfl, rfl, by simp, e.symm⟩
      | true =>
        simp only [if_true, andThen_eq_next, csrWrite] at e
        obtain ⟨h1, put, e⟩ := e
        split at put
        · cases put
        · rename_i ok
          cases put
          cases e
          exact ⟨r, rfl, rfl, fun _ => ok, rfl⟩

/-- A CSR instruction completes when its check passes and its write is not refused. -/
theorem csrInstr_done {h : Hart c} {writes : Bool} {rd : Reg} {a : BitVec 12} {r : Csr} (new : Word c.width → Word c.width)
    (check : csrCheck h a writes = .register r) (ok : writes = true → csrRefusal c (new (csrRead h r)) r = none) :
    csrInstr h true rd a writes new = .next (csrDone h rd r writes (new (csrRead h r))) := by
  unfold csrInstr csrDone
  cases writes with
  | false => simp [check]
  | true => simp [check, csrWrite, ok rfl]

/-- A CSR instruction whose write the spec refuses is refused. -/
theorem csrInstr_refused {h : Hart c} {rd : Reg} {a : BitVec 12} {r : Csr} {why : Refusal} (new : Word c.width → Word c.width)
    (check : csrCheck h a true = .register r) (no : csrRefusal c (new (csrRead h r)) r = some why) :
    csrInstr h true rd a true new = .refused why := by
  simp [csrInstr, check, csrWrite, no]

/-- A CSR instruction whose check fails, or with a register the base does not have, is an Illegal instruction. -/
theorem csrInstr_illegal {h : Hart c} {legal writes : Bool} {rd : Reg} {a : BitVec 12} (new : Word c.width → Word c.width)
    (bad : legal = false ∨ csrCheck h a writes = .illegal) : csrInstr h legal rd a writes new = raise h .illegal := by
  unfold csrInstr
  rcases bad with bad | bad
  · simp [bad]
  · cases legal <;> simp [bad]

/-- A CSR instruction on a register of another level is refused. -/
theorem csrInstr_lowerLevel {h : Hart c} {writes : Bool} {rd : Reg} {a : BitVec 12} (new : Word c.width → Word c.width)
    (check : csrCheck h a writes = .lowerLevel) : csrInstr h true rd a writes new = .refused .lowerLevelCsr := by
  simp [csrInstr, check]

/-! ### The base ISA -/

/-- What a base instruction can do when it goes on: it keeps every CSR, or it is a trap of the state before it. -/
theorem runBase_cases {start h t : Hart c} {act : BaseAction c} (e : runBase start h act = .next t) :
    (c.pcAligned t.pc = true ∧ t = { h with x := t.x, pc := t.pc, mem := t.mem } ∧ (h.mem.wf = true → t.mem.wf = true)) ∨
    ∃ exc, handlerMode start (.exception exc) = .m ∧ t = trapInto start (.exception exc) start.pc := by
  induction act generalizing h with
  | done x pc =>
    unfold runBase at e
    split at e
    · cases e
      exact .inl ⟨by assumption, rfl, id⟩
    · exact .inr ⟨_, raise_eq_next.mp e⟩
  | raise exc => exact .inr ⟨_, raise_eq_next.mp e⟩
  | refuse => cases e
  | load a len k ih =>
    unfold runBase at e
    split at e
    · exact ih _ e
    · exact .inr ⟨_, raise_eq_next.mp e⟩
    · cases e
    · cases e
  | store a len v k ih =>
    unfold runBase at e
    split at e
    · rename_i h' hw
      obtain ⟨pa, e'⟩ : ∃ pa : Word c.width, h' = { h with mem := h.mem.writeBytes pa 0 (leBytes len v.toNat) } := by
        unfold memWrite at hw
        split at hw <;> cases hw
        exact ⟨_, rfl⟩
      subst e'
      rcases ih e with ⟨al, eq, wf⟩ | r
      · exact .inl ⟨al, eq, fun w => wf (Memory.writeBytes_wf _ _ _ w)⟩
      · exact .inr r
    · exact .inr ⟨_, raise_eq_next.mp e⟩
    · cases e
    · cases e

/-- An instruction offered to a base ISA: its actions where it claims it, else what the machine does. -/
theorem runClaimed_cases {base : BaseISA} {h : Hart c} {hs : List Half} {o : Res State} {s : State}
    (e : runClaimed base h hs o = .next s) :
    (∃ act t, base.act c hs (h.x.set 0 0) h.pc = some act ∧ s = ⟨c, t⟩ ∧ runBase h h act = .next t) ∨
    (base.act c hs (h.x.set 0 0) h.pc = none ∧ o = .next s) := by
  unfold runClaimed at e
  split at e
  · rename_i act claim
    obtain ⟨t, et, ek⟩ := inState_next_cfg e
    exact .inl ⟨act, t, claim, et, ek⟩
  · exact .inr ⟨by assumption, e⟩

@[simp] theorem runClaimed_none (h : Hart c) (hs : List Half) (o : Res State) : runClaimed BaseISA.none h hs o = o := rfl

/-! ### Instructions of other lengths than 32 bits -/

/-- With no base ISA every instruction is 32 bits long. -/
@[simp] theorem fetchOwnLength_none (h : Hart c) (a : Word c.width) : fetchOwnLength BaseISA.none h a = none := by
  simp [fetchOwnLength, BaseISA.none, Rest.endsWith]

/-- With 32-bit alignment every instruction is 32 bits long (30_encoding.md R144). -/
theorem fetchOwnLength_a32 (base : BaseISA) (h : Hart c) (a : Word c.width) (al : c.ialign = .a32) :
    fetchOwnLength base h a = none := by
  simp [fetchOwnLength, al]

/-- A word of the table is always 32 bits long (30_encoding.md R130, R139). -/
theorem fetchOwnLength_row (base : BaseISA) {h : Hart c} {a : Word c.width} {w : BitVec 32} {i : Instr}
    (word : fetch h a = .ok w) (dec : decodeWord w = .ok i) : fetchOwnLength base h a = none := by
  simp [fetchOwnLength, fetchesRow, word, dec]

/-- Where the first half cannot be fetched the ordinary fetch says what happens. -/
theorem fetchOwnLength_blocked (base : BaseISA) {h : Hart c} {a : Word c.width}
    (no : c.pcAligned a = false ∨ h.mstatus.vm ≠ .mbare ∨ allows c .execute a 2 = false) :
    fetchOwnLength base h a = none := by
  rcases no with no | no | no <;> simp [fetchOwnLength, no]

/-- The bytes of half i are the bytes 2i and 2i + 1 of the instruction. -/
theorem byteAddr_halfAddr (a : Word c.width) (i j : Nat) : byteAddr (halfAddr a i) j = byteAddr a (2 * i + j) := by
  unfold byteAddr halfAddr
  rw [BitVec.add_assoc, ← BitVec.ofNat_add]

/-- Four bytes may be executed where both halves may. -/
theorem allows_word (a : Word c.width) :
    allows c .execute a 4 = (allows c .execute a 2 && allows c .execute (halfAddr a 1) 2) := by
  simp [allows, List.range_succ, byteAddr_halfAddr, Bool.and_assoc]

/-- The two halves of the word at an address are the halves there. -/
theorem wordHalves_readBytes (h : Hart c) (a : Word c.width) :
    wordHalves (BitVec.ofNat 32 (leNat (h.mem.readBytes a 4))) = [halfAt h a 0, halfAt h a 1] := by
  have pair : ∀ i, h.mem.readBytes (halfAddr a i) 2 = [h.mem.read (byteAddr a (2 * i)), h.mem.read (byteAddr a (2 * i + 1))] := by
    intro i
    simp [Memory.readBytes, List.range_succ, byteAddr_halfAddr]
  have four : h.mem.readBytes a 4 = [h.mem.read (byteAddr a 0), h.mem.read (byteAddr a 1), h.mem.read (byteAddr a 2),
      h.mem.read (byteAddr a 3)] := rfl
  unfold wordHalves halfAt
  rw [four, pair, pair]
  have := (h.mem.read (byteAddr a 0)).isLt
  have := (h.mem.read (byteAddr a 1)).isLt
  have := (h.mem.read (byteAddr a 2)).isLt
  have := (h.mem.read (byteAddr a 3)).isLt
  refine congrArg₂ _ ?_ (congrArg₂ _ ?_ rfl) <;> apply BitVec.eq_of_toNat_eq <;>
    simp only [BitVec.extractLsb'_toNat, BitVec.toNat_ofNat, leNat, Nat.shiftRight_eq_div_pow] <;> simp <;> omega

/-- May the base ISA claim these halves at `pc`: an instruction of another length, or a 32-bit word that no row of the table
matches or that is a CSR instruction on an address of no register of this spec that passes the other checks (30_encoding.md
R138, R139)? -/
def Offered (base : BaseISA) (h : Hart c) (hs : List Half) : Prop :=
  fetchOwnLength base h h.pc = some (.ok hs) ∨
  (fetchOwnLength base h h.pc = none ∧ ∃ w, fetch h h.pc = .ok w ∧ hs = wordHalves w ∧
    ((∃ why, decodeWord w = .error why) ∨ ∃ i, decodeWord w = .ok i ∧ csrOffered h i = true))

/-- What fetching and executing one instruction can do when it goes on: trap on the fetch, execute the decoded instruction,
run what the base ISA makes of the halves, or take Illegal instruction. -/
theorem runInstr_cases {base : BaseISA} {h : Hart c} {s : State} (e : runInstr base ⟨c, h⟩ = .next s) :
    ∃ t, s = ⟨c, t⟩ ∧
    ((∃ exc, (fetchOwnLength base h h.pc = some (.raise exc) ∨
        (fetchOwnLength base h h.pc = none ∧ fetch h h.pc = .raise exc)) ∧ raise h exc = .next t) ∨
     (∃ w i, fetch h h.pc = .ok w ∧ decodeWord w = .ok i ∧ exec i ⟨c, h⟩ = .next ⟨c, t⟩) ∨
     (∃ hs act, Offered base h hs ∧ base.act c hs (h.x.set 0 0) h.pc = some act ∧ runBase h h act = .next t) ∨
     raise h .illegal = .next t) := by
  have execCfg : ∀ i, exec i ⟨c, h⟩ = .next s → ∃ t, s = ⟨c, t⟩ := by
    intro i ei
    cases i <;> obtain ⟨t, et, -⟩ := inState_next_cfg (c := c) ei <;> exact ⟨t, et⟩
  have claimed : ∀ {hs : List Half} {o : Res State}, Offered base h hs → runClaimed base h hs o = .next s →
      (∃ t, s = ⟨c, t⟩ ∧ ∃ hs act, Offered base h hs ∧ base.act c hs (h.x.set 0 0) h.pc = some act ∧
        runBase h h act = .next t) ∨ o = .next s := by
    intro hs o off ran
    rcases runClaimed_cases ran with ⟨act, t, claim, et, ek⟩ | ⟨-, eo⟩
    · exact .inl ⟨t, et, hs, act, off, claim, ek⟩
    · exact .inr eo
  have illegal : inState c (raise h .illegal) = .next s → ∃ t, s = ⟨c, t⟩ ∧ raise h .illegal = .next t :=
    inState_next_cfg
  simp only [runInstr] at e
  cases own : fetchOwnLength base h h.pc with
  | some fetched =>
    simp only [own] at e
    cases fetched with
    | ok hs =>
      rcases claimed (.inl own) e with ⟨t, et, done⟩ | e
      · exact ⟨t, et, .inr (.inr (.inl done))⟩
      · obtain ⟨t, et, ek⟩ := illegal e
        exact ⟨t, et, .inr (.inr (.inr ek))⟩
    | raise exc =>
      obtain ⟨t, et, ek⟩ := inState_next_cfg (c := c) (o := raise h exc) e
      exact ⟨t, et, .inl ⟨exc, .inl rfl, ek⟩⟩
    | refuse r => cases e
    | fault f => cases e
  | none =>
    simp only [own] at e
    cases hf : fetch h h.pc with
    | raise exc =>
      simp only [hf] at e
      obtain ⟨t, et, ek⟩ := inState_next_cfg e
      exact ⟨t, et, .inl ⟨exc, .inr ⟨rfl, rfl⟩, ek⟩⟩
    | refuse r => simp only [hf] at e; cases e
    | fault r => simp only [hf] at e; cases e
    | ok w =>
      simp only [hf] at e
      cases hd : decodeWord w with
      | ok i =>
        simp only [hd] at e
        have ran : (∃ t, s = ⟨c, t⟩ ∧ ∃ hs act, Offered base h hs ∧ base.act c hs (h.x.set 0 0) h.pc = some act ∧
            runBase h h act = .next t) ∨ exec i ⟨c, h⟩ = .next s := by
          split at e
          · exact claimed (.inr ⟨own, w, hf, rfl, .inr ⟨i, hd, by assumption⟩⟩) e
          · exact .inr e
        rcases ran with ⟨t, et, done⟩ | ran
        · exact ⟨t, et, .inr (.inr (.inl done))⟩
        · obtain ⟨t, et⟩ := execCfg i ran
          exact ⟨t, et, .inr (.inl ⟨w, i, rfl, hd, et ▸ ran⟩)⟩
      | error why =>
        simp only [hd] at e
        rcases claimed (.inr ⟨own, w, hf, rfl, .inl ⟨why, hd⟩⟩) e with ⟨t, et, done⟩ | e
        · exact ⟨t, et, .inr (.inr (.inl done))⟩
        · obtain ⟨t, et, ek⟩ := illegal e
          exact ⟨t, et, .inr (.inr (.inr ek))⟩

/-! ### The step -/

/-- What a step can do when it goes on, with any base ISA: take an NMI, take an interrupt that may be taken, or fetch and
execute, in one of the four ways of `runInstr_cases`. -/
theorem stepWith_cases {base : BaseISA} {h : Hart c} {s : State} (e : stepWith base ⟨c, h⟩ = .next s) :
    ∃ t, s = ⟨c, t⟩ ∧
    ((nmiDue h = true ∧ takeNmi (afterEvents h) = .next t) ∨
     (nmiDue h = false ∧ ∃ i h', chooseInterrupt (afterEvents h) = some (i, h') ∧ t = trapInto h' (.interrupt i.2) h'.pc) ∨
     ((nmiDue h = false ∧ chooseInterrupt (afterEvents h) = none) ∧
      ((∃ exc, (fetchOwnLength base (afterEvents h) (afterEvents h).pc = some (.raise exc) ∨
          (fetchOwnLength base (afterEvents h) (afterEvents h).pc = none ∧
            fetch (afterEvents h) (afterEvents h).pc = .raise exc)) ∧ raise (afterEvents h) exc = .next t) ∨
       (∃ w i, fetch (afterEvents h) (afterEvents h).pc = .ok w ∧ decodeWord w = .ok i ∧
         exec i ⟨c, afterEvents h⟩ = .next ⟨c, t⟩) ∨
       (∃ hs act, Offered base (afterEvents h) hs ∧
         base.act c hs ((afterEvents h).x.set 0 0) (afterEvents h).pc = some act ∧
         runBase (afterEvents h) (afterEvents h) act = .next t) ∨
       raise (afterEvents h) .illegal = .next t))) := by
  unfold stepWith at e
  cases hn : nmiDue h with
  | true =>
    simp only [hn, if_true] at e
    obtain ⟨t, et, ek⟩ := inState_next_cfg e
    exact ⟨t, et, .inl ⟨rfl, ek⟩⟩
  | false =>
    simp only [hn, Bool.false_eq_true, if_false] at e
    cases hi : chooseInterrupt (afterEvents h) with
    | some p =>
      obtain ⟨i, h'⟩ := p
      simp only [hi] at e
      obtain ⟨t, et, ek⟩ := inState_next_cfg e
      rw [takeInterrupt_eq] at ek
      cases ek
      exact ⟨_, et, .inr (.inl ⟨rfl, i, h', rfl, rfl⟩)⟩
    | none =>
      simp only [hi] at e
      obtain ⟨t, et, ran⟩ := runInstr_cases e
      exact ⟨t, et, .inr (.inr ⟨⟨rfl, rfl⟩, ran⟩)⟩

/-- With no interrupt due the step fetches, on the state the boundary's events leave. -/
theorem stepWith_quiet (base : BaseISA) {h : Hart c} (nmi : nmiDue h = false)
    (quiet : chooseInterrupt (afterEvents h) = none) : stepWith base ⟨c, h⟩ = runInstr base ⟨c, afterEvents h⟩ := by
  simp [stepWith, nmi, quiet]

/-- A step of a hart with no interrupt due that fetches an instruction of the table executes it, unless the base ISA claims
its CSR address. -/
theorem stepWith_executes (base : BaseISA) {h : Hart c} {w : BitVec 32} {i : Instr} (nmi : nmiDue h = false)
    (quiet : chooseInterrupt (afterEvents h) = none) (word : fetch (afterEvents h) (afterEvents h).pc = .ok w)
    (dec : decodeWord w = .ok i)
    (unclaimed : csrOffered h i = false ∨
      base.act c (wordHalves w) ((afterEvents h).x.set 0 0) (afterEvents h).pc = none) :
    stepWith base ⟨c, h⟩ = exec i ⟨c, afterEvents h⟩ := by
  have same : csrOffered (afterEvents h) i = csrOffered h i := rfl
  simp only [stepWith, nmi, quiet, runInstr, fetchOwnLength_row base word dec, word, dec, same, Bool.false_eq_true, if_false]
  rcases unclaimed with no | no
  · simp [no]
  · have claim : runClaimed base (afterEvents h) (wordHalves w) (exec i ⟨c, afterEvents h⟩) = exec i ⟨c, afterEvents h⟩ := by
      unfold runClaimed; rw [no]
    rw [claim, ite_self]

end Sys2Proof.Machine
end

