-- ==== Sys2Proof/Laws/Layout.lean ====
section
/-! SUPPORT. Words put together from disjoint fields; what a CSR read of `mstatus`, `mip`, `mie` and `mcause` gives, field by
field, under a legal layout; alignment of instruction addresses. -/

namespace Sys2Proof.Machine

variable {c : Config}

theorem width_cases (c : Config) : c.width = 32 ∨ c.width = 64 ∨ c.width = 128 := by
  unfold Config.width; cases c.xlen <;> simp

theorem width_ge (c : Config) : 32 ≤ c.width := by have := width_cases c; omega

/-- A bit of a placed field. -/
theorem getLsbD_place {w : Nat} (n pos : Nat) (v : BitVec w) (i : Nat) :
    (place n pos v).getLsbD i = (decide (i < n) && decide (pos ≤ i) && v.getLsbD (i - pos)) := by
  unfold place
  rw [BitVec.getLsbD_shiftLeft, BitVec.getLsbD_setWidth]
  by_cases h : pos ≤ i
  · have : i - pos < n ∨ ¬ i < n := by omega
    rcases this with h' | h' <;> simp [h, h', Nat.not_lt.mpr h]
  · simp [h, Nat.lt_of_not_le h]

/-! ### Words put together from fields -/

/-- The low bit of a field and its width. -/
def Placed.span (f : Placed) : Nat × Nat := (f.pos, f.width)

/-- A bit that lies in no field is 0. -/
theorem assemble_out {n i : Nat} {fs : List Placed} (out : ∀ q ∈ fs.map Placed.span, i < q.1 ∨ q.1 + q.2 ≤ i) :
    (assemble n fs).getLsbD i = false := by
  induction fs with
  | nil => simp [assemble]
  | cons f fs ih =>
    simp only [List.map_cons, List.forall_mem_cons] at out
    simp only [assemble, BitVec.getLsbD_or, ih out.2, Bool.or_false, getLsbD_place]
    rcases out.1 with below | above
    · simp [Placed.span] at below; simp [Nat.not_le.mpr below]
    · simp only [Placed.span] at above
      rw [BitVec.getLsbD_of_ge f.value _ (by omega), Bool.and_false]

/-- In a word of disjoint fields each field reads as its value. -/
theorem assemble_extract {n : Nat} {fs : List Placed} (ok : spansOk n (fs.map Placed.span) = true) {f : Placed}
    (mem : f ∈ fs) : (assemble n fs).extractLsb' f.pos f.width = f.value := by
  apply BitVec.eq_of_getLsbD_eq
  intro j hj
  rw [BitVec.getLsbD_extractLsb']
  simp only [hj, decide_true, Bool.true_and]
  induction fs with
  | nil => cases mem
  | cons g fs ih =>
    simp only [List.map_cons, spansOk, Placed.span, Bool.and_eq_true, decide_eq_true_eq, List.all_eq_true,
      Bool.or_eq_true] at ok
    obtain ⟨⟨fits, apart⟩, rest⟩ := ok
    simp only [assemble, BitVec.getLsbD_or, getLsbD_place]
    rcases List.mem_cons.mp mem with rfl | mem
    · rw [assemble_out]
      · simp [show f.pos + j < n by omega]
      · intro q hq
        have := apart q hq
        omega
    · rw [ih rest mem]
      have := apart _ (List.mem_map_of_mem mem)
      simp only [Placed.span] at this
      rcases this with a | a
      · rw [BitVec.getLsbD_of_ge g.value _ (by omega)]; simp
      · simp [show ¬ g.pos ≤ f.pos + j by omega]

/-- The same for a field of one bit. -/
theorem assemble_bit {n p : Nat} {b : Bool} {fs : List Placed} (ok : spansOk n (fs.map Placed.span) = true)
    (mem : Placed.bit p b ∈ fs) : (assemble n fs).getLsbD p = b := by
  have e := congrArg (BitVec.getLsbD · 0) (assemble_extract ok mem)
  simpa [Placed.bit] using e

/-! ### Legal layouts -/

/-- What a legal layout gives: disjoint fields, register by register. -/
theorem layout_spans {c : Config} (ok : layoutOk c = true) :
    spansOk c.width c.layout.mstatusSpans = true ∧ spansOk c.width c.layout.mip.spans = true ∧
    spansOk c.width c.layout.mie.spans = true ∧ spansOk c.width c.layout.mcauseSpans = true := by
  simp only [layoutOk, Layout.ok, Bool.and_eq_true] at ok
  obtain ⟨⟨⟨⟨⟨⟨⟨ms, ip⟩, ie⟩, mc⟩, -⟩, -⟩, -⟩, -⟩ := ok
  exact ⟨ms, ip, ie, mc⟩

/-- The default layout is legal at every width. -/
theorem defaultLayout_ok (x : XLen) : (Layout.default x.bits).ok x.bits = true := by cases x <;> decide

theorem layoutOk_default {c : Config} (e : c.layout = Layout.default c.width) : layoutOk c = true := by
  rw [layoutOk, e]; exact defaultLayout_ok c.xlen

/-! ### `mstatus` (10_state.md R40) -/

theorem stackEntry_beyond (ms : MStatus) {k : Nat} (out : c.modes.depth ≤ k) : stackEntry c ms k = ⟨.u, false⟩ := by
  unfold stackEntry; simp [Nat.not_lt.mpr out]

theorem mstatusFields_spans (ms : MStatus) : (mstatusFields c ms).map Placed.span = c.layout.mstatusSpans := rfl

section
variable (ms : MStatus) (ok : layoutOk c = true)
include ok

theorem mstatusWord_field {f : Placed} (mem : f ∈ mstatusFields c ms) :
    (mstatusWord c ms).extractLsb' f.pos f.width = f.value := assemble_extract (layout_spans ok).1 mem

theorem mstatusWord_bit {p : Nat} {b : Bool} (mem : Placed.bit p b ∈ mstatusFields c ms) :
    (mstatusWord c ms).getLsbD p = b := assemble_bit (layout_spans ok).1 mem

/-- `IEk` of the word. -/
theorem mstatusWord_ie {k : Nat} (low : k < 4) :
    (mstatusWord c ms).getLsbD (c.layout.iePos k) = (stackEntry c ms k).ie := by
  interval_cases k <;> exact mstatusWord_bit ms ok (by simp [mstatusFields, Layout.iePos])

/-- `PRVk` of the word. -/
theorem mstatusWord_prv {k : Nat} (low : k < 4) :
    (mstatusWord c ms).extractLsb' (c.layout.prvPos k) 2 = (stackEntry c ms k).prv.code := by
  interval_cases k
  · exact mstatusWord_field ms ok (f := ⟨c.layout.prv, 2, (stackEntry c ms 0).prv.code⟩) (by simp [mstatusFields])
  · exact mstatusWord_field ms ok (f := ⟨c.layout.prv1, 2, (stackEntry c ms 1).prv.code⟩) (by simp [mstatusFields])
  · exact mstatusWord_field ms ok (f := ⟨c.layout.prv2, 2, (stackEntry c ms 2).prv.code⟩) (by simp [mstatusFields])
  · exact mstatusWord_field ms ok (f := ⟨c.layout.prv3, 2, (stackEntry c ms 3).prv.code⟩) (by simp [mstatusFields])

/-- `FS` of the word. -/
theorem mstatusWord_fs : (mstatusWord c ms).extractLsb' c.layout.fs 2 = (fsOf c ms).code :=
  mstatusWord_field ms ok (f := ⟨c.layout.fs, 2, (fsOf c ms).code⟩) (by simp [mstatusFields])

/-- `XS` of the word. -/
theorem mstatusWord_xs : (mstatusWord c ms).extractLsb' c.layout.xs 2 = (xsOf c ms).code :=
  mstatusWord_field ms ok (f := ⟨c.layout.xs, 2, (xsOf c ms).code⟩) (by simp [mstatusFields])

/-- `MPRV` of the word. -/
theorem mstatusWord_mprv : (mstatusWord c ms).getLsbD c.layout.mprv = ms.mprv :=
  mstatusWord_bit ms ok (by simp [mstatusFields])

/-- `VM` of the word. -/
theorem mstatusWord_vm : (mstatusWord c ms).extractLsb' c.layout.vm 5 = ms.vm.code :=
  mstatusWord_field ms ok (f := ⟨c.layout.vm, 5, ms.vm.code⟩) (by simp [mstatusFields])

/-- `SD` of the word (R54). -/
theorem mstatusWord_sd : (mstatusWord c ms).getLsbD c.layout.sd = sdOf c ms :=
  mstatusWord_bit ms ok (by simp [mstatusFields])

end

/-- The bits of no field read 0 (10_state.md R40, R56). -/
theorem mstatusWord_gap (ms : MStatus) {i : Nat} (out : ∀ q ∈ c.layout.mstatusSpans, i < q.1 ∨ q.1 + q.2 ≤ i) :
    (mstatusWord c ms).getLsbD i = false := assemble_out (by rw [mstatusFields_spans]; exact out)

/-! ### `mip` and `mie` -/

/-- The bit of a level and kind (10_state.md R70). -/
theorem intWord_get {l : IntLayout} (ok : spansOk c.width l.spans = true) (b : IntBits) (x : Level) (k : IntKind) :
    (intWord c l b).getLsbD (intPos l x k) = intGet c b x k :=
  assemble_bit (show spansOk c.width ((intFields c l b).map Placed.span) = true from ok)
    (by cases x <;> cases k <;> simp [intFields, intPos])

/-- Every other bit is 0 (10_state.md R70, R71). -/
theorem intWord_other {l : IntLayout} (b : IntBits) {i : Nat} (other : ∀ x k, i ≠ intPos l x k) :
    (intWord c l b).getLsbD i = false := by
  apply assemble_out
  have a1 := other .s .software; have a2 := other .h .software; have a3 := other .m .software
  have a4 := other .s .timer; have a5 := other .h .timer; have a6 := other .m .timer
  simp only [intPos] at a1 a2 a3 a4 a5 a6
  simp only [intFields, List.map_cons, List.map_nil, Placed.span, Placed.bit, List.forall_mem_cons, List.not_mem_nil,
    false_imp_iff, implies_true, and_true]
  omega

/-! ### `mcause` (10_state.md R89) -/

theorem mcauseWord_interrupt (ok : layoutOk c = true) (m : MCause) :
    (mcauseWord c m).getLsbD c.layout.interrupt = m.interrupt :=
  assemble_bit (show spansOk c.width c.layout.mcauseSpans = true from (layout_spans ok).2.2.2) (by simp)

theorem mcauseWord_code (ok : layoutOk c = true) (m : MCause) : (mcauseWord c m).extractLsb' c.layout.code 4 = m.code :=
  assemble_extract (f := ⟨c.layout.code, 4, m.code⟩)
    (show spansOk c.width c.layout.mcauseSpans = true from (layout_spans ok).2.2.2) (by simp)

theorem mcauseWord_gap (m : MCause) {i : Nat} (interrupt : i ≠ c.layout.interrupt)
    (code : i < c.layout.code ∨ c.layout.code + 4 ≤ i) : (mcauseWord c m).getLsbD i = false := by
  apply assemble_out
  simp only [List.map_cons, List.map_nil, Placed.span, Placed.bit, List.forall_mem_cons, List.not_mem_nil,
    false_imp_iff, implies_true, and_true]
  omega

/-! ### Alignment -/

theorem ialign_cases (c : Config) : c.ialign.bytes = 2 ∨ c.ialign.bytes = 4 := by
  cases c.ialign <;> simp [IAlign.bytes]

/-- Clearing the low k bits is rounding down. -/
theorem toNat_clear_low {n : Nat} (v : Word n) {k : Nat} (le : k ≤ n) :
    (v &&& ~~~(BitVec.ofNat n (2 ^ k - 1))).toNat = v.toNat - v.toNat % 2 ^ k := by
  have key : v &&& ~~~(BitVec.ofNat n (2 ^ k - 1)) = (v >>> k) <<< k := by
    apply BitVec.eq_of_getLsbD_eq
    intro i hi
    have pk : 2 ^ k - 1 < 2 ^ n := by
      have := Nat.pow_le_pow_right (n := 2) (by decide) le
      have := Nat.two_pow_pos k
      omega
    simp only [BitVec.getLsbD_and, BitVec.getLsbD_not, BitVec.getLsbD_ofNat, BitVec.getLsbD_shiftLeft,
      BitVec.getLsbD_ushiftRight, Nat.testBit_two_pow_sub_one]
    by_cases h : i < k
    · simp [hi, h]
    · have e : k + (i - k) = i := by omega
      simp [hi, h, e]
  rw [key]
  simp only [BitVec.toNat_shiftLeft, BitVec.toNat_ushiftRight, Nat.shiftRight_eq_div_pow, Nat.shiftLeft_eq]
  have split := Nat.div_add_mod v.toNat (2 ^ k)
  have bound := v.isLt
  rw [Nat.mod_eq_of_lt]
  · rw [Nat.mul_comm]; omega
  · rw [Nat.mul_comm]; omega

/-- `mepc` never holds a misaligned address (10_state.md R86, R87). -/
@[simp] theorem pcAligned_alignPc (c : Config) (v : Word c.width) : c.pcAligned (c.alignPc v) = true := by
  have w := width_ge c
  unfold Config.pcAligned Config.alignPc
  cases h : c.ialign with
  | a16 =>
    have e := toNat_clear_low v (k := 1) (by omega)
    simp only [IAlign.bytes] at e ⊢
    norm_num at e ⊢
    omega
  | a32 =>
    have e := toNat_clear_low v (k := 2) (by omega)
    simp only [IAlign.bytes] at e ⊢
    norm_num at e ⊢
    omega

/-- An aligned address keeps its low bits. -/
theorem alignPc_of_aligned {v : Word c.width} (al : c.pcAligned v = true) : c.alignPc v = v := by
  have w := width_ge c
  apply BitVec.eq_of_toNat_eq
  unfold Config.pcAligned at al
  unfold Config.alignPc
  cases h : c.ialign with
  | a16 =>
    have e := toNat_clear_low v (k := 1) (by omega)
    simp only [IAlign.bytes, h] at al e ⊢
    norm_num at al e ⊢
    omega
  | a32 =>
    have e := toNat_clear_low v (k := 2) (by omega)
    simp only [IAlign.bytes, h] at al e ⊢
    norm_num at al e ⊢
    omega

end Sys2Proof.Machine
end

