-- ==== Sys2Proof/Laws/Exec.lean ====
section
/-! SUPPORT. What an instruction of each kind can do when it goes on, said once for the six CSR instructions and once
for the five others; the fetch of an instruction half by half; facts about fairness and the vectors. -/

namespace Sys2Proof.Machine

open Sys2Proof.Safety

variable {c : Config}

/-- A CSR instruction has a destination field. -/
theorem destination_of_csrNumber {i : Instr} {a : BitVec 12} (num : csrNumber i = some a) :
    ∃ rd, destination i = some rd := by
  cases i <;> simp [csrNumber] at num <;> exact ⟨_, rfl⟩

/-- A CSR instruction that goes on completes on the register its check found, with an accepted value, or takes the Illegal
instruction trap. -/
theorem exec_csr_cases {h t : Hart c} {i : Instr} {a : BitVec 12} {rd : Reg} (num : csrNumber i = some a)
    (dst : destination i = some rd) (e : exec i ⟨c, h⟩ = .next ⟨c, t⟩) :
    (∃ (r : Csr) (v : Word c.width), csrCheck h a (writesCsr i) = .register r ∧
      (writesCsr i = true → csrRefusal c v r = none) ∧ t = csrDone h rd r (writesCsr i) v) ∨
    (handlerMode h (.exception .illegal) = .m ∧ t = trapInto h (.exception .illegal) h.pc) := by
  cases i <;> simp [csrNumber] at num <;> simp [destination] at dst <;> subst num <;> subst dst <;>
    simp only [exec, execCsrrw, execCsrrs, execCsrrc, execCsrrwi, execCsrrsi, execCsrrci] at e <;>
    rw [inState_eq_next] at e <;>
    rcases csrInstr_cases e with ⟨r, -, check, ok, done⟩ | ⟨-, trap⟩ <;>
    first | exact .inr trap | exact .inl ⟨r, _, check, ok, done⟩

/-- One of the other five that goes on takes a trap, or is ERET in M-mode. -/
theorem exec_system_cases {h t : Hart c} {i : Instr} (num : csrNumber i = none) (e : exec i ⟨c, h⟩ = .next ⟨c, t⟩) :
    (∃ exc, t = trapInto h (.exception exc) h.pc ∧ ¬(i = .eret ∧ h.cur = .m)) ∨
    (t = trapReturn h ∧ i = .eret ∧ h.cur = .m) := by
  cases i <;> simp [csrNumber] at num <;>
    simp only [exec, execEcall, execEbreak, execEret, execMrts, execMrth] at e <;> rw [inState_eq_next] at e
  · exact .inl ⟨_, (raise_eq_next.mp e).2, by simp⟩
  · exact .inl ⟨_, (raise_eq_next.mp e).2, by simp⟩
  · split at e
    · exact .inl ⟨_, (raise_eq_next.mp e).2, by simp [*]⟩
    · cases e
    · cases e
    · cases e; exact .inr ⟨rfl, rfl, by assumption⟩
  all_goals
    split at e
    · exact .inl ⟨_, (raise_eq_next.mp e).2, by simp⟩
    · split at e
      · exact .inl ⟨_, (raise_eq_next.mp e).2, by simp⟩
      · cases e

/-- Fetching an instruction passes the executable halves that its length rule wants and goes on with what the rule leaves. -/
theorem fetchRest_after (h : Hart c) (a : Word c.width) (n : Nat) {rest left : Rest} {got : List Half}
    (wants : restAfter rest ((List.range n).map (fun i => halfAt h a (got.length + i))) = some left)
    (may : ∀ i < n, allows c .execute (halfAddr a (got.length + i)) 2 = true) :
    fetchRest h a rest got = fetchRest h a left (got ++ (List.range n).map (fun i => halfAt h a (got.length + i))) := by
  induction n generalizing rest got with
  | zero => simp [restAfter] at wants; simp [wants]
  | succ n ih =>
    have shift : (List.range (n + 1)).map (fun i => halfAt h a (got.length + i)) =
        halfAt h a got.length :: (List.range n).map (fun i => halfAt h a ((got ++ [halfAt h a got.length]).length + i)) := by
      rw [List.range_succ_eq_map, List.map_cons, List.map_map]
      simp only [List.length_append, List.length_cons, List.length_nil, Nat.add_zero, Function.comp_def,
        Nat.succ_eq_add_one, Nat.add_assoc, Nat.add_comm 1]
    rw [shift] at wants ⊢
    cases rest with
    | ends => cases wants
    | goesOn next =>
      have here : allows c .execute (halfAddr a got.length) 2 = true := may 0 (Nat.succ_pos n)
      rw [fetchRest, if_pos here, ih wants fun i lt => ?_]
      · simp
      · have := may (i + 1) (Nat.succ_lt_succ lt)
        rwa [show got.length + (i + 1) = (got ++ [halfAt h a got.length]).length + i by simp; omega] at this

/-- Under fairness a run that passes boundary after boundary meets ticks again and again (70_reset_and_hazards.md R303). -/
theorem ticks_recur (run : Nat → Hart c) (fair : Fair)
    (go : ∀ n, (run (n + 1)).env = (run n).env.tail ∧ (run (n + 1)).boundary = (run n).boundary + 1) (n : Nat) :
    ∃ m, n ≤ m ∧ EnvEvent.tick ∈ dueEvents (run m) := by
  have at_ : ∀ k, (run k).boundary = (run 0).boundary + k ∧ (run k).env = (run 0).env.drop k := by
    intro k
    induction k with
    | zero => simp
    | succ k ih => rw [(go k).1, (go k).2, ih.1, ih.2]; simp [Nat.add_assoc]
  obtain ⟨m, later, tick⟩ := fair ((run 0).boundary + n + (run 0).env.length)
  obtain ⟨count, left⟩ := at_ (m - (run 0).boundary)
  have none_listed : (run (m - (run 0).boundary)).env = [] := left.trans (List.drop_eq_nil_of_le (by omega))
  refine ⟨m - (run 0).boundary, by omega, ?_⟩
  rw [dueEvents, none_listed, count, show (run 0).boundary + (m - (run 0).boundary) = m by omega]
  exact tick

/-- The stack has at most four entries. -/
theorem depth_le (c : Config) : c.modes.depth ≤ 4 := by cases c.modes <;> decide

/-- The mode a 2-bit code names has that code (10_state.md R25). -/
theorem code_ofCode (b : BitVec 2) : (Priv.ofCode b).code = b := by revert b; decide

/-- The low two bits of a word are 0 exactly when it is a multiple of four. -/
theorem and_three_eq_zero {n : Nat} (v : Word n) (wide : 2 ≤ n) : v &&& 3#n = 0 ↔ v.toNat % 4 = 0 := by
  rw [← BitVec.toNat_inj]
  simp only [BitVec.toNat_and, BitVec.toNat_ofNat]
  have small : 3 % 2 ^ n = 2 ^ 2 - 1 := by
    have le := Nat.pow_le_pow_right (n := 2) (by decide) wide
    exact Nat.mod_eq_of_lt (Nat.lt_of_lt_of_le (by decide) le)
  rw [small, Nat.and_two_pow_sub_one_eq_mod]
  simp

/-- Both standard values of `mtvec` are multiples of four (10_state.md R58). -/
theorem mtvecReset_low (c : Config) : c.mtvecReset.toNat % 4 = 0 := by
  unfold Config.mtvecReset
  split <;> simp only [BitVec.toNat_neg, BitVec.toNat_ofNat] <;> rcases width_cases c with w | w | w <;> rw [w]

end Sys2Proof.Machine
end

