-- ==== Sys2Proof/Laws/PerInstr.lean ====
section
/-! SUPPORT. What the encoding gives every instruction: the SYSTEM opcode and the low bits of a 32-bit instruction
(30_encoding.md R130), one lemma an instruction. -/

namespace Sys2Proof.Laws.SystemWord

/-- The word has the SYSTEM opcode and ends in 0b11 (30_encoding.md R130). -/
def Statement (i : Instr) : Prop := fieldOpcode (encode i) = 0x73#7 ∧ (encode i).extractLsb' 0 2 = 0b11#2

/-- A packed word ends in 0b11, because its opcode does. -/
theorem pack_low (f12 : BitVec 12) (s1 : BitVec 5) (f3 : BitVec 3) (d : BitVec 5) :
    (packSystem f12 s1 f3 d).extractLsb' 0 2 = 0b11#2 := by
  apply BitVec.eq_of_getLsbD_eq
  intro i hi
  simp only [BitVec.getLsbD_extractLsb', pack_bit]
  interval_cases i <;> simp

theorem csrrw (rd : Reg) (a : BitVec 12) (rs1 : Reg) : Statement (.csrrw rd a rs1) :=
  ⟨fieldOpcode_pack _ _ _ _, pack_low _ _ _ _⟩

theorem csrrs (rd : Reg) (a : BitVec 12) (rs1 : Reg) : Statement (.csrrs rd a rs1) :=
  ⟨fieldOpcode_pack _ _ _ _, pack_low _ _ _ _⟩

theorem csrrc (rd : Reg) (a : BitVec 12) (rs1 : Reg) : Statement (.csrrc rd a rs1) :=
  ⟨fieldOpcode_pack _ _ _ _, pack_low _ _ _ _⟩

theorem csrrwi (rd : Reg) (a : BitVec 12) (z : BitVec 5) : Statement (.csrrwi rd a z) :=
  ⟨fieldOpcode_pack _ _ _ _, pack_low _ _ _ _⟩

theorem csrrsi (rd : Reg) (a : BitVec 12) (z : BitVec 5) : Statement (.csrrsi rd a z) :=
  ⟨fieldOpcode_pack _ _ _ _, pack_low _ _ _ _⟩

theorem csrrci (rd : Reg) (a : BitVec 12) (z : BitVec 5) : Statement (.csrrci rd a z) :=
  ⟨fieldOpcode_pack _ _ _ _, pack_low _ _ _ _⟩

theorem ecall : Statement .ecall := ⟨fieldOpcode_pack _ _ _ _, pack_low _ _ _ _⟩

theorem ebreak : Statement .ebreak := ⟨fieldOpcode_pack _ _ _ _, pack_low _ _ _ _⟩

theorem eret : Statement .eret := ⟨fieldOpcode_pack _ _ _ _, pack_low _ _ _ _⟩

theorem mrts : Statement .mrts := ⟨fieldOpcode_pack _ _ _ _, pack_low _ _ _ _⟩

theorem mrth : Statement .mrth := ⟨fieldOpcode_pack _ _ _ _, pack_low _ _ _ _⟩

end Sys2Proof.Laws.SystemWord
end

