-- ==== Sys2Proof/Tests/Slice0.lean ====
section
/-! SUPPORT. Tests with the spec's own expected values (95_test_vectors.md; each comment names the vector), decoding of words
written out from 30_encoding.md, ill-formed instructions that the check refuses, and for every statement with hypotheses a
state and operands that meet them. -/

namespace Sys2Proof.Tests

open Sys2Proof.Machine Sys2Proof.Safety

/-! ### Small states -/

def um : Config := { Config.default with modes := .um, mcpuid := 0x00100100#32 }
def usm : Config := { Config.default with modes := .usm, mcpuid := 0x00140100#32, mtdelegW := 0x108#32 }
def ushm : Config := { Config.default with modes := .ushm, mcpuid := 0x00140180#32 }
def rve : Config := { Config.default with rve := true, mcpuid := 0x40000010#32 }
def nmi : Config := { Config.default with nmiPresent := true }
/-- `PMEM` of 95_test_vectors.md section 2.10. -/
def small : Config := { Config.default with pmem := [⟨0x100, 0x200, true, true, true⟩] }
def small16 : Config := { small with ialign := .a16 }
/-- `MTVEC_W` = bits 31 and 12 to 8. -/
def vec : Config := { Config.default with mtvecW := 0x80001F00#32 }
def fpu : Config := { Config.default with hasFpu := true }
def paged : Config := { usm with vmSupported := [.mbare, .sv32] }
def lax : Config := { Config.default with misaligned := .perform }
/-- Another legal layout and another legal table of addresses. -/
def moved : Config :=
  { Config.default with
    layout := { Layout.default 32 with mprv := 22, interrupt := 4, mie := { IntLayout.default with mtimer := 30 } }
    csrAddr := { CsrAddresses.default with mscratch := 0x7C0 } }
/-- A vector entry of its own for calls from U: slot 0x40. -/
def own : Config := { um with extraVectors := [⟨false, 8, 0x40⟩] }

/-- A hart just reset but for its `mstatus` word and `pc`, with no event at the next boundary. -/
def at_ (c : Config) (ms pc : Nat) : Hart c :=
  { Hart.reset c with
    mstatus := mstatusPut c (MStatus.reset c) (BitVec.ofNat c.width ms)
    pc := BitVec.ofNat c.width pc
    env := [[]] }

def withReg {c : Config} (h : Hart c) (r : Reg) (v : Nat) : Hart c := h.setReg r (BitVec.ofNat c.width v)

/-- One step of the instruction word `w` from `h`. -/
def run {c : Config} (h : Hart c) (w : Nat) : Host.Outcome State Fault Refusal :=
  step (State.withFetchWord ⟨c, h⟩ 32 w)

/-- The outcome is a next state with this property. -/
def goesTo (o : Host.Outcome State Fault Refusal) (p : State → Bool) : Bool :=
  match o with
  | .next s => p s
  | .fault _ => false
  | .refused _ => false

/-- A CSR of a state, as a number. -/
def csr (s : State) (r : Csr) : Nat := (csrRead s.hart r).toNat
def reg (s : State) (r : Reg) : Nat := (s.hart.reg r).toNat
def pcOf (s : State) : Nat := s.hart.pc.toNat

/-- The state just after a trap: `mcause`, `mepc`, `mstatus`, `pc`. -/
def trapped (s : State) (cause epc ms pc : Nat) : Bool :=
  csr s .mcause == cause && csr s .mepc == epc && csr s .mstatus == ms && pcOf s == pc

/-! ### Well-formedness (30_encoding.md R132): one ill-formed term for each check -/

theorem test_wellFormed_rd : (Instr.csrrw 16 0x340 1).wellFormed rve = false := by decide
theorem test_wellFormed_rs1 : (Instr.csrrw 1 0x340 16).wellFormed rve = false := by decide
theorem test_wellFormed_csrrs : (Instr.csrrs 16 0x340 1).wellFormed rve = false ∧
    (Instr.csrrs 1 0x340 31).wellFormed rve = false := by decide
theorem test_wellFormed_csrrc : (Instr.csrrc 31 0x340 1).wellFormed rve = false ∧
    (Instr.csrrc 1 0x340 16).wellFormed rve = false := by decide
theorem test_wellFormed_immediate : (Instr.csrrwi 16 0x340 1).wellFormed rve = false ∧
    (Instr.csrrsi 16 0x340 1).wellFormed rve = false ∧ (Instr.csrrci 16 0x340 1).wellFormed rve = false := by decide
/-- `x15` and a `zimm` of 31 are legal with RV32E, `x31` with RV32I. -/
theorem test_wellFormed_legal : (Instr.csrrw 15 0x340 15).wellFormed rve = true ∧
    (Instr.csrrwi 15 0x340 31).wellFormed rve = true ∧ (Instr.csrrw 31 0x340 31).wellFormed um = true := by decide

/-! ### Decoding: csr | rs1 or zimm | funct3 | rd | opcode (30_encoding.md R131), written out bit by bit -/

theorem test_decode_csrrw :
    decodeWord 0b001101000000_00110_001_00101_1110011#32 = .ok (.csrrw 5 0x340 6) := by rfl
theorem test_decode_csrrs :
    decodeWord 0b111100000000_00000_010_00101_1110011#32 = .ok (.csrrs 5 0xF00 0) := by rfl
theorem test_decode_csrrc :
    decodeWord 0b001100000100_00111_011_00000_1110011#32 = .ok (.csrrc 0 0x304 7) := by rfl
theorem test_decode_csrrwi :
    decodeWord 0b001101000010_11111_101_00000_1110011#32 = .ok (.csrrwi 0 0x342 31) := by rfl
theorem test_decode_csrrsi :
    decodeWord 0b001100000000_00001_110_00000_1110011#32 = .ok (.csrrsi 0 0x300 1) := by rfl
theorem test_decode_csrrci :
    decodeWord 0b001100000000_00110_111_00000_1110011#32 = .ok (.csrrci 0 0x300 6) := by rfl
theorem test_decode_ecall : decodeWord 0b000000000000_00000_000_00000_1110011#32 = .ok .ecall := by rfl
theorem test_decode_ebreak : decodeWord 0b000000000001_00000_000_00000_1110011#32 = .ok .ebreak := by rfl
theorem test_decode_eret : decodeWord 0b000100000000_00000_000_00000_1110011#32 = .ok .eret := by rfl
theorem test_decode_mrts : decodeWord 0b001100000101_00000_000_00000_1110011#32 = .ok .mrts := by rfl
theorem test_decode_mrth : decodeWord 0b001100000110_00000_000_00000_1110011#32 = .ok .mrth := by rfl
/-- Section 2.9: `rd` not 0, an unknown function code, WFI of the draft, funct3 = 0b100, another opcode. -/
theorem test_decode_refuses :
    decodeWord 0x000000F3#32 = .error .noPrivileged ∧ decodeWord 0x00200073#32 = .error .noPrivileged ∧
    decodeWord 0x10200073#32 = .error .noPrivileged ∧ decodeWord 0x00004073#32 = .error .reservedFunct3 ∧
    decodeWord 0x00000013#32 = .error .notSystem := ⟨rfl, rfl, rfl, rfl, rfl⟩
/-- 30_encoding.md R139: all ones has opcode 0x7F, so no row matches it; section 2.9 calls it CSRRCI (log entry 25). -/
theorem test_decode_all_ones : decodeWord 0xFFFFFFFF#32 = .error .notSystem := by rfl
/-- Section 2.7: the words of vectors 1, 17 and 23, as the encoder writes them. -/
theorem test_encode : encode (.csrrw 5 0x340 6) = 0x340312F3#32 ∧ encode (.csrrc 0 0x304 7) = 0x3043B073#32 ∧
    encode (.csrrci 0 0x300 6) = 0x30037073#32 := by decide
/-- Section 2.10: byte order of a stored word. -/
theorem test_encode_bytes : encodeBytes (.csrrwi 0 0x340 5) = [0x73, 0xD0, 0x02, 0x34] := by decide

/-! ### One step of each instruction -/

section
set_option maxRecDepth 8000

/-- Section 2.7, vector 2: the swap with `rd` = `rs1`. -/
theorem test_csrrw_swaps : goesTo
    (run { withReg (at_ .default 0x36 0x200) 10 0x11111111 with mscratch := 0x80001000#32 } 0x34051573)
    (fun s => reg s 10 == 0x80001000 && csr s .mscratch == 0x11111111 && pcOf s == 0x204) = true := by decide
/-- Section 2.7, vector 5: a write to a read-only register. -/
theorem test_csrrw_read_only : goesTo (run (at_ .default 0x36 0x200) 0xF0029073)
    (fun s => trapped s 2 0x200 0x36 0x1C0) = true := by decide
/-- Section 2.7, vector 29. -/
theorem test_csrrs_sets : goesTo
    (run { withReg (at_ .default 0x36 0x200) 5 0xF0 with mscratch := 0x0F#32 } 0x3402A073)
    (fun s => csr s .mscratch == 0xFF && reg s 0 == 0) = true := by decide
/-- Section 2.7, vector 4: `rs1` is not `x0`, so it is a write although the value is 0. -/
theorem test_csrrs_zero_value_writes : goesTo (run (at_ .default 0x36 0x200) 0xF002A073)
    (fun s => trapped s 2 0x200 0x36 0x1C0) = true := by decide
/-- Section 2.7, vector 17. -/
theorem test_csrrc_clears : goesTo
    (run { withReg (at_ .default 0x36 0x200) 7 0x80 with mie := ⟨false, false, true, false, false, true⟩ } 0x3043B073)
    (fun s => csr s .mie == 0x08) = true := by decide
/-- Section 2.7, vector 10: bit 4 is a middle bit of `mcause`. -/
theorem test_csrrwi_mcause : goesTo (run (at_ .default 0x36 0x200) 0x342FD073)
    (fun s => csr s .mcause == 0x0F) = true := by decide
/-- Section 2.6: a write of `mtimecmp` clears MTIP. -/
theorem test_csrrwi_mtimecmp : goesTo
    (run { at_ .default 0x36 0x200 with
      mtime := 13#64, mtimecmp := 12#32, mip := ⟨false, false, false, false, false, true⟩ } 0x3211D073)
    (fun s => csr s .mtimecmp == 3 && csr s .mip == 0) = true := by decide
/-- Section 2.7, vector 20. -/
theorem test_csrrsi_mstatus : goesTo (run (at_ .default 0x36 0x200) 0x3000E073)
    (fun s => csr s .mstatus == 0x37) = true := by decide
/-- Section 2.7, vector 19: an immediate of 0 writes nothing. -/
theorem test_csrrsi_reads : goesTo (run { at_ .default 0x36 0x200 with mscratch := 0x77#32 } 0x340062F3)
    (fun s => reg s 5 == 0x77 && csr s .mscratch == 0x77) = true := by decide
/-- Section 2.7, vector 23: into U-mode. -/
theorem test_csrrci_leaves_machine_mode : goesTo (run (at_ um 0x0E 0x200) 0x30037073)
    (fun s => csr s .mstatus == 0x08 && s.hart.cur == .u) = true := by decide
/-- Section 2.7, vector 22: hardwired `PRV`. -/
theorem test_csrrci_hardwired : goesTo (run (at_ .default 0x36 0x200) 0x30037073)
    (fun s => csr s .mstatus == 0x36) = true := by decide
/-- Section 2.8, vector 1. -/
theorem test_ecall_machine : goesTo (run (at_ .default 0x37 0x208) 0x00000073)
    (fun s => trapped s 0xB 0x208 0x3E 0x1C0) = true := by decide
/-- Section 2.8, vector 2. -/
theorem test_ecall_user : goesTo (run (at_ um 0x09 0x404) 0x00000073)
    (fun s => trapped s 8 0x404 0x0E 0x100) = true := by decide
/-- Section 2.8, vector 3. -/
theorem test_ebreak : goesTo (run (at_ .default 0x36 0x300) 0x00100073)
    (fun s => trapped s 3 0x300 0x36 0x1C0) = true := by decide
/-- Section 2.8, vector 5. -/
theorem test_eret_to_user : goesTo (run { at_ um 0x0E 0x200 with mepc := 0x400#32 } 0x10000073)
    (fun s => csr s .mstatus == 0x09 && pcOf s == 0x400 && csr s .mepc == 0x400 && s.hart.cur == .u) = true := by decide
/-- Section 2.8, vector 6. -/
theorem test_eret_user : goesTo (run (at_ um 0x09 0x400) 0x10000073)
    (fun s => trapped s 2 0x400 0x0E 0x100) = true := by decide
/-- Section 2.8, vector 7. -/
theorem test_mrts_absent : goesTo (run (at_ um 0x0E 0x1C4) 0x30500073)
    (fun s => trapped s 2 0x1C4 0x36 0x1C0) = true := by decide
/-- Section 2.8, vector 9. -/
theorem test_mrts_present : run (at_ usm 0x4E 0x200) 0x30500073 = .refused .mrtsRedirect := by rfl
/-- Section 2.8, vector 8. -/
theorem test_mrth_user : goesTo (run (at_ um 0x09 0x400) 0x30600073)
    (fun s => trapped s 2 0x400 0x0E 0x100) = true := by decide
/-- 10_state.md R96: a CSR of S level, on a hart with S from M-mode, from U-mode, and on a hart without S. -/
theorem test_csrrs_lower_level :
    run (at_ usm 0x4E 0x200) 0x100022F3 = .refused .lowerLevelCsr ∧
    goesTo (run (at_ usm 0x49 0x400) 0x100022F3) (fun s => csr s .mcause == 2) = true ∧
    goesTo (run (at_ um 0x0E 0x200) 0x100022F3) (fun s => trapped s 2 0x200 0x36 0x1C0) = true :=
  ⟨rfl, by decide, by decide⟩
/-- 41_system_instructions.md R195: refused with H present. -/
theorem test_mrth_present : run (at_ ushm 0x24E 0x200) 0x30600073 = .refused .mrthRedirect := by rfl

/-! ### The shared operations -/

/-- Section 2.1, last row: the push and the pop of a stack of depth 3. -/
theorem test_stack_depth_three :
    (mstatusWord usm (pushStack usm .m (at_ usm 0xC9 0).mstatus)).toNat = 0x4E ∧
    (mstatusWord usm (popStack usm (at_ usm 0xC9 0).mstatus)).toNat = 0x59 := by decide
/-- Section 2.3: the timer interrupt from U with `IE` = 0 in {U, M}, and not from M with `IE` = 0. -/
theorem test_takeable :
    takeable { at_ um 0x08 0 with mip := ⟨false, false, false, false, false, true⟩,
                                  mie := ⟨false, false, false, false, false, true⟩ } .m .timer = true ∧
    takeable { at_ um 0x0E 0 with mip := ⟨false, false, false, false, false, true⟩,
                                  mie := ⟨false, false, false, false, false, true⟩ } .m .timer = false := by decide
/-- Section 2.3: what a taken timer interrupt records; `mip` keeps MTIP. -/
theorem test_interrupt_records : goesTo
    (run { at_ .default 0x3F 0x20C with mip := ⟨false, false, false, false, false, true⟩,
                                        mie := ⟨false, false, false, false, false, true⟩ } 0x00000073)
    (fun s => trapped s 0x80000001 0x20C 0x3E 0x1C0 && csr s .mip == 0x80) = true := by decide
/-- Section 2.4, `MTVEC_W` = bits 31 and 12 to 8. -/
theorem test_mtvec_writes :
    (mtvecPut vec 0x100#32 0x80000000#32).toNat = 0xFFFFE000 ∧ (mtvecPut vec 0x100#32 0x12345678#32).toNat = 0x1600 ∧
    (mtvecPut vec 0x100#32 0x7FFFFFFF#32).toNat = 0x1F00 ∧
    (mtvecPut vec 0x100#32 0xFFFFFFFF#32).toNat = 0xFFFFFF00 := by decide
/-- Section 2.5: `FS` = Dirty sets `SD`; entries 2 and 3 are ignored. -/
theorem test_mstatus_writes :
    (csrRead (csrPut (Hart.reset fpu) 0x3000#32 .mstatus) .mstatus).toNat = 0x80003036 ∧
    (csrRead (csrPut (Hart.reset .default) 0x1FFFF#32 .mstatus) .mstatus).toNat = 0x1003F := by decide
/-- Section 2.6: the tick across the low 32 bits. -/
theorem test_tick_wraps :
    (afterEvents { Hart.reset .default with mtime := 0x1FFFFFFFF#64, env := [[.tick]] }).mip.mtimer = true ∧
    (afterEvents { Hart.reset .default with mtime := 0x1FFFFFFFF#64, env := [[.tick]] }).mtime.toNat = 0x200000000 := by
  decide
/-- Section 1, S12: a 32-bit instruction whose second half cannot be executed. -/
theorem test_fetch_second_half : goesTo (step ⟨{ small16 with pmem := [⟨0x100, 0x200, true, true, true⟩] }, at_ _ 0x36 0x2FE⟩)
    (fun s => csr s .mcause == 1 && csr s .mepc == 0x2FE && csr s .mbadaddr == 0x300) = true := by decide
/-- Section 2.10: the cause and address of a data access fault, from a base ISA that stores four bytes at 0x300. -/
theorem test_store_access_fault : goesTo
    (inState small (runBase (at_ small 0x36 0x200) (at_ small 0x36 0x200) (.store 0x300#32 4 0#32 .refuse)))
    (fun s => csr s .mcause == 7 && csr s .mbadaddr == 0x300) = true := by decide
/-- 60_exceptions.md R240: an entry of its own; from M the shared one. -/
theorem test_extra_vector :
    goesTo (run (at_ own 0x09 0x404) 0x00000073) (fun s => pcOf s == 0x200) = true ∧
    goesTo (run (at_ own 0x0E 0x208) 0x00000073) (fun s => pcOf s == 0x1C0) = true := by decide
/-- 00_scope.md R7: fields and addresses of a hart with other parameters. -/
theorem test_moved :
    layoutOk moved = true ∧ csrAddrOk moved = true ∧
    (csrRead (csrPut (Hart.reset moved) 0x400000#32 .mstatus) .mstatus).toNat = 0x400036 ∧
    (csrRead (csrPut (Hart.reset moved) 0x1B#32 .mcause) .mcause).toNat = 0x1B ∧
    (csrRead (csrPut (Hart.reset moved) 0x40000080#32 .mie) .mie).toNat = 0x40000000 ∧
    csrOfAddr moved 0x7C0 = some .mscratch ∧ csrOfAddr moved 0x340 = none := by decide
/-- 70_reset_and_hazards.md R296: memory from 0x180 on holds the entry from M, not those from U and S. -/
theorem test_platform :
    platformBoots { Config.default with pmem := [⟨0x180, 0x200, true, true, true⟩] } = true ∧
    platformBoots { um with pmem := [⟨0x180, 0x200, true, true, true⟩] } = false ∧
    platformBoots { usm with pmem := [⟨0x100, 0x40, true, true, true⟩, ⟨0x180, 0x200, true, true, true⟩] } = false ∧
    platformBoots { nmi with pmem := [⟨0x180, 0x7C, true, true, true⟩, ⟨0x200, 4, true, true, true⟩] } = false := by decide
/-- Section 2.11: reset values of the two vectors, low and high, and `mstatus`. -/
theorem test_reset :
    (Hart.reset .default).pc.toNat = 0x200 ∧ (csrRead (Hart.reset .default) .mtvec).toNat = 0x100 ∧
    (csrRead (Hart.reset .default) .mstatus).toNat = 0x36 ∧
    (Hart.reset { Config.default with vecHigh := true }).pc.toNat = 0xFFFFFF00 := by decide

end

/-! ### Witnesses: for every statement with hypotheses, a state and operands that meet them, clause by clause -/

section
set_option maxRecDepth 8000

/-- The bytes of a word at `pc`. -/
def withWord {c : Config} (h : Hart c) (w : Nat) : Hart c := (State.withFetchWord ⟨c, h⟩ 32 w).hart

/-- U-mode with calls from U and breakpoints delegated. -/
def delegated : Hart usm := { at_ usm 0x49 0x400 with mtdeleg := 0x108#32 }
def timerOn : IntBits := ⟨false, false, false, false, false, true⟩
def softwareOn : IntBits := ⟨false, false, true, false, false, false⟩
def allOn : IntBits := ⟨true, true, true, true, true, true⟩
/-- A base ISA that claims every word and does nothing but go on. -/
def idle : BaseISA := { act := fun _ _ x pc => some (.done x (pc + 4)) }
/-- A base ISA whose instructions are one half where its low two bits are not 11, three halves where it is 0x1F, and two
halves otherwise; each only goes on. -/
def lengths : BaseISA where
  rest _ first :=
    if first &&& 3 ≠ 3 then .ends
    else if first = 0x1F then .goesOn (fun _ => .goesOn (fun _ => .ends))
    else .goesOn (fun _ => .ends)
  act c halves x pc := some (.done x (pc + BitVec.ofNat c.width (2 * halves.length)))

theorem test_witness_DecodedWordEncodesBack : decodeWord 0x340312F3#32 = .ok (.csrrw 5 0x340 6) := by rfl

theorem test_witness_MasksDecideTheInstruction :
    (0x340312F3#32 &&& 0x707F#32 = 0x1073#32) ∧ (0xF00022F3#32 &&& 0x707F#32 = 0x2073#32) ∧
    (0x3043B073#32 &&& 0x707F#32 = 0x3073#32) ∧ (0x342FD073#32 &&& 0x707F#32 = 0x5073#32) ∧
    (0x3000E073#32 &&& 0x707F#32 = 0x6073#32) ∧ (0x30037073#32 &&& 0x707F#32 = 0x7073#32) ∧
    (0x00200073#32 &&& 0x707F#32 = 0x0073#32) ∧ 0x00200073#32 ≠ 0x00000073#32 ∧ 0x00200073#32 ≠ 0x00100073#32 ∧
    0x00200073#32 ≠ 0x10000073#32 ∧ 0x00200073#32 ≠ 0x30500073#32 ∧ 0x00200073#32 ≠ 0x30600073#32 := by decide

/-- In `step`; with a base ISA that is not offered the word; and one that is, which claims it or not. -/
theorem test_witness_StepRunsTheDecodedInstruction :
    let h := withWord (at_ .default 0x36 0x200) 0x3402D073
    let g := withWord (at_ .default 0x36 0x200) 0xC00022F3
    (NoInterruptDue h ∧ Config.default.pcAligned h.pc = true ∧ h.mstatus.vm = .mbare ∧
      allows .default .execute h.pc 4 = true ∧ decodeBytes (h.mem.readBytes h.pc 4) = .ok (.csrrwi 0 0x340 5, []) ∧
      csrOfAddr .default 0x340 ≠ none) ∧
    (NoInterruptDue g ∧ decodeBytes (g.mem.readBytes g.pc 4) = .ok (.csrrs 5 0xC00 0, []) ∧
      csrNumber (.csrrs 5 0xC00 0) = some 0xC00#12 ∧ (Instr.csrrs 5 0xC00 0).wellFormed .default = true ∧
      csrOfAddr .default 0xC00 = none ∧ ¬(g.cur.code < BitVec.extractLsb' 8 2 0xC00#12) ∧
      writesCsr (.csrrs 5 0xC00 0) = false) ∧
    (idle.act .default (wordHalves 0xC00022F3#32) ((afterEvents g).x.set 0 0) g.pc).isSome = true ∧
    BaseISA.none.act .default (wordHalves 0xC00022F3#32) ((afterEvents g).x.set 0 0) g.pc = none :=
  ⟨⟨⟨rfl, rfl⟩, by decide, rfl, by decide, rfl, by decide⟩,
   ⟨⟨rfl, rfl⟩, rfl, rfl, rfl, rfl, by decide, rfl⟩, rfl, rfl⟩

/-- A base ISA that claims a CSR address of no register here runs the word; one that claims nothing leaves it illegal. -/
theorem test_base_claims_an_address :
    goesTo (stepWith idle ⟨_, withWord (at_ .default 0x36 0x200) 0xC00022F3⟩) (fun s => pcOf s == 0x204) = true ∧
    goesTo (run (at_ .default 0x36 0x200) 0xC00022F3) (fun s => trapped s 2 0x200 0x36 0x1C0) = true := by decide

/-- 20_memory.md R106, 30_encoding.md R144: a half in the last two executable bytes is an instruction of its own; three
halves of which the third cannot be executed fault there; a word of the table is one whatever the base ISA. -/
theorem test_lengths :
    goesTo (stepWith lengths ⟨_, withWord (at_ small16 0x36 0x2FE) 0x0001⟩) (fun s => pcOf s == 0x300) = true ∧
    goesTo (stepWith lengths ⟨_, withWord (at_ small16 0x36 0x2F8) 0x001F⟩) (fun s => pcOf s == 0x2FE) = true ∧
    goesTo (stepWith lengths ⟨_, withWord (at_ small16 0x36 0x2FC) 0x001F⟩)
      (fun s => csr s .mcause == 1 && csr s .mepc == 0x2FC && csr s .mbadaddr == 0x300) = true ∧
    goesTo (stepWith lengths ⟨_, withWord (at_ small16 0x36 0x202) 0x00000073⟩) (fun s => csr s .mcause == 11) = true := by
  decide

/-- With and without a base ISA that claims the word; an instruction of one half, of two and of three. -/
theorem test_witness_UnmatchedWordIsIllegal :
    let h := withWord (at_ .default 0x36 0x200) 0x00200073
    let one := withWord (at_ small16 0x36 0x2FE) 0x0001
    let two := withWord (at_ small16 0x36 0x2FC) 0x0013
    let three := withWord (at_ small16 0x36 0x2FA) 0x001F
    (NoInterruptDue h ∧ fetch (afterEvents h) (afterEvents h).pc = .ok 0x00200073#32 ∧
      decodeWord 0x00200073#32 = .error .noPrivileged ∧ Config.default.ialign = .a32 ∧
      BaseISA.none.act .default (wordHalves 0x00200073#32) ((afterEvents h).x.set 0 0) (afterEvents h).pc = none ∧
      (idle.act .default (wordHalves 0x00200073#32) ((afterEvents h).x.set 0 0) (afterEvents h).pc).isSome = true) ∧
    (NoInterruptDue one ∧ small16.ialign = .a16 ∧ small16.pcAligned one.pc = true ∧ one.mstatus.vm = .mbare ∧
      restAfter (lengths.rest small16 (halfAt one one.pc 0)) [] = some .ends ∧
      allows small16 .execute one.pc 2 = true ∧ fetch one one.pc = .raise (.instAccess 0x300#32)) ∧
    (NoInterruptDue two ∧ restAfter (lengths.rest small16 (halfAt two two.pc 0)) [halfAt two two.pc 1] = some .ends ∧
      allows small16 .execute two.pc 4 = true ∧ decodeWord 0x0013#32 = .error .notSystem) ∧
    (NoInterruptDue three ∧
      restAfter (lengths.rest small16 (halfAt three three.pc 0)) [halfAt three three.pc 1, halfAt three three.pc 2] =
        some .ends ∧
      allows small16 .execute three.pc 6 = true ∧ decodeWord 0x001F#32 = .error .notSystem) :=
  ⟨⟨⟨rfl, rfl⟩, rfl, rfl, rfl, rfl, rfl⟩, ⟨⟨rfl, rfl⟩, rfl, rfl, rfl, rfl, rfl, rfl⟩, ⟨⟨rfl, rfl⟩, rfl, rfl, rfl⟩,
   ⟨⟨rfl, rfl⟩, rfl, rfl, rfl⟩⟩

/-- In M-mode, and in U-mode with bit 2 of `mtdeleg` 0. -/
theorem test_witness_ReservedFunct3IsIllegal :
    let h := withWord (at_ .default 0x36 0x200) 0x00004073
    let u := withWord (at_ um 0x09 0x400) 0x00004073
    (NoInterruptDue h ∧ fetch (afterEvents h) (afterEvents h).pc = .ok 0x00004073#32 ∧ h.cur = .m) ∧
    (NoInterruptDue u ∧ fetch (afterEvents u) (afterEvents u).pc = .ok 0x00004073#32 ∧ u.cur = .u ∧
      (csrRead u .mtdeleg).getLsbD 2 = false) ∧
    (Config.default.ialign = .a32 ∧
      BaseISA.none.act .default (wordHalves 0x00004073#32) ((afterEvents h).x.set 0 0) (afterEvents h).pc = none) ∧
    BitVec.extractLsb' 0 7 0x00004073#32 = 0b1110011#7 ∧ BitVec.extractLsb' 12 3 0x00004073#32 = 0b100#3 :=
  ⟨⟨⟨rfl, rfl⟩, rfl, rfl⟩, ⟨⟨rfl, rfl⟩, rfl, rfl, rfl⟩, ⟨rfl, rfl⟩, rfl, rfl⟩

/-- Both kinds. -/
theorem test_witness_InterruptTakenBeforeTheFetch :
    let h : Hart .default := { at_ .default 0x3F 0x20C with mip := timerOn, mie := timerOn }
    let g : Hart .default := { at_ .default 0x3F 0x20C with mip := softwareOn, mie := softwareOn }
    nmiDue h = false ∧ chooseInterrupt (afterEvents h) = some ((.m, .timer), afterEvents h) ∧
    nmiDue g = false ∧ chooseInterrupt (afterEvents g) = some ((.m, .software), afterEvents g) := ⟨rfl, rfl, rfl, rfl⟩

/-- One takeable interrupt; several, of which one is chosen; none. -/
theorem test_witness_ChosenInterruptIsTakeable :
    let h : Hart .default := { at_ .default 0x3F 0x20C with mip := timerOn, mie := timerOn }
    let two : Hart .default := { at_ .default 0x3F 0x20C with mip := allOn, mie := allOn }
    chooseInterrupt h = some ((.m, .timer), h) ∧ takeables two = [(.m, .software), (.m, .timer)] ∧
    (chooseInterrupt two).isSome = true ∧ chooseInterrupt (at_ .default 0x3F 0x20C) = none := ⟨rfl, rfl, rfl, rfl⟩

theorem test_witness_NmiEntersAtItsVector :
    let h : Hart nmi := { at_ nmi 0x36 0x200 with env := [[.tick, .nmi]] }
    nmi.nmiPresent = true ∧ EnvEvent.nmi ∈ dueEvents h := by decide

/-- Listed events, and free ones; a step that goes on. -/
theorem test_witness_EventsChangeOnlyTimerAndPending :
    let h : Hart .default := { at_ .default 0x36 0x200 with mip := timerOn, env := [[.tick, .remoteMsip true]] }
    h.mip.mtimer = true ∧ h.env = [.tick, .remoteMsip true] :: [] ∧ (afterEvents h).mip.msoft = true ∧
    (Hart.reset .default).env = [] ∧ goesTo (stepWith idle ⟨_, h⟩) (fun _ => true) = true :=
  ⟨rfl, rfl, rfl, rfl, by decide⟩

/-- Clause by clause, at the edges of `PMEM`: misaligned; another scheme; outside, with 32-bit alignment; outside in the
second half only, with 16-bit alignment; the last word inside. -/
theorem test_witness_FetchOutcomes :
    small.pcAligned (0x2FE#32 : Word small.width) = false ∧
    (paged.pcAligned (0x200#32 : Word paged.width) = true ∧ (at_ paged 0x10004E 0x200).mstatus.vm = .sv32) ∧
    (small.pcAligned (0x300#32 : Word small.width) = true ∧ small.ialign = .a32 ∧
      allows small .execute (0x300#32 : Word small.width) 4 = false) ∧
    (small16.pcAligned (0x2FE#32 : Word small16.width) = true ∧ small16.ialign = .a16 ∧
      allows small16 .execute (0x2FE#32 : Word small16.width) 4 = false ∧
      allows small16 .execute (0x2FE#32 : Word small16.width) 2 = true) ∧
    (small16.pcAligned (0x300#32 : Word small16.width) = true ∧
      allows small16 .execute (0x300#32 : Word small16.width) 2 = false) ∧
    (small.pcAligned (0x2FC#32 : Word small.width) = true ∧
      allows small .execute (0x2FC#32 : Word small.width) 4 = true) := by decide

/-- In `step`; and with a base ISA, three halves of which the third, or the second and third, cannot be executed. -/
theorem test_witness_FetchAccessFaultTraps :
    let h := at_ small 0x36 0x300
    let third := withWord (at_ small16 0x36 0x2FC) 0x001F
    let second := withWord (at_ small16 0x36 0x2FE) 0x001F
    (NoInterruptDue h ∧ small.pcAligned h.pc = true ∧ h.mstatus.vm = .mbare ∧ allows small .execute h.pc 4 = false ∧
      h.cur = .m) ∧
    (NoInterruptDue third ∧ small16.ialign = .a16 ∧ small16.pcAligned third.pc = true ∧ third.mstatus.vm = .mbare ∧
      restAfter (lengths.rest small16 (halfAt third third.pc 0)) [halfAt third third.pc 1] = some (.goesOn fun _ => .ends) ∧
      allows small16 .execute third.pc 4 = true ∧ allows small16 .execute (third.pc + 4) 2 = false ∧
      fetch third third.pc = .ok 0x001F#32 ∧ decodeWord 0x001F#32 = .error .notSystem) ∧
    (NoInterruptDue second ∧ allows small16 .execute second.pc 2 = true ∧
      allows small16 .execute (second.pc + 2) 2 = false ∧ fetch second second.pc = .raise (.instAccess 0x300#32)) :=
  ⟨⟨⟨rfl, rfl⟩, by decide, rfl, by decide, rfl⟩, ⟨⟨rfl, rfl⟩, rfl, rfl, rfl, rfl, rfl, rfl, rfl, rfl⟩,
   ⟨⟨rfl, rfl⟩, rfl, rfl, rfl⟩⟩

theorem test_witness_NonMbareAccessesAreRefused :
    let h := at_ paged 0x10004E 0x200
    h.mstatus.vm ≠ .mbare ∧ 0 < 4 ∧ NoInterruptDue h ∧ paged.pcAligned h.pc = true :=
  ⟨by decide, by decide, ⟨rfl, rfl⟩, by decide⟩

/-- A delegated trap; an exception that records an address, an interrupt and an NMI, from U in a stack of depth 4; a legal
layout other than the default. -/
theorem test_witness_TrapEntryEffect :
    let h := at_ ushm 0x249 0x400
    handlerMode h (.exception (.loadAccess 0x500#32)) = .m ∧ handlerMode h (.interrupt .timer) = .m ∧
    handlerMode h (.nmi 7) = .m ∧ ushm.pcAligned (0x400#32 : Word ushm.width) = true ∧ 2 + 1 < ushm.modes.depth ∧
    ushm.extraVector false 5 = none ∧ ushm.extraVector true 1 = none ∧ ushm.layout = Layout.default ushm.width ∧
    layoutOk moved = true ∧ handlerMode delegated (.exception .breakpoint) ≠ .m := by decide

/-- A layout of every field. -/
theorem test_witness_CsrAddressesAndFieldsOfTheSpec :
    csrAddrOk moved = true ∧ um.csrAddr = CsrAddresses.default ∧ um.layout = Layout.default um.width := by decide

theorem test_witness_TrapEntryFrame :
    let h := at_ .default 0x36 0x200
    takeTrap h (.exception .illegal) h.pc = .next (trapInto h (.exception .illegal) h.pc) := by rfl

/-- Both sides of each equivalence: a delegated and an undelegated call from U, and a call from M. -/
theorem test_witness_DelegatedTrapsAreRefused :
    let h : Hart usm := { at_ usm 0x49 0x400 with mtdeleg := 0x100#32 }
    (h.cur ≠ .m ∧ (csrRead h .mtdeleg).getLsbD (Exc.ecall (n := 32) .u).code.toNat = true) ∧
    ¬(h.cur ≠ .m ∧ (csrRead h .mtdeleg).getLsbD (Exc.breakpoint (n := 32)).code.toNat = true) ∧
    (at_ usm 0x4E 0x200).cur = .m := by decide

theorem test_witness_EretAfterATrapRestores :
    let h := at_ um 0x09 0x400
    takeTrap h (.exception (.ecall .u)) h.pc = .next (trapInto h (.exception (.ecall .u)) h.pc) ∧
    um.pcAligned h.pc = true := ⟨rfl, by decide⟩

/-- From U delegated, from M, and from U undelegated. -/
theorem test_witness_EcallTakesItsException :
    (delegated.cur ≠ .m ∧ (csrRead delegated .mtdeleg).getLsbD (8 + delegated.cur.code.toNat) = true) ∧
    (at_ .default 0x37 0x208).cur = .m ∧ Config.default.pcAligned (at_ .default 0x37 0x208).pc = true ∧
    (at_ um 0x09 0x404).cur = .u ∧ (csrRead (at_ um 0x09 0x404) .mtdeleg).getLsbD 8 = false ∧
    um.extraVector false (8 + (at_ um 0x09 0x404).cur.code.setWidth 4) = none := by decide

theorem test_witness_EbreakTakesItsException :
    (delegated.cur ≠ .m ∧ (csrRead delegated .mtdeleg).getLsbD 3 = true) ∧
    (at_ .default 0x36 0x300).cur = .m ∧ Config.default.pcAligned (at_ .default 0x36 0x300).pc = true ∧
    (at_ um 0x09 0x404).cur = .u ∧ (csrRead (at_ um 0x09 0x404) .mtdeleg).getLsbD 3 = false ∧
    um.extraVector false 3 = none := by decide

theorem test_witness_EretInMachineMode : (at_ ushm 0x24E 0x200).cur = .m ∧ 2 + 1 < ushm.modes.depth := by decide

theorem test_witness_EretBelowMachineMode :
    (at_ ushm 0x248 0x200).cur = .u ∧ (at_ ushm 0x24A 0x200).cur = .s ∧ (at_ ushm 0x24C 0x200).cur = .h := by decide

/-- Each clause: below M; M without the mode; M with it. -/
theorem test_witness_RedirectionOutcomes :
    (at_ um 0x09 0x400).cur ≠ .m ∧ (at_ um 0x0E 0x200).cur = .m ∧ um.modes.has .s = false ∧ um.modes.has .h = false ∧
    um.extraVector false 2 = none ∧
    (at_ ushm 0x24E 0x200).cur = .m ∧ ushm.modes.has .s = true ∧ ushm.modes.has .h = true := by decide

/-- A trapping one and ERET. -/
theorem test_witness_SystemInstructionFrame :
    let h := at_ .default 0x36 0x200
    csrNumber .ecall = none ∧ csrNumber .eret = none ∧
    exec .ecall ⟨_, h⟩ = .next ⟨_, trapInto h (.exception (.ecall .m)) h.pc⟩ ∧
    exec .eret ⟨_, h⟩ = .next ⟨_, trapReturn h⟩ ∧ h.cur = .m := ⟨rfl, rfl, rfl, rfl, rfl⟩

/-- `mscratch`, and `mstatus` with an accepted value. -/
theorem test_witness_CsrrwCompletes :
    let h := withReg (at_ um 0x0E 0x200) 5 0x09
    h.cur = .m ∧ um.regOk 31 = true ∧ um.regOk 5 = true ∧ csrOfAddr um 0x340#12 = some .mscratch ∧
    csrOfAddr um 0x300#12 = some .mstatus ∧ BitVec.extractLsb' 10 2 0x300#12 ≠ 0b11#2 ∧
    BitVec.extractLsb' 10 2 0x340#12 ≠ 0b11#2 ∧ mstatusModesOk um (h.reg 5) = true ∧ mstatusVmOk um (h.reg 5) = true := by
  decide

/-- A pure read of a read-only register, and a write of `mstatus`. -/
theorem test_witness_CsrrsCompletes :
    let h := withReg (at_ um 0x0E 0x200) 5 0x09
    h.cur = .m ∧ um.regOk 0 = true ∧ um.regOk 5 = true ∧ csrOfAddr um 0xF00#12 = some .mcpuid ∧
    csrOfAddr um 0x300#12 = some .mstatus ∧ (5 : Reg) ≠ 0 ∧ BitVec.extractLsb' 10 2 0x300#12 ≠ 0b11#2 ∧
    mstatusModesOk um (csrRead h .mstatus ||| h.reg 5) = true ∧
    mstatusVmOk um (csrRead h .mstatus ||| h.reg 5) = true := by decide

theorem test_witness_CsrrcCompletes :
    let h := withReg (at_ um 0x0E 0x200) 5 0x06
    h.cur = .m ∧ um.regOk 0 = true ∧ um.regOk 5 = true ∧ csrOfAddr um 0xF01#12 = some .mimpid ∧
    csrOfAddr um 0x300#12 = some .mstatus ∧ (5 : Reg) ≠ 0 ∧ BitVec.extractLsb' 10 2 0x300#12 ≠ 0b11#2 ∧
    mstatusModesOk um (csrRead h .mstatus &&& ~~~(h.reg 5)) = true ∧
    mstatusVmOk um (csrRead h .mstatus &&& ~~~(h.reg 5)) = true := by decide

theorem test_witness_CsrrwiCompletes :
    (at_ um 0x0E 0x200).cur = .m ∧ um.regOk 31 = true ∧ csrOfAddr um 0x300#12 = some .mstatus ∧
    BitVec.extractLsb' 10 2 0x300#12 ≠ 0b11#2 ∧ mstatusModesOk um ((9#5).setWidth um.width) = true ∧
    mstatusVmOk um ((9#5).setWidth um.width) = true := by decide

theorem test_witness_CsrrsiCompletes :
    let h := at_ um 0x0E 0x200
    h.cur = .m ∧ um.regOk 31 = true ∧ csrOfAddr um 0x300#12 = some .mstatus ∧ (1#5) ≠ 0 ∧
    BitVec.extractLsb' 10 2 0x300#12 ≠ 0b11#2 ∧ mstatusModesOk um (csrRead h .mstatus ||| (1#5).setWidth um.width) = true ∧
    mstatusVmOk um (csrRead h .mstatus ||| (1#5).setWidth um.width) = true := by decide

theorem test_witness_CsrrciCompletes :
    let h := at_ um 0x0E 0x200
    h.cur = .m ∧ um.regOk 31 = true ∧ csrOfAddr um 0x300#12 = some .mstatus ∧ (6#5) ≠ 0 ∧
    BitVec.extractLsb' 10 2 0x300#12 ≠ 0b11#2 ∧
    mstatusModesOk um (csrRead h .mstatus &&& ~~~((6#5).setWidth um.width)) = true ∧
    mstatusVmOk um (csrRead h .mstatus &&& ~~~((6#5).setWidth um.width)) = true := by decide

/-- Each of the three grounds, and the refusal, with S and with H. -/
theorem test_witness_CsrAccessCheckRaisesIllegal :
    csrNumber (.csrrs 5 0x7C0 0) = some 0x7C0#12 ∧ csrOfAddr um 0x7C0#12 = none ∧
    BitVec.extractLsb' 8 2 0x7C0#12 = 3#2 ∧
    (at_ um 0x09 0x400).cur.code < BitVec.extractLsb' 8 2 0xF10#12 ∧
    writesCsr (.csrrwi 0 0xF01 0) = true ∧ BitVec.extractLsb' 10 2 0xF01#12 = 0b11#2 ∧
    (csrOfAddr usm 0x100#12 = none ∧ BitVec.extractLsb' 8 2 0x100#12 = 1#2 ∧ usm.modes.has .s = true ∧
      ¬((at_ usm 0x4E 0x200).cur.code < BitVec.extractLsb' 8 2 0x100#12) ∧
      BitVec.extractLsb' 10 2 0x100#12 ≠ 0b11#2 ∧ (Instr.csrrs 5 0x100 0).wellFormed usm = true) ∧
    (csrOfAddr ushm 0x200#12 = none ∧ BitVec.extractLsb' 8 2 0x200#12 = 2#2 ∧ ushm.modes.has .h = true ∧
      ¬((at_ ushm 0x24E 0x200).cur.code < BitVec.extractLsb' 8 2 0x200#12)) := by decide

theorem test_witness_Rv32eUpperRegistersAreIllegal :
    rve.rve = true ∧ 16 ≤ (16 : Reg).val ∧ 16 ≤ (31 : Reg).val := by decide

/-- One that completes and writes, and one that traps. -/
theorem test_witness_CsrInstructionFrame :
    let h := at_ .default 0x36 0x200
    csrNumber (.csrrwi 3 0x340 5) = some 0x340#12 ∧ destination (.csrrwi 3 0x340 5) = some 3 ∧
    exec (.csrrwi 3 0x340 5) ⟨_, h⟩ = .next ⟨_, ((csrPut h 5#32 .mscratch).setReg 3 (csrRead h .mscratch)).advance⟩ ∧
    exec (.csrrwi 3 0xF00 5) ⟨_, h⟩ = .next ⟨_, trapInto h (.exception .illegal) h.pc⟩ := ⟨rfl, rfl, rfl, rfl⟩

theorem test_witness_X0StaysZero :
    let h := at_ .default 0x36 0x200
    destination (.csrrs 0 0x340 0) = some 0 ∧ exec (.csrrs 0 0x340 0) ⟨_, h⟩ = .next ⟨_, h.advance⟩ := ⟨rfl, rfl⟩

theorem test_witness_IdentityRegisters :
    csrAddrOk rve = true ∧ (at_ rve 0x36 0x200).cur = .m ∧ rve.regOk 15 = true ∧ (15 : Reg) ≠ 0 ∧
    csrNumber (.csrrsi 1 0xF01 3) = some (csrAddr rve .mimpid) ∧ writesCsr (.csrrsi 1 0xF01 3) = true := by decide

/-- A mode outside `MODES`; a scheme not supported; an accepted value, with M alone and with U. -/
theorem test_witness_MstatusWriteRule :
    layoutOk um = true ∧ um.layout = Layout.default um.width ∧
    (um.modes ≠ .m ∧ 1 < um.modes.depth ∧
      um.modes.has (Priv.ofCode (BitVec.extractLsb' (um.layout.prvPos 1) 2 0x26#32)) = false) ∧
    (∀ s ∈ um.vmSupported, s.code ≠ BitVec.extractLsb' um.layout.vm 5 0x20000#32) ∧
    Config.default.modes = .m ∧
    (∀ k < um.modes.depth, um.modes.has (Priv.ofCode (BitVec.extractLsb' (um.layout.prvPos k) 2 0x0E#32)) = true) ∧
    (∃ s ∈ um.vmSupported, s.code = BitVec.extractLsb' um.layout.vm 5 0x0E#32) := by decide

theorem test_witness_SdSummarisesFsAndXs :
    layoutOk .default = true ∧ layoutOk fpu = true ∧ Config.default.hasFpu = false ∧ Config.default.hasXs = false := by
  decide

/-- Hardwired, and writable. -/
theorem test_witness_MtvecWriteRule :
    mtvecWOk .default = true ∧ Config.default.mtvecW.toNat = 0 ∧ mtvecWOk vec = true ∧
    vec.mtvecW.toNat ≠ 0 := by decide

theorem test_witness_MtdelegProbing :
    let h := withReg (at_ usm 0x4E 0x200) 5 0xFFFFFFFF
    csrAddrOk usm = true ∧ h.cur = .m ∧ usm.regOk 6 = true ∧ usm.regOk 5 = true ∧ (6 : Reg) ≠ 0 ∧
    (h.reg 5).toNat = (BitVec.allOnes usm.width).toNat := by decide

/-- Bits that are no level's: 0 and 4. -/
theorem test_witness_MipAndMieWriteRule :
    layoutOk usm = true ∧ layoutOk moved = true ∧ (∀ x k, 0 ≠ intPos usm.layout.mip x k) ∧
    (∀ x k, 4 ≠ intPos usm.layout.mie x k) :=
  ⟨by decide, by decide, fun x k => by cases x <;> cases k <;> decide, fun x k => by cases x <;> cases k <;> decide⟩

/-- A bit of no field in another layout; a middle bit, a bit of the code and the top bit in the default. -/
theorem test_witness_McauseWriteRule :
    layoutOk moved = true ∧ 5 ≠ moved.layout.interrupt ∧ moved.layout.code + 4 ≤ 5 ∧
    Config.default.layout = Layout.default Config.default.width ∧
    4 < Config.default.width ∧ 4 ≤ 4 ∧ 4 < Config.default.width - 1 ∧ Config.default.width - 1 < Config.default.width := by
  decide

theorem test_witness_TakeableCondition : layoutOk ushm = true ∧ layoutOk moved = true := by decide

theorem test_witness_TickAdvancesAndPosts :
    dueEvents ({ at_ .default 0x36 0x200 with env := [[.tick]] } : Hart .default) = [.tick] := by rfl

/-- Equal to `mtime` now, and not. -/
theorem test_witness_MtimecmpWriteRule :
    let h : Hart .default := { at_ .default 0x36 0x200 with mtime := 12#64 }
    h.mtime.setWidth 32 = 12#32 ∧ h.mtime.setWidth 32 ≠ 3#32 := by decide

theorem test_witness_MtimeReadsAndRefusesWrites :
    csrAddrOk .default = true ∧ (at_ .default 0x36 0x200).cur = .m ∧ Config.default.regOk 5 = true ∧ (5 : Reg) ≠ 0 ∧
    (1 : BitVec 5) ≠ 0 := by decide

theorem test_witness_ScratchAndBadAddrHoldTheWord :
    csrAddrOk .default = true ∧ (at_ .default 0x36 0x200).cur = .m ∧ Config.default.regOk 10 = true ∧ (10 : Reg) ≠ 0 := by
  decide

/-- A step that keeps MTIP, and one that writes `mtimecmp`. -/
theorem test_witness_TimerInterruptStaysPosted :
    let h : Hart .default := { withWord (at_ .default 0x36 0x200) 0x00000073 with mip := timerOn, mtimecmp := 7#32 }
    h.mip.mtimer = true ∧ goesTo (step ⟨_, h⟩) (fun s => csr s .mip == 0x80) = true := ⟨rfl, by decide⟩

/-- Misaligned under each policy; outside `PMEM`; inside it. -/
theorem test_witness_DataAccessOutcomes :
    (at_ small 0x36 0x200).mstatus.vm = .mbare ∧ 0 < 4 ∧ small.misaligned = .trap ∧ (0x202#32).toNat % 4 ≠ 0 ∧
    lax.misaligned = .perform ∧ (0x300#32).toNat % 4 = 0 ∧ allows small .load (0x300#32 : Word small.width) 4 = false ∧
    allows small .store (0x300#32 : Word small.width) 4 = false ∧
    allows small .load (0x2FC#32 : Word small.width) 4 = true ∧
    allows small .store (0x2FC#32 : Word small.width) 4 = true := by decide

theorem test_witness_StoreThenLoad :
    let h := at_ small 0x36 0x200
    h.mem.wf = true ∧ 4 ≤ 2 ^ small.width ∧
    memWrite h 0x2FC#32 4 0xDEADBEEF#32 = .ok { h with mem := h.mem.writeBytes 0x2FC#32 0 [0xEF, 0xBE, 0xAD, 0xDE] } ∧
    allows small .load (0x2FC#32 : Word small.width) 4 = true := ⟨rfl, by decide, rfl, by decide⟩

/-- A base instruction that completes, and a word that traps. -/
theorem test_witness_BaseInstructionsKeepTheCsrs :
    let h := at_ .default 0x36 0x200
    let t : Hart .default := { h with x := h.x.set 0 0, pc := 0x204#32 }
    runBase h h (.done (h.x.set 0 0) (0x204#32 : Word Config.default.width)) = .next t ∧
    runClaimed idle h (wordHalves 0x13#32) (inState .default (raise h .illegal)) = .next ⟨_, t⟩ ∧
    runClaimed BaseISA.none h (wordHalves 0x13#32) (inState .default (raise h .illegal)) =
      .next ⟨_, trapInto h (.exception .illegal) h.pc⟩ := ⟨rfl, rfl, rfl⟩

theorem test_witness_InvariantHoldsAtReset : configLegal .default = true ∧ configLegal rve = true ∧
    configLegal um = true ∧ configLegal vec = true ∧ configLegal paged = true := by decide

theorem test_witness_InvariantKeptByEveryStep :
    Inv State.reset ∧ goesTo (step (State.reset.withFetchWord 32 0x00000073)) (fun _ => true) = true :=
  ⟨⟨rfl, by decide, by decide, by decide, by decide, by decide⟩, by decide⟩

/-- By a trap from U, by ERET to U, by a write of `mstatus`. -/
theorem test_witness_PrivilegeModeChangesOnlyBy :
    goesTo (run (at_ um 0x09 0x400) 0x00000073) (fun s => s.hart.cur == .m) = true ∧ (at_ um 0x09 0x400).cur = .u ∧
    goesTo (run (at_ um 0x0E 0x200) 0x10000073) (fun s => s.hart.cur == .u) = true ∧
    goesTo (run (at_ um 0x0E 0x200) 0x30005073) (fun s => s.hart.cur == .u) = true ∧ (at_ um 0x0E 0x200).cur = .m := by
  decide

/-- A step that traps, and a base instruction that does not. -/
theorem test_witness_BelowMachineModeNoMachineCsrIsWritten :
    csrAddrOk um = true ∧ (at_ um 0x09 0x400).cur ≠ .m ∧
    goesTo (run (at_ um 0x09 0x400) 0x34005073) (fun _ => true) = true ∧
    goesTo (stepWith idle ⟨_, at_ um 0x09 0x400⟩) (fun s => s.hart.cur == .u) = true := by decide

theorem test_witness_ConfigurationNeverChanges :
    goesTo (stepWith idle ⟨_, at_ um 0x36 0x200⟩) (fun s => pcOf s == 0x204) = true := by decide

theorem test_witness_ResetValuesOfTheSpec :
    Config.default.vecHigh = false ∧ { Config.default with vecHigh := true }.vecHigh = true ∧
    Config.default.modes = .m ∧ Config.default.hasFpu = false ∧ Config.default.hasXs = false ∧
    Config.default.mtdelegW.toNat = 0 := by decide

theorem test_witness_FirstInstructionIsAtTheResetVector :
    platformBoots .default = true ∧ nmiDue (Hart.reset .default) = false ∧
    decodeBytes (Memory.readBytes (withWord (Hart.reset .default) 0x00000073).mem Config.default.resetVector 4) =
      .ok (.ecall, []) ∧
    platformBoots { usm with nmiPresent := true } = true ∧ usm.modes.has .s = true := ⟨by decide, rfl, rfl, by decide, rfl⟩

end

end Sys2Proof.Tests
end

section
/-! PROOFS of the statements about 00_scope.md: what the base ISA is given and what it cannot change, and reset of a legal
configuration. -/

namespace Sys2Proof.Machine

open Sys2Proof.Safety

variable {c : Config}

/-! ### What a base instruction leaves alone (00_scope.md R12) -/

/-- A base instruction traps on the state before it, or changes only the registers, an aligned `pc` and memory. -/
theorem runBase_trap_or_keeps {h t : Hart c} {act : BaseAction c} (ran : runBase h h act = .next t) :
    (∃ e, t = trapInto h (.exception e) h.pc) ∨
      (t = { h with x := t.x, pc := t.pc, mem := t.mem } ∧ c.pcAligned t.pc = true) := by
  rcases runBase_cases ran with ⟨aligned, kept, -⟩ | ⟨e, -, trap⟩
  · exact .inr ⟨kept, aligned⟩
  · exact .inl ⟨e, trap⟩

/-- Settles O52: by the induction over the actions in `runBase_cases`; an unclaimed instruction is a trap itself. -/
theorem baseInstructionsKeepTheCsrs : Obligations.BaseInstructionsKeepTheCsrs := by
  intro c h t
  refine ⟨fun act ran => runBase_trap_or_keeps ran, fun base halves ran => ?_⟩
  rcases runClaimed_cases ran with ⟨act, t', -, same, claimed⟩ | ⟨-, unclaimed⟩
  · cases same
    exact runBase_trap_or_keeps claimed
  · exact .inl ⟨.illegal, (raise_eq_next.mp (inState_eq_next.mp unclaimed)).2⟩

/-! ### What no row of the table matches (20_memory.md R106, 30_encoding.md R139, R144) -/

theorem runClaimed_of_unclaimed {base : BaseISA} {h : Hart c} {halves : List Half} (otherwise : Res State)
    (no : base.act c halves (h.x.set 0 0) h.pc = none) : runClaimed base h halves otherwise = otherwise := by
  unfold runClaimed; rw [no]

theorem runClaimed_of_claimed {base : BaseISA} {h : Hart c} {halves : List Half} {act : BaseAction c}
    (otherwise : Res State) (claim : base.act c halves (h.x.set 0 0) h.pc = some act) :
    runClaimed base h halves otherwise = inState c (runBase h h act) := by
  unfold runClaimed; rw [claim]

/-- A fetched 32-bit word that no row matches is left to the base ISA, where its rule makes no other length of it. -/
theorem runInstr_of_unmatched (base : BaseISA) {h : Hart c} {w : BitVec 32} {why : DecodeError}
    (own : fetchOwnLength base h h.pc = none) (word : fetch h h.pc = .ok w) (dec : decodeWord w = .error why) :
    runInstr base ⟨c, h⟩ = runClaimed base h (wordHalves w) (inState c (raise h .illegal)) := by
  simp [runInstr, own, word, dec]

/-- A fetched instruction of another length is left to the base ISA. -/
theorem runInstr_of_ownLength {base : BaseISA} {h : Hart c} {halves : List Half}
    (own : fetchOwnLength base h h.pc = some (.ok halves)) :
    runInstr base ⟨c, h⟩ = runClaimed base h halves (inState c (raise h .illegal)) := by
  simp [runInstr, own, runFetched]

theorem fetchesRow_eq_false {h : Hart c} {a : Word c.width} (no : ∀ w i, fetch h a = .ok w → decodeWord w ≠ .ok i) :
    fetchesRow h a = false := by
  unfold fetchesRow
  cases word : fetch h a with
  | ok w => cases dec : decodeWord w with
    | ok i => exact absurd dec (no w i word)
    | error why => simp only [dec]
  | raise e => rfl
  | refuse r => rfl
  | fault f => rfl

/-- Under Mbare the fetch of four executable bytes gives the word of the two halves there. -/
theorem fetch_of_halves {h : Hart c} {a : Word c.width} (aligned : c.pcAligned a = true) (bare : h.mstatus.vm = .mbare)
    (first : allows c .execute a 2 = true) (second : allows c .execute (halfAddr a 1) 2 = true) :
    ∃ w, fetch h a = .ok w ∧ wordHalves w = [halfAt h a 0, halfAt h a 1] :=
  ⟨_, by simp [fetch, aligned, bare, allows_word, first, second], wordHalves_readBytes h a⟩

/-- A rule that wants the halves `f 0` to `f (n - 1)`, and is complete with `f 0`, wants one half. -/
theorem eq_one_of_endsWith {rest : Rest} {f : Nat → Half} {n : Nat}
    (wants : restAfter rest ((List.range n).map f) = some .ends) (ends : rest.endsWith (f 0) = true) : n = 1 := by
  cases rest with
  | ends => cases ends
  | goesOn next =>
    match n, wants with
    | 0, wants => cases wants
    | 1, _ => rfl
    | n + 2, wants =>
      rw [List.range_succ_eq_map, List.range_succ_eq_map] at wants
      cases left : next (f 0) with
      | ends => simp [restAfter, left] at wants
      | goesOn _ => simp [Rest.endsWith, left] at ends

/-- With 16-bit alignment and no row matched, the base ISA is left as many executable halves as its own rule wants. A rule
that wants two is the case of an ordinary 32-bit fetch. -/
theorem runInstr_of_rule (base : BaseISA) {h : Hart c} {n : Nat} (a16 : c.ialign = .a16) (aligned : c.pcAligned h.pc = true)
    (bare : h.mstatus.vm = .mbare)
    (wants : restAfter (base.rest c (halfAt h h.pc 0)) ((List.range n).map (fun i => halfAt h h.pc (i + 1))) = some .ends)
    (may : ∀ i < n + 1, allows c .execute (halfAddr h.pc i) 2 = true)
    (noRow : ∀ w i, fetch h h.pc = .ok w → decodeWord w ≠ .ok i) :
    runInstr base ⟨c, h⟩ =
      runClaimed base h ((List.range (n + 1)).map (halfAt h h.pc)) (inState c (raise h .illegal)) := by
  have first : allows c .execute h.pc 2 = true := by simpa [halfAddr] using may 0 (Nat.succ_pos n)
  cases ends : (base.rest c (halfAt h h.pc 0)).endsWith (halfAt h h.pc 1) with
  | true =>
    obtain rfl := eq_one_of_endsWith wants ends
    obtain ⟨w, word, halves⟩ := fetch_of_halves aligned bare first (may 1 (by decide))
    have own : fetchOwnLength base h h.pc = none := by simp [fetchOwnLength, ends]
    cases dec : decodeWord w with
    | ok i => exact absurd dec (noRow w i word)
    | error why => rw [runInstr_of_unmatched base own word dec, halves]; rfl
  | false =>
    have got : fetchRest h h.pc (base.rest c (halfAt h h.pc 0)) [halfAt h h.pc 0] =
        .ok ((List.range (n + 1)).map (halfAt h h.pc)) := by
      rw [fetchRest_after h h.pc n (left := .ends) (by simpa [Nat.add_comm] using wants)
        (fun i lt => may _ (by simp; omega)), List.range_succ_eq_map]
      simp [fetchRest, Function.comp_def, Nat.add_comm]
    refine runInstr_of_ownLength ?_
    simp [fetchOwnLength, a16, aligned, bare, first, ends, fetchesRow_eq_false noRow, got]

/-- A step that leaves halves to the base ISA raises Illegal instruction where they are unclaimed, and runs the actions where
they are claimed. -/
theorem stepWith_of_left {base : BaseISA} {h : Hart c} {halves : List Half} (due : NoInterruptDue h)
    (left : runInstr base ⟨c, afterEvents h⟩ =
      runClaimed base (afterEvents h) halves (inState c (raise (afterEvents h) .illegal))) :
    (base.act c halves ((afterEvents h).x.set 0 0) (afterEvents h).pc = none →
      stepWith base ⟨c, h⟩ = inState c (raise (afterEvents h) .illegal)) ∧
    ∀ act, base.act c halves ((afterEvents h).x.set 0 0) (afterEvents h).pc = some act →
      stepWith base ⟨c, h⟩ = inState c (runBase (afterEvents h) (afterEvents h) act) := by
  obtain ⟨nmi, quiet⟩ := due
  rw [stepWith_quiet base nmi quiet, left]
  exact ⟨runClaimed_of_unclaimed _, fun _ => runClaimed_of_claimed _⟩

/-- Settles O6: a fetched word is left to the base ISA whole, and with 16-bit alignment the halves its rule wants are. -/
theorem unmatchedWordIsIllegal : Obligations.UnmatchedWordIsIllegal := by
  intro c h due
  refine ⟨fun w why word dec => ⟨?_, fun base a32 => ?_⟩, fun base n a16 aligned bare wants may noRow => ?_⟩
  · exact (stepWith_of_left due (runInstr_of_unmatched .none (fetchOwnLength_none _ _) word dec)).1 rfl
  · exact stepWith_of_left due (runInstr_of_unmatched base (fetchOwnLength_a32 base _ _ a32) word dec)
  · exact stepWith_of_left due (runInstr_of_rule base a16 aligned bare wants may noRow)

/-! ### Reset (10_state.md R98) -/

/-- Both standard reset vectors are aligned (10_state.md R58). -/
theorem pcAligned_resetVector (c : Config) : c.pcAligned c.resetVector = true := by
  unfold Config.pcAligned Config.resetVector
  rcases ialign_cases c with bytes | bytes <;> rcases width_cases c with w | w | w <;> rw [bytes, w] <;>
    cases c.vecHigh <;> decide

/-- Every stack entry of a hart just reset holds a supported mode: M, or the lowest one. -/
theorem has_stackEntry_reset (c : Config) {k : Nat} (below : k < c.modes.depth) :
    c.modes.has (stackEntry c (MStatus.reset c) k).prv = true := by
  have low : k < 4 := Nat.lt_of_lt_of_le below (depth_le c)
  unfold stackEntry
  rw [if_pos below]
  cases modes : c.modes <;> interval_cases k <;> simp [MStatus.reset, modes, Modes.lowest, Modes.prv, Modes.has]

/-- A legal configuration supports Mbare (10_state.md R50). -/
theorem contains_mbare_of_legal (legal : configLegal c = true) : c.vmSupported.contains .mbare = true := by
  simp only [configLegal, vmSupportedOk, Bool.and_eq_true] at legal
  obtain ⟨⟨⟨⟨-, bare, -⟩, -⟩, -⟩, -⟩ := legal
  exact bare

/-- Settles O53: each part of the invariant is a fact about the values of 10_state.md R98; only `VM` needs the premise. -/
theorem invariantHoldsAtReset : Obligations.InvariantHoldsAtReset := fun c legal =>
  { memory := rfl
    pc := pcAligned_resetVector c
    mepc := by simp [State.resetOf, Hart.reset, Config.pcAligned]
    mtvec := (and_three_eq_zero _ (Nat.le_trans (by decide) (width_ge c))).mpr (mtvecReset_low c)
    modes := fun _ below => has_stackEntry_reset c below
    vm := contains_mbare_of_legal legal }

end Sys2Proof.Machine
end

section
/-! PROOFS of the statements about 10_state.md: what each step keeps, the write rules of the CSRs, the timer, and the values
after reset. -/

namespace Sys2Proof.Machine

open Sys2Proof.Safety

variable {c : Config}

/-! ### What a step leaves -/

/-- An instruction of the table that goes on enters a trap, returns from one in M-mode, or completes on a CSR. -/
theorem exec_eq_next_cases {h t : Hart c} {i : Instr} (ran : exec i ⟨c, h⟩ = .next ⟨c, t⟩) :
    (∃ exc, t = trapInto h (.exception exc) h.pc) ∨
    (i = .eret ∧ h.cur = .m ∧ t = trapReturn h) ∨
    ∃ (a : BitVec 12) (rd : Reg) (r : Csr) (v : Word c.width), csrNumber i = some a ∧ csrOfAddr c a = some r ∧
      (writesCsr i = true → csrRefusal c v r = none) ∧ t = csrDone h rd r (writesCsr i) v := by
  cases num : csrNumber i with
  | none =>
    rcases exec_system_cases num ran with ⟨exc, trap, -⟩ | ⟨ret, eret, m⟩
    · exact .inl ⟨exc, trap⟩
    · exact .inr (.inl ⟨eret, m, ret⟩)
  | some a =>
    obtain ⟨rd, dst⟩ := destination_of_csrNumber num
    rcases exec_csr_cases num dst ran with ⟨r, v, check, accepted, done⟩ | ⟨-, trap⟩
    · exact .inr (.inr ⟨a, rd, r, v, rfl, (csrCheck_eq_register.mp check).1, accepted, done⟩)
    · exact .inl ⟨.illegal, trap⟩

/-- The four shapes of the state that a step leaves, with any base ISA, in terms of the state after the boundary's events. -/
theorem stepWith_shapes {base : BaseISA} {h : Hart c} {s : State} (ran : stepWith base ⟨c, h⟩ = .next s) :
    ∃ t, s = ⟨c, t⟩ ∧
    ((∃ n cause, t = trapInto { afterEvents h with draws := n } cause h.pc) ∨
     (StepExecutes h .eret ∧ h.cur = .m ∧ t = trapReturn (afterEvents h)) ∨
     (∃ i a rd r v, StepExecutes h i ∧ csrNumber i = some a ∧ csrOfAddr c a = some r ∧
       (writesCsr i = true → csrRefusal c v r = none) ∧ t = csrDone (afterEvents h) rd r (writesCsr i) v) ∨
     (c.pcAligned t.pc = true ∧ t = { afterEvents h with x := t.x, pc := t.pc, mem := t.mem } ∧
       (h.mem.wf = true → t.mem.wf = true))) := by
  obtain ⟨t, same, ways⟩ := stepWith_cases ran
  refine ⟨t, same, ?_⟩
  rcases ways with ⟨-, nmi⟩ | ⟨-, i, h', chosen, trap⟩ |
    ⟨due, ⟨exc, -, trap⟩ | ⟨w, i, word, dec, done⟩ | ⟨hs, act, -, -, done⟩ | trap⟩
  · rw [takeNmi_eq] at nmi
    cases nmi
    exact .inl ⟨_, _, rfl⟩
  · obtain ⟨-, n, rfl⟩ := chooseInterrupt_some chosen
    exact .inl ⟨n, _, trap⟩
  · exact .inl ⟨h.draws, _, (raise_eq_next.mp trap).2⟩
  · have executes : StepExecutes h i := ⟨due, w, word, dec⟩
    rcases exec_eq_next_cases done with ⟨exc, trap⟩ | ⟨rfl, m, ret⟩ | ⟨a, rd, r, v, num, reg, accepted, csr⟩
    · exact .inl ⟨h.draws, _, trap⟩
    · exact .inr (.inl ⟨executes, m, ret⟩)
    · exact .inr (.inr (.inl ⟨i, a, rd, r, v, executes, num, reg, accepted, csr⟩))
  · rcases runBase_cases done with ⟨aligned, kept, wf⟩ | ⟨exc, -, trap⟩
    · exact .inr (.inr (.inr ⟨aligned, kept, wf⟩))
    · exact .inl ⟨h.draws, _, trap⟩
  · exact .inl ⟨h.draws, _, (raise_eq_next.mp trap).2⟩

/-! ### MTIP (10_state.md R81) -/

theorem csrDone_mip {h : Hart c} {rd : Reg} {r : Csr} {writes : Bool} {v : Word c.width} :
    (csrDone h rd r writes v).mip = if writes then (csrPut h v r).mip else h.mip := by
  cases writes <;> simp [csrDone]

/-- Only a write of `mtimecmp` changes MTIP: a write of `mip` leaves it (10_state.md R72, R81). -/
theorem csrPut_mtimer (h : Hart c) (v : Word c.width) {r : Csr} (other : r ≠ .mtimecmp) :
    (csrPut h v r).mip.mtimer = h.mip.mtimer := by
  by_cases mip : r = .mip
  · subst mip; rfl
  · rw [csrPut_mip h v r mip other]

/-- A boundary never clears MTIP. -/
theorem afterEvents_mtimer {h : Hart c} (posted : h.mip.mtimer = true) : (afterEvents h).mip.mtimer = true := by
  obtain ⟨-, -, kept⟩ := foldEvents_bits h.mtimecmp (dueEvents h) ⟨h.mtime, h.mip⟩
  exact kept posted

/-- Settles O49: of the four shapes of a step only a CSR write reaches `mip`, and of those only that of `mtimecmp` MTIP. -/
theorem timerInterruptStaysPosted : Obligations.TimerInterruptStaysPosted := by
  intro base c h t ran posted
  have kept := afterEvents_mtimer posted
  obtain ⟨_, same, shape⟩ := stepWith_shapes ran
  cases same
  rcases shape with ⟨n, cause, rfl⟩ | ⟨-, -, rfl⟩ | ⟨i, a, rd, r, v, executes, num, reg, -, rfl⟩ | ⟨-, eq, -⟩
  · exact .inl kept
  · exact .inl kept
  · cases writes : writesCsr i with
    | false => exact .inl (by simpa [csrDone_mip] using kept)
    | true =>
      by_cases cmp : r = .mtimecmp
      · exact .inr ⟨i, executes, by rw [num, ← csrAddr_of_csrOfAddr reg, cmp], writes⟩
      · exact .inl (by simpa [csrDone_mip, csrPut_mtimer _ _ cmp] using kept)
  · exact .inl (by rw [eq]; exact kept)

/-! ### The invariant -/

theorem pcAligned_iff {a : Word c.width} : c.pcAligned a = true ↔ c.ialign.bytes ∣ a.toNat := by
  rw [Config.pcAligned, beq_iff_eq, Nat.dvd_iff_mod_eq_zero]

theorem ialign_bytes_dvd_four (c : Config) : c.ialign.bytes ∣ 4 := by
  rcases ialign_cases c with bytes | bytes <;> simp [bytes]

theorem ialign_bytes_dvd_two_pow (c : Config) : c.ialign.bytes ∣ 2 ^ c.width :=
  (ialign_bytes_dvd_four c).trans (Nat.pow_dvd_pow 2 (Nat.le_trans (by decide : 2 ≤ 32) (width_ge c)))

/-- Whole numbers of four bytes on from an aligned address lies an aligned address (20_memory.md R109). -/
theorem pcAligned_add_four_mul {a : Word c.width} (k : Nat) (aligned : c.pcAligned a = true) :
    c.pcAligned (a + BitVec.ofNat c.width (4 * k)) = true := by
  rw [pcAligned_iff] at aligned ⊢
  rw [BitVec.toNat_add, BitVec.toNat_ofNat, Nat.add_mod_mod, Nat.dvd_mod_iff (ialign_bytes_dvd_two_pow c)]
  exact aligned.add ((ialign_bytes_dvd_four c).mul_right k)

/-- A multiple of four is an aligned address. -/
theorem pcAligned_of_and_three {a : Word c.width} (low : a &&& 3#c.width = 0) : c.pcAligned a = true := by
  have four := (and_three_eq_zero a (Nat.le_trans (by decide) (width_ge c))).mp low
  exact pcAligned_iff.mpr ((ialign_bytes_dvd_four c).trans (Nat.dvd_of_mod_eq_zero four))

/-- `mtvec` as the hart has it is a multiple of four, hardwired or not (10_state.md R58, R60). -/
theorem mtvecValue_and_three {h : Hart c} (low : h.mtvec &&& 3#c.width = 0) : h.mtvecValue &&& 3#c.width = 0 := by
  unfold Hart.mtvecValue
  split
  · exact (and_three_eq_zero _ (Nat.le_trans (by decide) (width_ge c))).mpr (mtvecReset_low c)
  · exact low

/-- A write of `mtvec` leaves a multiple of four (10_state.md R60). -/
theorem mtvecPut_and_three {old v : Word c.width} (low : old &&& 3#c.width = 0) :
    mtvecPut c old v &&& 3#c.width = 0 := by
  unfold mtvecPut
  split
  · exact low
  · simp [BitVec.and_assoc]

theorem Modes.has_m (modes : Modes) : modes.has .m = true := by cases modes <;> rfl

theorem Modes.has_lowest (modes : Modes) : modes.has modes.lowest = true := by cases modes <;> rfl

/-- Every existing entry of the stack holds a supported mode (10_state.md R44). -/
def StackOk (c : Config) (ms : MStatus) : Prop := ∀ k < c.modes.depth, c.modes.has (stackEntry c ms k).prv = true

/-- Entry k of the stack after an accepted write of `mstatus` (10_state.md R56). -/
theorem stackEntry_mstatusPut (ms : MStatus) (v : Word c.width) {k : Nat} (below : k < c.modes.depth) :
    stackEntry c (mstatusPut c ms v) k =
      ⟨if c.modes = .m then .m else prvField c v k, v.getLsbD (c.layout.iePos k)⟩ := by
  have low : k < 4 := Nat.lt_of_lt_of_le below (depth_le c)
  unfold stackEntry
  rw [if_pos below]
  interval_cases k <;> simp only [mstatusPut, writtenEntry, below, if_true] <;>
    cases c.modes <;> simp [Modes.prv]

theorem stackOk_mstatusPut (ms : MStatus) {v : Word c.width} (ok : mstatusModesOk c v = true) :
    StackOk c (mstatusPut c ms v) := by
  intro k below
  rw [stackEntry_mstatusPut ms v below]
  simp only [mstatusModesOk, Bool.or_eq_true, beq_iff_eq, List.all_eq_true, List.mem_range] at ok
  rcases ok with alone | modes
  · simp [alone, Modes.has]
  · dsimp only
    split
    · exact Modes.has_m _
    · exact modes k below

theorem stackOk_pushStack {ms : MStatus} (ok : StackOk c ms) : StackOk c (pushStack c .m ms) := by
  intro k below
  cases k with
  | zero =>
    simp only [stackEntry, if_pos below, pushStack]
    cases c.modes <;> rfl
  | succ k =>
    rw [stackEntry_pushStack ms .m below]
    exact ok k (Nat.lt_of_succ_lt below)

theorem stackOk_popStack {ms : MStatus} (ok : StackOk c ms) : StackOk c (popStack c ms) := by
  intro k below
  by_cases older : k + 1 < c.modes.depth
  · rw [stackEntry_popStack ms older]
    exact ok (k + 1) older
  · rw [show k = c.modes.depth - 1 by omega, stackEntry_popStack_oldest]
    exact Modes.has_lowest _

/-- The scheme a `VM` value names has that value, and every scheme is named by its value (10_state.md R48). -/
theorem vmScheme_ofCode_eq_some {b : BitVec 5} {s : VmScheme} : VmScheme.ofCode b = some s ↔ s.code = b := by
  constructor
  · revert b s; decide
  · rintro rfl; cases s <;> rfl

/-- An accepted write of `mstatus` leaves a supported scheme in `VM` (10_state.md R56). -/
theorem contains_vm_mstatusPut (ms : MStatus) {v : Word c.width} (ok : mstatusVmOk c v = true) :
    c.vmSupported.contains (mstatusPut c ms v).vm = true := by
  unfold mstatusVmOk at ok
  simp only [mstatusPut]
  split at ok
  · rename_i s named
    simpa [named] using ok
  · cases ok

/-- The invariant speaks of no field but memory, `pc`, `mepc`, `mtvec` and `mstatus`. -/
theorem hartInv_congr {h t : Hart c} (inv : HartInv h) (mem : t.mem = h.mem) (pc : t.pc = h.pc) (mepc : t.mepc = h.mepc)
    (mtvec : t.mtvec = h.mtvec) (mstatus : t.mstatus = h.mstatus) : HartInv t where
  memory := mem ▸ inv.memory
  pc := pc ▸ inv.pc
  mepc := mepc ▸ inv.mepc
  mtvec := mtvec ▸ inv.mtvec
  modes := mstatus ▸ inv.modes
  vm := mstatus ▸ inv.vm

/-- Trap entry keeps the invariant: the entry is a whole number of four bytes above `mtvec`, and M is always supported. -/
theorem hartInv_trapInto {h : Hart c} (inv : HartInv h) (cause : Cause c.width) (epc : Word c.width) :
    HartInv (trapInto h cause epc) where
  memory := inv.memory
  pc := by
    obtain ⟨k, entry⟩ := offset_aligned h.cur cause
    rw [trapInto_pc, entry]
    exact pcAligned_add_four_mul k (pcAligned_of_and_three (mtvecValue_and_three inv.mtvec))
  mepc := pcAligned_alignPc c epc
  mtvec := inv.mtvec
  modes := stackOk_pushStack inv.modes
  vm := inv.vm

/-- A return keeps the invariant: `mepc` is aligned, and the oldest entry becomes the lowest supported mode. -/
theorem hartInv_trapReturn {h : Hart c} (inv : HartInv h) : HartInv (trapReturn h) where
  memory := inv.memory
  pc := inv.mepc
  mepc := inv.mepc
  mtvec := inv.mtvec
  modes := stackOk_popStack inv.modes
  vm := inv.vm

/-- A write of `mstatus` is accepted where it passes the tests of its modes and of its scheme (10_state.md R56). -/
theorem csrRefusal_mstatus_eq_none {v : Word c.width} :
    csrRefusal c v .mstatus = none ↔ mstatusModesOk c v = true ∧ mstatusVmOk c v = true := by
  cases modes : mstatusModesOk c v <;> cases vm : mstatusVmOk c v <;> simp [csrRefusal, modes, vm]

/-- An accepted CSR write keeps the invariant. -/
theorem hartInv_csrPut {h : Hart c} {v : Word c.width} {r : Csr} (inv : HartInv h) (accepted : csrRefusal c v r = none) :
    HartInv (csrPut h v r) where
  memory := (csrPut_mem h v r).symm ▸ inv.memory
  pc := (csrPut_pc h v r).symm ▸ inv.pc
  mepc := by
    by_cases own : r = .mepc
    · subst own; exact pcAligned_alignPc c v
    · rw [csrPut_mepc h v r own]; exact inv.mepc
  mtvec := by
    by_cases own : r = .mtvec
    · subst own; exact mtvecPut_and_three inv.mtvec
    · rw [csrPut_mtvec h v r own]; exact inv.mtvec
  modes := by
    by_cases own : r = .mstatus
    · subst own; exact stackOk_mstatusPut _ (csrRefusal_mstatus_eq_none.mp accepted).1
    · rw [csrPut_mstatus h v r own]; exact inv.modes
  vm := by
    by_cases own : r = .mstatus
    · subst own; exact contains_vm_mstatusPut _ (csrRefusal_mstatus_eq_none.mp accepted).2
    · rw [csrPut_mstatus h v r own]; exact inv.vm

/-- A register written and `pc + 4` keep the invariant. -/
theorem hartInv_setReg_advance {h : Hart c} (inv : HartInv h) (rd : Reg) (v : Word c.width) :
    HartInv (h.setReg rd v).advance where
  memory := by simpa using inv.memory
  pc := by simpa using pcAligned_add_four_mul 1 inv.pc
  mepc := by simpa using inv.mepc
  mtvec := by simpa using inv.mtvec
  modes := by simpa using inv.modes
  vm := by simpa using inv.vm

/-- A completed CSR instruction keeps the invariant. -/
theorem hartInv_csrDone {h : Hart c} {rd : Reg} {r : Csr} {writes : Bool} {v : Word c.width} (inv : HartInv h)
    (accepted : writes = true → csrRefusal c v r = none) : HartInv (csrDone h rd r writes v) := by
  cases writes with
  | false => exact hartInv_setReg_advance inv rd _
  | true => exact hartInv_setReg_advance (hartInv_csrPut inv (accepted rfl)) rd _

/-- A step with any base ISA keeps the invariant: each of its four shapes does. -/
theorem inv_of_stepWith (base : BaseISA) (s t : State) (inv : Inv s) (ran : stepWith base s = .next t) : Inv t := by
  obtain ⟨c, h⟩ := s
  have after : HartInv (afterEvents h) := hartInv_congr inv rfl rfl rfl rfl rfl
  obtain ⟨t, rfl, shape⟩ := stepWith_shapes ran
  rcases shape with ⟨n, cause, rfl⟩ | ⟨-, -, rfl⟩ | ⟨i, a, rd, r, v, -, -, -, accepted, rfl⟩ | ⟨aligned, kept, wf⟩
  · have drawn : HartInv { afterEvents h with draws := n } := hartInv_congr after rfl rfl rfl rfl rfl
    exact hartInv_trapInto drawn cause h.pc
  · exact hartInv_trapReturn after
  · exact hartInv_csrDone after accepted
  · have mstatus : t.mstatus = h.mstatus := by rw [kept]; rfl
    exact
      { memory := wf after.memory
        pc := aligned
        mepc := by rw [kept]; exact after.mepc
        mtvec := by rw [kept]; exact after.mtvec
        modes := fun k below => by rw [mstatus]; exact after.modes k below
        vm := by rw [mstatus]; exact after.vm }

/-- Settles O54: `step` is `stepWith` with no base ISA. -/
theorem invariantKeptByEveryStep : Obligations.InvariantKeptByEveryStep :=
  ⟨inv_of_stepWith .none, inv_of_stepWith⟩


/-! ### The boundary in every step (10_state.md R75, R78, R81) -/

@[simp] theorem csrDone_env {h : Hart c} {rd : Reg} {r : Csr} {writes : Bool} {v : Word c.width} :
    (csrDone h rd r writes v).env = h.env := by
  cases writes <;> simp [csrDone]

@[simp] theorem csrDone_boundary {h : Hart c} {rd : Reg} {r : Csr} {writes : Bool} {v : Word c.width} :
    (csrDone h rd r writes v).boundary = h.boundary := by
  cases writes <;> simp [csrDone]

/-- Every step passes one boundary: none of the four shapes changes the list or the count that the events leave. -/
theorem stepWith_passes_boundary {base : BaseISA} {h t : Hart c} (ran : stepWith base ⟨c, h⟩ = .next ⟨c, t⟩) :
    t.env = h.env.tail ∧ t.boundary = h.boundary + 1 := by
  obtain ⟨_, same, shape⟩ := stepWith_shapes ran
  cases same
  rcases shape with ⟨n, cause, rfl⟩ | ⟨-, -, rfl⟩ | ⟨i, a, rd, r, v, -, -, -, -, rfl⟩ | ⟨-, eq, -⟩
  · exact ⟨rfl, rfl⟩
  · exact ⟨rfl, rfl⟩
  · exact ⟨csrDone_env, csrDone_boundary⟩
  · rw [eq]; exact ⟨rfl, rfl⟩

/-- Settles O12: by the induction over the events of a boundary, and the four shapes of a step. -/
theorem eventsChangeOnlyTimerAndPending : Obligations.EventsChangeOnlyTimerAndPending := by
  refine ⟨fun c h => ?_, fun base c h t ran => stepWith_passes_boundary ran⟩
  obtain ⟨ssoft, hsoft, mtimer⟩ := foldEvents_bits h.mtimecmp (dueEvents h) ⟨h.mtime, h.mip⟩
  exact ⟨fun free => by rw [dueEvents, free], fun evs rest listed => by rw [dueEvents, listed], afterEvents_eq h,
    foldEvents_mtime _ _ _, ssoft, hsoft, mtimer⟩

/-! ### ERET in M-mode (10_state.md R46) -/

theorem exec_eret_of_machine {h : Hart c} (m : h.cur = .m) : exec .eret ⟨c, h⟩ = .next ⟨c, trapReturn h⟩ := by
  simp [exec, execEret, m]

theorem lowest_eq (modes : Modes) : modes.lowest = if modes = .m then .m else .u := by cases modes <;> rfl

/-- Settles O22: the state is `trapReturn`'s, the stack `popStack`'s. -/
theorem eretInMachineMode : Obligations.EretInMachineMode := fun c h m =>
  ⟨popStack c h.mstatus, exec_eret_of_machine m, fun _ below => stackEntry_popStack _ below,
    lowest_eq c.modes ▸ stackEntry_popStack_oldest _, rfl, rfl, rfl, rfl⟩

/-! ### The six CSR instructions, said once (40_csr_instructions.md R161) -/

/-- Each of the six is the shared operation on its own operands. -/
theorem exec_eq_csrInstr {i : Instr} {a : BitVec 12} {rd : Reg} (num : csrNumber i = some a)
    (dst : destination i = some rd) (h : Hart c) :
    ∃ new, exec i ⟨c, h⟩ = inState c (csrInstr h (i.wellFormed c) rd a (writesCsr i) new) := by
  cases i <;> cases num <;> cases dst <;> exact ⟨_, rfl⟩

/-- In M-mode, with legal addresses, the access check stops nothing but a write of an identity register. -/
theorem csrCheck_of_machine (ok : csrAddrOk c = true) {h : Hart c} (m : h.cur = .m) {r : Csr} {writes : Bool}
    (may : writes = true → ¬(r = .mcpuid ∨ r = .mimpid ∨ r = .mhartid)) :
    csrCheck h (csrAddr c r) writes = .register r := by
  have own := csrOfAddr_addr ok r
  refine (csrCheck_machine ok).mpr ⟨own, m, fun ⟨w, readOnly⟩ => may w ((csrReadOnly_iff ok own).mp readOnly)⟩

@[simp] theorem advance_reg (h : Hart c) (i : Reg) : h.advance.reg i = h.reg i := rfl

/-- A register that is not `x0` holds the CSR's old value after a CSR instruction. -/
theorem csrDone_reg {h : Hart c} {rd : Reg} {r : Csr} {writes : Bool} {v : Word c.width} (ne : rd ≠ 0) :
    (csrDone h rd r writes v).reg rd = csrRead h r := by
  rw [csrDone, advance_reg, reg_setReg_same _ ne]

/-- With rd = `x0` a CSR instruction leaves the general registers. -/
theorem csrDone_reg_of_x0 {h : Hart c} {r : Csr} {writes : Bool} {v : Word c.width} (i : Reg) :
    (csrDone h 0 r writes v).reg i = h.reg i := by
  rw [csrDone, setReg_zero, advance_reg]
  cases writes with
  | false => rfl
  | true => exact reg_congr (csrPut_x h v r) i

/-- A CSR instruction that does not write is a pure read in M-mode, legal on every register (40_csr_instructions.md R164). -/
theorem exec_csr_reads (ok : csrAddrOk c = true) {h : Hart c} (m : h.cur = .m) {i : Instr} {r : Csr} {rd : Reg}
    (num : csrNumber i = some (csrAddr c r)) (dst : destination i = some rd) (wf : i.wellFormed c = true)
    (pure : writesCsr i = false) : exec i ⟨c, h⟩ = .next ⟨c, (h.setReg rd (csrRead h r)).advance⟩ := by
  obtain ⟨new, ran⟩ := exec_eq_csrInstr num dst h
  rw [ran, wf, pure, csrInstr_done new (csrCheck_of_machine ok m (by simp)) (by simp)]
  rfl

/-- A CSR instruction in M-mode that writes a register whose every write is refused is refused. -/
theorem exec_csr_refused (ok : csrAddrOk c = true) {h : Hart c} (m : h.cur = .m) {i : Instr} {r : Csr} {rd : Reg}
    {why : Refusal} (num : csrNumber i = some (csrAddr c r)) (dst : destination i = some rd) (wf : i.wellFormed c = true)
    (writes : writesCsr i = true) (may : ¬(r = .mcpuid ∨ r = .mimpid ∨ r = .mhartid))
    (no : ∀ v, csrRefusal c v r = some why) : exec i ⟨c, h⟩ = .refused why := by
  obtain ⟨new, ran⟩ := exec_eq_csrInstr num dst h
  rw [ran, wf, writes, csrInstr_refused new (csrCheck_of_machine ok m fun _ => may) (no _)]
  rfl

/-- CSRRW in M-mode completes on every register whose write is accepted (40_csr_instructions.md R166). -/
theorem exec_csrrw_of_machine (ok : csrAddrOk c = true) {h : Hart c} (m : h.cur = .m) {rd rs1 : Reg}
    (legalRd : c.regOk rd = true) (legalRs1 : c.regOk rs1 = true) {r : Csr}
    (may : ¬(r = .mcpuid ∨ r = .mimpid ∨ r = .mhartid)) (accepted : csrRefusal c (h.reg rs1) r = none) :
    exec (.csrrw rd (csrAddr c r) rs1) ⟨c, h⟩ = .next ⟨c, csrDone h rd r true (h.reg rs1)⟩ := by
  have wf : (Instr.csrrw rd (csrAddr c r) rs1).wellFormed c = true := by simp [Instr.wellFormed, legalRd, legalRs1]
  have ran : exec (.csrrw rd (csrAddr c r) rs1) ⟨c, h⟩ =
      inState c (csrInstr h ((Instr.csrrw rd (csrAddr c r) rs1).wellFormed c) rd (csrAddr c r) true fun _ => h.reg rs1) :=
    rfl
  rw [ran, wf, csrInstr_done (fun _ => h.reg rs1) (csrCheck_of_machine ok m fun _ => may) fun _ => accepted]
  rfl

@[simp] theorem regOk_zero (c : Config) : c.regOk 0 = true := by simp [Config.regOk]

/-- CSRRS with rs1 = `x0` reads the CSR into rd in M-mode. -/
theorem exec_csrrs_x0 (ok : csrAddrOk c = true) {h : Hart c} (m : h.cur = .m) {rd : Reg} (legal : c.regOk rd = true)
    (ne : rd ≠ 0) (r : Csr) :
    ∃ t : Hart c, exec (.csrrs rd (csrAddr c r) 0) ⟨c, h⟩ = .next ⟨c, t⟩ ∧ t.reg rd = csrRead h r :=
  ⟨_, exec_csr_reads ok m rfl rfl (by simp [Instr.wellFormed, legal]) rfl, reg_setReg_same h ne _⟩

/-! ### `x0` and the identity registers (10_state.md R21, R28, R33, R37) -/

theorem csrNumber_of_destination {i : Instr} {rd : Reg} (dst : destination i = some rd) : ∃ a, csrNumber i = some a := by
  cases i <;> cases dst <;> exact ⟨_, rfl⟩

/-- Settles O36: a CSR instruction that goes on completes with rd = `x0`, or traps, which changes no register. -/
theorem x0StaysZero : Obligations.X0StaysZero := by
  refine ⟨fun c h => reg_zero h, fun c h t i dst ran r => ?_⟩
  obtain ⟨a, num⟩ := csrNumber_of_destination dst
  rcases exec_csr_cases num dst ran with ⟨q, v, -, -, rfl⟩ | ⟨-, rfl⟩
  · exact csrDone_reg_of_x0 r
  · exact reg_congr rfl r

/-- A write to the read-only class is an Illegal instruction in every mode (40_csr_instructions.md R165). -/
theorem exec_illegal_of_readOnly {i : Instr} {a : BitVec 12} (h : Hart c) (num : csrNumber i = some a)
    (writes : writesCsr i = true) (readOnly : csrReadOnly a = true) :
    exec i ⟨c, h⟩ = inState c (raise h .illegal) := by
  obtain ⟨rd, dst⟩ := destination_of_csrNumber num
  obtain ⟨new, ran⟩ := exec_eq_csrInstr num dst h
  have illegal : csrCheck h a (writesCsr i) = .illegal :=
    csrCheck_eq_illegal.mpr (.inr (by simp [csrPermits, writes, readOnly]))
  rw [ran, csrInstr_illegal new (.inr illegal)]

/-- Settles O37: reads by CSRRS, writes because the three addresses are of the read-only class. -/
theorem identityRegisters : Obligations.IdentityRegisters := by
  intro c h ok
  refine ⟨fun rd m legal ne => ?_, fun i r identity num writes => ?_⟩
  · have reads := exec_csrrs_x0 ok m legal ne
    exact ⟨reads .mcpuid, reads .mimpid, reads .mhartid⟩
  · exact exec_illegal_of_readOnly h num writes ((csrAddr_class ok r).2.mpr identity)

/-! ### `mstatus` (10_state.md R54, R56) -/

theorem mstatusModesOk_iff {v : Word c.width} : mstatusModesOk c v = true ↔
    c.modes = .m ∨ ∀ k < c.modes.depth, c.modes.has (Priv.ofCode (v.extractLsb' (c.layout.prvPos k) 2)) = true := by
  simp [mstatusModesOk, prvField]

theorem mstatusVmOk_iff {v : Word c.width} :
    mstatusVmOk c v = true ↔ ∃ s ∈ c.vmSupported, s.code = v.extractLsb' c.layout.vm 5 := by
  simp only [← vmScheme_ofCode_eq_some]
  change mstatusVmOk c v = true ↔ ∃ s ∈ c.vmSupported, VmScheme.ofCode (vmField c v) = some s
  unfold mstatusVmOk
  cases VmScheme.ofCode (vmField c v) <;> simp

/-- A write of `mstatus` that fails one of the two tests is refused. -/
theorem csrWrite_mstatus_refused {h : Hart c} {v : Word c.width}
    (bad : ¬(mstatusModesOk c v = true ∧ mstatusVmOk c v = true)) : ∃ why, csrWrite h v .mstatus = .refused why := by
  unfold csrWrite
  cases refusal : csrRefusal c v .mstatus with
  | none => exact absurd (csrRefusal_mstatus_eq_none.mp refusal) bad
  | some why => exact ⟨why, rfl⟩

theorem extStatus_code_eq_three {s : ExtStatus} : s.code = 3#2 ↔ s = .dirty := by cases s <;> decide

theorem extStatus_code_ofCode (b : BitVec 2) : (ExtStatus.ofCode b).code = b := by revert b; decide

/-- `SD` says whether `FS` or `XS` of the same word is Dirty (10_state.md R54). -/
theorem mstatusWord_sd_iff (ok : layoutOk c = true) (ms : MStatus) :
    (mstatusWord c ms).getLsbD c.layout.sd = true ↔
      (mstatusWord c ms).extractLsb' c.layout.fs 2 = 3#2 ∨ (mstatusWord c ms).extractLsb' c.layout.xs 2 = 3#2 := by
  rw [mstatusWord_sd ms ok, mstatusWord_fs ms ok, mstatusWord_xs ms ok, extStatus_code_eq_three, extStatus_code_eq_three]
  simp [sdOf]

/-- Settles O39: `SD` is computed from the two fields, which are Off without their units. -/
theorem sdSummarisesFsAndXs : Obligations.SdSummarisesFsAndXs := by
  intro c h ok
  refine ⟨mstatusWord_sd_iff ok h.mstatus, fun noFpu noXs => ?_⟩
  have sd : (mstatusWord c h.mstatus).getLsbD c.layout.sd = sdOf c h.mstatus := mstatusWord_sd h.mstatus ok
  exact sd.trans (by simp [sdOf, fsOf, xsOf, noFpu, noXs])

/-- The stack fields of the word after an accepted write: as written, but `PRV` 0b11 with M alone (10_state.md R44, R56). -/
theorem mstatusWord_put_stack (ok : layoutOk c = true) (ms : MStatus) (v : Word c.width) {k : Nat}
    (below : k < c.modes.depth) :
    (mstatusWord c (mstatusPut c ms v)).getLsbD (c.layout.iePos k) = v.getLsbD (c.layout.iePos k) ∧
    (mstatusWord c (mstatusPut c ms v)).extractLsb' (c.layout.prvPos k) 2 =
      if c.modes = .m then 0b11#2 else v.extractLsb' (c.layout.prvPos k) 2 := by
  have low : k < 4 := Nat.lt_of_lt_of_le below (depth_le c)
  rw [mstatusWord_ie _ ok low, mstatusWord_prv _ ok low, stackEntry_mstatusPut ms v below]
  refine ⟨rfl, ?_⟩
  split
  · rfl
  · exact code_ofCode _

/-- The stack fields beyond the depth are 0 (10_state.md R44). -/
theorem mstatusWord_beyond (ok : layoutOk c = true) (ms : MStatus) {k : Nat} (beyond : c.modes.depth ≤ k) (low : k < 4) :
    (mstatusWord c ms).getLsbD (c.layout.iePos k) = false ∧
    (mstatusWord c ms).extractLsb' (c.layout.prvPos k) 2 = 0#2 := by
  rw [mstatusWord_ie ms ok low, mstatusWord_prv ms ok low, stackEntry_beyond ms beyond]
  exact ⟨rfl, rfl⟩

theorem mstatusWord_put_fs (ok : layoutOk c = true) (ms : MStatus) (v : Word c.width) :
    (mstatusWord c (mstatusPut c ms v)).extractLsb' c.layout.fs 2 =
      if c.hasFpu then v.extractLsb' c.layout.fs 2 else 0#2 := by
  rw [mstatusWord_fs _ ok, fsOf]
  cases unit : c.hasFpu
  · rfl
  · simp [mstatusPut, unit, extStatus_code_ofCode]

theorem mstatusWord_put_xs (ok : layoutOk c = true) (ms : MStatus) (v : Word c.width) :
    (mstatusWord c (mstatusPut c ms v)).extractLsb' c.layout.xs 2 =
      if c.hasXs then v.extractLsb' c.layout.xs 2 else 0#2 := by
  rw [mstatusWord_xs _ ok, xsOf]
  cases unit : c.hasXs
  · rfl
  · simp [mstatusPut, unit, extStatus_code_ofCode]

theorem mstatusWord_put_vm (ok : layoutOk c = true) (ms : MStatus) {v : Word c.width} {s : VmScheme}
    (named : s.code = v.extractLsb' c.layout.vm 5) :
    (mstatusWord c (mstatusPut c ms v)).extractLsb' c.layout.vm 5 = v.extractLsb' c.layout.vm 5 := by
  have scheme : VmScheme.ofCode (vmField c v) = some s := vmScheme_ofCode_eq_some.mpr named
  rw [mstatusWord_vm _ ok, ← named, mstatusPut, scheme]
  rfl

/-- In the default layout bits 22 to XLEN-2 of the word are 0 (10_state.md R40). -/
theorem mstatusWord_default_gap (e : c.layout = Layout.default c.width) (ms : MStatus) {i : Nat} (above : 22 ≤ i)
    (below : i < c.width - 1) : (mstatusWord c ms).getLsbD i = false := by
  apply mstatusWord_gap
  rw [e]
  simp only [Layout.mstatusSpans, Layout.default, topBit, List.forall_mem_cons, List.not_mem_nil, false_imp_iff,
    implies_true, and_true]
  omega

/-- Settles O38: the two refusals are the two tests; each field of an accepted write by its own lemma. -/
theorem mstatusWriteRule : Obligations.MstatusWriteRule := by
  intro c h v ok
  refine ⟨fun ⟨several, k, below, no⟩ => csrWrite_mstatus_refused fun ⟨modes, _⟩ => ?_,
    fun unsupported => csrWrite_mstatus_refused fun ⟨_, vm⟩ => ?_, fun modes vm => ?_⟩
  · have yes := (mstatusModesOk_iff.mp modes).resolve_left several k below
    exact absurd (yes.symm.trans no) (by decide)
  · obtain ⟨s, supported, named⟩ := mstatusVmOk_iff.mp vm
    exact unsupported s supported named
  · have accepted : csrRefusal c v .mstatus = none :=
      csrRefusal_mstatus_eq_none.mpr ⟨mstatusModesOk_iff.mpr modes, mstatusVmOk_iff.mpr vm⟩
    obtain ⟨s, -, named⟩ := vm
    refine ⟨csrPut h v .mstatus, by rw [csrWrite, accepted], fun k below => mstatusWord_put_stack ok _ v below,
      fun k beyond low => mstatusWord_beyond ok _ beyond low, mstatusWord_put_fs ok _ v, mstatusWord_put_xs ok _ v,
      mstatusWord_mprv _ ok, mstatusWord_put_vm ok _ named, fun i out => mstatusWord_gap _ out,
      fun e i above below => mstatusWord_default_gap e _ above below, ?_⟩
    exact Bool.eq_iff_iff.mpr ((mstatusWord_sd_iff ok _).trans decide_eq_true_iff.symm)

/-! ### `mtvec` (10_state.md R57, R60, R61) -/

/-- `topWritable w k` is the highest writable bit below k. -/
theorem topWritable_eq_some {n : Nat} {w : Word n} {k top : Nat} (found : topWritable w k = some top) :
    top < k ∧ w.getLsbD top = true ∧ ∀ j, top < j → j < k → w.getLsbD j = false := by
  induction k with
  | zero => cases found
  | succ k ih =>
    unfold topWritable at found
    split at found
    · rename_i here
      cases found
      exact ⟨Nat.lt_succ_self _, here, fun j above below => by omega⟩
    · rename_i clear
      obtain ⟨lt, set, above⟩ := ih found
      refine ⟨Nat.lt_succ_of_lt lt, set, fun j high below => ?_⟩
      rcases Nat.lt_succ_iff_lt_or_eq.mp below with lt | rfl
      · exact above j high lt
      · simpa using clear

/-- The bits of the gap the sign is extended over (10_state.md R61). -/
theorem getLsbD_signGap {n top i : Nat} (low : top < n - 1) (lt : i < n) :
    (signGap n top).getLsbD i = decide (top < i ∧ i < n - 1) := by
  have split : 2 ^ (n - 1) - 2 ^ (top + 1) = (2 ^ (n - 1 - (top + 1)) - 1) * 2 ^ (top + 1) := by
    rw [Nat.sub_mul, ← Nat.pow_add, Nat.sub_add_cancel low, Nat.one_mul]
  rw [signGap, split, BitVec.getLsbD_ofNat, ← Nat.shiftLeft_eq, Nat.testBit_shiftLeft, Nat.testBit_two_pow_sub_one,
    Bool.eq_iff_iff]
  simp only [Bool.and_eq_true, decide_eq_true_eq]
  omega

/-- What a legal `MTVEC_W` with writable bits gives: the top bit and a highest writable bit below it (10_state.md R61). -/
theorem sign_and_topWritable_of_mtvecWOk (ok : mtvecWOk c = true) (writable : c.mtvecW ≠ 0) :
    c.mtvecW.getLsbD (topBit c.width) = true ∧ ∃ top, topWritable c.mtvecW (c.width - 1) = some top := by
  simp only [mtvecWOk, Bool.or_eq_true, beq_iff_eq, writable, false_or, Bool.and_eq_true] at ok
  obtain ⟨⟨⟨⟨sign, -⟩, -⟩, -⟩, found⟩ := ok
  cases top : topWritable c.mtvecW (c.width - 1) with
  | none => simp [top] at found
  | some t => exact ⟨sign, t, rfl⟩

/-- A word that takes the bits of `v` under a mask and keeps the others of `old`. -/
theorem getLsbD_merge {n : Nat} (old v mask : Word n) {i : Nat} (lt : i < n) :
    ((old &&& ~~~mask) ||| (v &&& mask)).getLsbD i = if mask.getLsbD i then v.getLsbD i else old.getLsbD i := by
  rw [BitVec.getLsbD_or, BitVec.getLsbD_and, BitVec.getLsbD_and, BitVec.getLsbD_not]
  cases mask.getLsbD i <;> simp [lt]

/-- A word whose bits under a mask are all set or all cleared. -/
theorem getLsbD_fill {n : Nat} (v mask : Word n) (b : Bool) {i : Nat} (lt : i < n) :
    (if b then v ||| mask else v &&& ~~~mask).getLsbD i = if mask.getLsbD i then b else v.getLsbD i := by
  cases b with
  | false =>
    rw [if_neg Bool.false_ne_true, BitVec.getLsbD_and, BitVec.getLsbD_not]
    cases mask.getLsbD i <;> simp [lt]
  | true =>
    rw [if_pos rfl, BitVec.getLsbD_or]
    cases mask.getLsbD i <;> simp

/-- Each bit after a write of `mtvec` with writable bits (10_state.md R61). -/
theorem getLsbD_mtvecPut {old v : Word c.width} {top i : Nat} (writable : c.mtvecW ≠ 0)
    (sign : c.mtvecW.getLsbD (topBit c.width) = true) (found : topWritable c.mtvecW (c.width - 1) = some top)
    (lt : i < c.width) : (mtvecPut c old v).getLsbD i =
      if i < 2 then false
      else if top < i ∧ i < c.width - 1 then v.getLsbD (c.width - 1)
      else if c.mtvecW.getLsbD i then v.getLsbD i
      else old.getLsbD i := by
  have wide := width_ge c
  have low : (3#c.width).getLsbD i = decide (i < 2) := by
    rw [BitVec.getLsbD_ofNat, show 3 = 2 ^ 2 - 1 from rfl, Nat.testBit_two_pow_sub_one]
    simp [lt]
  have inWord : topBit c.width < c.width := by unfold topBit; omega
  simp only [mtvecPut, writable, if_false, found]
  rw [BitVec.getLsbD_and, BitVec.getLsbD_not, low, getLsbD_fill _ _ _ lt,
    getLsbD_signGap (topWritable_eq_some found).1 lt, getLsbD_merge _ _ _ lt, getLsbD_merge _ _ _ inWord, sign]
  by_cases two : i < 2 <;> simp [two, lt, topBit]

/-- Settles O40: bit by bit by `getLsbD_mtvecPut`; without writable bits the reset value is read whatever is stored. -/
theorem mtvecWriteRule : Obligations.MtvecWriteRule := by
  intro c h v ok
  refine ⟨fun hardwired => ⟨?_, if_pos hardwired⟩, fun writable => ?_⟩
  · simp [csrPut, mtvecPut, hardwired]
  · obtain ⟨sign, top, found⟩ := sign_and_topWritable_of_mtvecWOk ok writable
    obtain ⟨lt, topSet, above⟩ := topWritable_eq_some found
    refine ⟨top, found, lt, topSet, above, fun i inWord => ?_⟩
    have read : csrRead (csrPut h v .mtvec) .mtvec = mtvecPut c h.mtvec v := if_neg writable
    rw [read, getLsbD_mtvecPut writable sign found inWord]

/-! ### `mtdeleg` (10_state.md R63, R65) -/

theorem csrRead_csrPut_mtdeleg (h : Hart c) (v : Word c.width) :
    csrRead (csrPut h v .mtdeleg) .mtdeleg = v &&& c.mtdelegW := by
  simp [csrRead, csrPut, Hart.mtdelegValue, BitVec.and_assoc]

/-- After a CSR instruction that writes, the CSR reads as after the write: neither rd nor `pc` is a CSR. -/
theorem csrRead_csrDone {h : Hart c} {rd : Reg} {r : Csr} {v : Word c.width} :
    csrRead (csrDone h rd r true v) r = csrRead (csrPut h v r) r := by
  cases r <;> simp [csrDone, csrRead, Hart.mtvecValue, Hart.mtdelegValue]

/-- Settles O41: the second instruction reads what the first left. -/
theorem mtdelegProbing : Obligations.MtdelegProbing := by
  refine ⟨fun c h v => csrRead_csrPut_mtdeleg h v, fun c h rd rs1 ok m legalRd legalRs1 ne ones => ?_⟩
  have probe := exec_csrrw_of_machine ok m (regOk_zero c) legalRs1 (r := .mtdeleg) (by simp) rfl
  obtain ⟨u, read, value⟩ := exec_csrrs_x0 ok (h := csrDone h 0 .mtdeleg true (h.reg rs1)) m legalRd ne .mtdeleg
  refine ⟨_, u, probe, read, ?_⟩
  rw [value, csrRead_csrDone, csrRead_csrPut_mtdeleg, ones, BitVec.allOnes_and]

/-! ### `mip` and `mie` (10_state.md R70 to R72) -/

theorem intGet_mipPut_software (b : IntBits) (v : Word c.width) (x : Level) :
    intGet c (mipPut c b v) x .software = (c.modes.has x.priv && v.getLsbD (intPos c.layout.mip x .software)) := by
  cases has : c.modes.has x.priv <;> cases x <;> simp [intGet, has, mipPut, IntBits.get, writtenBit]

theorem intGet_mipPut_timer (b : IntBits) (v : Word c.width) (x : Level) :
    intGet c (mipPut c b v) x .timer = intGet c b x .timer := by
  cases x <;> rfl

theorem intGet_miePut (b : IntBits) (v : Word c.width) (x : Level) (k : IntKind) :
    intGet c (miePut c b v) x k = (c.modes.has x.priv && v.getLsbD (intPos c.layout.mie x k)) := by
  cases has : c.modes.has x.priv <;> cases x <;> cases k <;> simp [intGet, has, miePut, IntBits.get, writtenBit]

/-- Settles O42: each named bit reads as the hart has it after the write, every other bit 0. -/
theorem mipAndMieWriteRule : Obligations.MipAndMieWriteRule := by
  intro c h v ok
  obtain ⟨-, mip, mie, -⟩ := layout_spans ok
  refine ⟨fun x => ?_, fun x => ?_, fun x k => ?_, fun i other => intWord_other _ other,
    fun i other => intWord_other _ other⟩
  · exact (intWord_get mip _ x .software).trans (intGet_mipPut_software h.mip v x)
  · exact (intWord_get mip _ x .timer).trans ((intGet_mipPut_timer h.mip v x).trans (intWord_get mip _ x .timer).symm)
  · exact (intWord_get mie _ x k).trans (intGet_miePut h.mie v x k)

/-! ### The timer registers (10_state.md R78 to R81) -/

/-- Settles O44: the read is CSRRS's, the refusals are `exec_csr_refused` for each of the six. -/
theorem mtimeReadsAndRefusesWrites : Obligations.MtimeReadsAndRefusesWrites := by
  intro c h rd rs1 z ok m legalRd legalRs1
  have refused : ∀ {i : Instr}, csrNumber i = some (csrAddr c .mtime) → destination i = some rd → i.wellFormed c = true →
      writesCsr i = true → exec i ⟨c, h⟩ = .refused .mtimeWrite := fun num dst wf writes =>
    exec_csr_refused ok m num dst wf writes (by simp) (fun _ => rfl)
  have two : (c.regOk rd && c.regOk rs1) = true := by rw [legalRd, legalRs1]; rfl
  refine ⟨fun ne => BitVec.ofNat_toNat _ _ ▸ exec_csrrs_x0 ok m legalRd ne .mtime, refused rfl rfl two rfl,
    fun ne => ⟨refused rfl rfl two (bne_iff_ne.mpr ne), refused rfl rfl two (bne_iff_ne.mpr ne)⟩,
    refused rfl rfl legalRd rfl,
    fun ne => ⟨refused rfl rfl legalRd (bne_iff_ne.mpr ne), refused rfl rfl legalRd (bne_iff_ne.mpr ne)⟩⟩

theorem csrRead_mtimecmpPut (h : Hart c) (v : Word c.width) :
    csrRead (mtimecmpPut h v) .mtimecmp = (v.setWidth 32).setWidth c.width := by
  unfold mtimecmpPut
  split <;> rfl

/-- Settles O43: the register by `csrRead_mtimecmpPut`, MTIP by the two cases of `mtimecmpPut`. -/
theorem mtimecmpWriteRule : Obligations.MtimecmpWriteRule := fun _ h v =>
  ⟨csrRead_mtimecmpPut h v, fun later => congrArg Hart.mip (if_neg later : mtimecmpPut h v = _),
    fun _ => let ⟨b, _, put⟩ := mtimecmpPut_eq h v; ⟨b, congrArg Hart.mip put⟩⟩

/-- What a tick leaves (10_state.md R78, R80). -/
theorem tick_advances_and_posts (mtimecmp : BitVec 32) (t : Timer c) :
    (tick mtimecmp t).mtime.toNat = (t.mtime.toNat + 1) % 2 ^ c.mtimeBits ∧
    ((tick mtimecmp t).mip.mtimer = true ↔ t.mip.mtimer = true ∨ (tick mtimecmp t).mtime.setWidth 32 = mtimecmp) ∧
    (tick mtimecmp t).mip = { t.mip with mtimer := (tick mtimecmp t).mip.mtimer } := by
  refine ⟨?_, by simp, rfl⟩
  change (t.mtime + BitVec.ofNat c.mtimeBits 1).toNat = _
  rw [BitVec.toNat_add, BitVec.toNat_ofNat, Nat.add_mod_mod]

/-- Settles O48: the boundary's events are the one tick. -/
theorem tickAdvancesAndPosts : Obligations.TickAdvancesAndPosts := by
  refine ⟨fun c mtimecmp t => tick_advances_and_posts mtimecmp t, fun c h due => ?_⟩
  have events : afterEvents h = { h with mtime := (tick h.mtimecmp ⟨h.mtime, h.mip⟩).mtime,
                                         mip := (tick h.mtimecmp ⟨h.mtime, h.mip⟩).mip,
                                         env := h.env.tail, boundary := h.boundary + 1 } := by
    simp only [afterEvents, due]
    rfl
  obtain ⟨mtime, mtimer, mip⟩ := tick_advances_and_posts h.mtimecmp ⟨h.mtime, h.mip⟩
  rw [events]
  exact ⟨mtime, mtimer, mip, rfl⟩

/-! ### `mscratch`, `mepc`, `mcause` and `mbadaddr` (10_state.md R84 to R92) -/

/-- Settles O45: CSRRW completes on both registers, and a plain register reads what was put. -/
theorem scratchAndBadAddrHoldTheWord : Obligations.ScratchAndBadAddrHoldTheWord := by
  intro c h rd rs1 ok m legalRd legalRs1
  refine ⟨⟨_, exec_csrrw_of_machine ok m legalRd legalRs1 (by simp) rfl, csrRead_csrDone, csrDone_reg⟩,
    ⟨_, exec_csrrw_of_machine ok m legalRd legalRs1 (by simp) rfl, csrRead_csrDone, csrDone_reg⟩, fun ne => ?_⟩
  exact ⟨_, exec_csrrw_of_machine ok m legalRd legalRd (by simp) rfl, csrDone_reg ne,
    csrRead_csrDone (r := .mscratch)⟩

/-- Each bit of an address whose low bits are dropped (10_state.md R86). -/
theorem getLsbD_alignPc (v : Word c.width) {i : Nat} (lt : i < c.width) :
    (c.alignPc v).getLsbD i = if i = 0 ∨ (i = 1 ∧ c.ialign = .a32) then false else v.getLsbD i := by
  obtain ⟨k, low, dropped⟩ : ∃ k, c.ialign.bytes - 1 = 2 ^ k - 1 ∧ (i < k ↔ i = 0 ∨ (i = 1 ∧ c.ialign = .a32)) := by
    cases c.ialign
    · exact ⟨1, rfl, by simp⟩
    · exact ⟨2, rfl, by simp; omega⟩
  rw [Config.alignPc, low, BitVec.getLsbD_and, BitVec.getLsbD_not, BitVec.getLsbD_ofNat, Nat.testBit_two_pow_sub_one]
  by_cases drop : i < k
  · simp [drop, lt, dropped.mp drop]
  · simp [drop, lt, mt dropped.mpr drop]

/-- Settles O46: the write is `alignPc`. -/
theorem mepcWriteRule : Obligations.MepcWriteRule := fun c _ v =>
  ⟨fun _ lt => getLsbD_alignPc v lt, pcAligned_alignPc c v⟩

/-- Each bit of `mcause` after a write in the default layout (10_state.md R90). -/
theorem getLsbD_mcauseWord_put_default (e : c.layout = Layout.default c.width) (v : Word c.width) (i : Nat) :
    (mcauseWord c (mcausePut c v)).getLsbD i = if i = c.width - 1 ∨ i < 4 then v.getLsbD i else false := by
  have ok := layoutOk_default e
  have interrupt : c.layout.interrupt = c.width - 1 := by rw [e]; rfl
  have code : c.layout.code = 0 := by rw [e]; rfl
  by_cases top : i = c.width - 1
  · have bit := mcauseWord_interrupt ok (mcausePut c v)
    rw [mcausePut, interrupt] at bit
    simpa [top, mcausePut, interrupt] using bit
  · by_cases low : i < 4
    · have bit := congrArg (BitVec.getLsbD · i) (mcauseWord_code ok (mcausePut c v))
      simpa [top, low, code, mcausePut] using bit
    · rw [mcauseWord_gap _ (by omega) (by omega)]
      simp [top, low]

/-- Settles O47: the word has two fields and nothing else. -/
theorem mcauseWriteRule : Obligations.McauseWriteRule := by
  intro c h v
  refine ⟨fun i interrupt code => mcauseWord_gap _ interrupt code,
    fun ok => ⟨mcauseWord_interrupt ok (mcausePut c v), mcauseWord_code ok (mcausePut c v)⟩,
    fun e i _ => ⟨fun above below => ?_, getLsbD_mcauseWord_put_default e v i⟩⟩
  apply mcauseWord_gap <;> rw [e] <;> simp only [Layout.default, topBit] <;> omega

/-! ### What never changes, and reset (10_state.md R28, R37, R97 to R99) -/

/-- Settles O57: the configuration indexes the hart, and every shape of a step is one of the same hart. -/
theorem configurationNeverChanges : Obligations.ConfigurationNeverChanges := by
  rintro base ⟨c, h⟩ t ran
  obtain ⟨t, rfl, -⟩ := stepWith_shapes ran
  exact ⟨rfl, rfl, rfl⟩

@[simp] theorem cur_reset (c : Config) : (Hart.reset c).cur = .m := by
  cases modes : c.modes <;> simp [Hart.cur, stackEntry, modes, Hart.reset, MStatus.reset, Modes.depth, Modes.prv]

@[simp] theorem ie_reset (c : Config) : (Hart.reset c).ie = false := by
  cases modes : c.modes <;> simp [Hart.ie, stackEntry, modes, Hart.reset, MStatus.reset, Modes.depth]

/-- `mtvec` holds its reset value at reset, hardwired or not (10_state.md R58). -/
theorem mtvecValue_reset (c : Config) : (Hart.reset c).mtvecValue = c.mtvecReset := ite_self _

/-- The reset vector lies 0x100 above `mtvec` in both standard pairs (10_state.md R58). -/
theorem resetVector_eq (c : Config) : c.resetVector = c.mtvecReset + BitVec.ofNat c.width 0x100 := by
  unfold Config.resetVector Config.mtvecReset
  have double : BitVec.ofNat c.width 0x200 = BitVec.ofNat c.width 0x100 + BitVec.ofNat c.width 0x100 :=
    BitVec.ofNat_add 0x100 0x100
  cases c.vecHigh <;> simp only [double, if_true, if_false, Bool.false_eq_true]
  abel

/-- Settles O58: each clause is a value of `Hart.reset`. -/
theorem resetValuesOfTheSpec : Obligations.ResetValuesOfTheSpec := by
  intro c
  refine ⟨cur_reset c, ie_reset c, rfl, rfl, reg_zero _, fun low => ?_, fun high => ?_, ⟨rfl, rfl, rfl⟩, fun alone => ?_,
    fun noFpu => ?_, fun noXs => ?_, fun _ => ?_, ?_⟩
  · exact ⟨(mtvecValue_reset c).trans (by rw [Config.mtvecReset, low]; rfl),
      (by rw [Config.resetVector, low]; rfl : c.resetVector = _)⟩
  · exact ⟨(mtvecValue_reset c).trans (by rw [Config.mtvecReset, high]; rfl),
      (by rw [Config.resetVector, high]; rfl : c.resetVector = _)⟩
  · simp [stackEntry, alone, Modes.depth, Modes.prv]
  · simp [fsOf, noFpu]
  · simp [xsOf, noXs]
  · exact BitVec.zero_and
  · exact (resetVector_eq c).trans (congrArg (· + _) (mtvecValue_reset c).symm)

/-- In M-mode with IE = 0 no maskable interrupt may be taken (60_exceptions.md R229). -/
theorem takeable_of_machine_masked {h : Hart c} (m : h.cur = .m) (masked : h.ie = false) (x : Level) (k : IntKind) :
    takeable h x k = false := by
  have notBelow : Priv.below .m x.priv = false := by cases x <;> rfl
  simp [takeable, m, masked, notBelow]

/-- Settles O59: reset leaves M-mode with IE = 0, whatever `mip` and `mie` hold. -/
theorem noMaskableInterruptAtReset : Obligations.NoMaskableInterruptAtReset := by
  intro c pending enabled
  rw [chooseInterrupt_none_iff, takeables, List.filter_eq_nil_iff]
  rintro ⟨x, k⟩ -
  exact ne_true_of_eq_false (takeable_of_machine_masked
    (h := { Hart.reset c with mip := pending, mie := enabled }) (cur_reset c) (ie_reset c) x k)

end Sys2Proof.Machine
end

section
/-! PROOFS of the statements about 20_memory.md: the outcomes of fetches and of data accesses, in order, and the bytes they
move. -/

namespace Sys2Proof.Machine

open Sys2Proof.Safety

variable {c : Config}

/-! ### Little-endian values (20_memory.md R108) -/

/-- Byte j of the value that bytes make is the j-th of them. -/
theorem extractLsb'_ofNat_leNat (bs : List Byte) {w j : Nat} (fits : 8 * j + 8 ≤ w) (lt : j < bs.length) :
    (BitVec.ofNat w (leNat bs)).extractLsb' (8 * j) 8 = bs[j] := by
  have pow : 256 ^ j = 2 ^ (8 * j) := Nat.pow_mul 2 8 j |>.symm
  have byte := leNat_byte bs j lt
  apply BitVec.eq_of_getLsbD_eq
  intro i hi
  have within : 8 * j + i < w := by omega
  rw [BitVec.getLsbD_extractLsb', BitVec.getLsbD_ofNat, BitVec.getLsbD, ← byte, pow, show 256 = 2 ^ 8 from rfl,
    Nat.testBit_mod_two_pow, Nat.testBit_div_two_pow, Nat.add_comm i]
  simp [hi, within]

/-- Byte j of a value read from memory is the byte of memory at the address + j. -/
theorem extractLsb'_readBytes {n w k j : Nat} (m : Memory) (a : Word n) (fits : 8 * j + 8 ≤ w) (lt : j < k) :
    (BitVec.ofNat w (leNat (m.readBytes a k))).extractLsb' (8 * j) 8 = m.read (byteAddr a j) := by
  rw [extractLsb'_ofNat_leNat _ fits (by simpa [Memory.readBytes] using lt)]
  simp [Memory.readBytes]

/-- Byte j of the bytes stored for a value is byte j of the value. -/
theorem getElem_leBytes_toNat {w k j : Nat} (v : BitVec w) (lt : j < (leBytes k v.toNat).length) :
    (leBytes k v.toNat)[j] = v.extractLsb' (8 * j) 8 := by
  rw [getElem_leBytes, BitVec.extractLsb', Nat.shiftRight_eq_div_pow, Nat.pow_mul]

/-- The bytes stored for a value make that value. -/
theorem ofNat_leNat_leBytes {k : Nat} (v : BitVec (8 * k)) : BitVec.ofNat (8 * k) (leNat (leBytes k v.toNat)) = v := by
  rw [leNat_leBytes, show 256 ^ k = 2 ^ (8 * k) from (Nat.pow_mul 2 8 k).symm, Nat.mod_eq_of_lt v.isLt,
    BitVec.ofNat_toNat, BitVec.setWidth_eq]

/-! ### The fetch (20_memory.md R106) -/

theorem fetch_of_misaligned {h : Hart c} {a : Word c.width} (misaligned : c.pcAligned a = false) :
    fetch h a = .raise (.instMisaligned a) := by
  simp [fetch, misaligned]

theorem fetch_of_scheme {h : Hart c} {a : Word c.width} (aligned : c.pcAligned a = true) (scheme : h.mstatus.vm ≠ .mbare) :
    fetch h a = .refuse .vmScheme := by
  simp [fetch, aligned, scheme]

theorem fetch_of_bare {h : Hart c} {a : Word c.width} (aligned : c.pcAligned a = true) (bare : h.mstatus.vm = .mbare) :
    fetch h a = if allows c .execute a 4 then .ok (BitVec.ofNat 32 (leNat (h.mem.readBytes a 4)))
      else .raise (.instAccess (fetchFaultAddr c a)) := by
  cases may : allows c .execute a 4 <;> simp [fetch, aligned, bare, may]

/-- A fault records the instruction's own address with 32-bit alignment, or if the first half may not be executed. -/
theorem fetchFaultAddr_own {a : Word c.width} (own : c.ialign = .a32 ∨ allows c .execute a 2 = false) :
    fetchFaultAddr c a = a := by
  unfold fetchFaultAddr
  cases align : c.ialign with
  | a32 => rfl
  | a16 => rw [own.resolve_left (by simp [align])]; rfl

/-- A fault records the second half's address with 16-bit alignment, if the first half may be executed. -/
theorem fetchFaultAddr_second {a : Word c.width} (a16 : c.ialign = .a16) (first : allows c .execute a 2 = true) :
    fetchFaultAddr c a = a + 2 := by
  simp [fetchFaultAddr, a16, first]

/-- Settles O13: the three checks of `fetch` in order, then byte j of the word read. -/
theorem fetchOutcomes : Obligations.FetchOutcomes := by
  intro c h a
  refine ⟨fun i j lt => ?_, fetch_of_misaligned, fetch_of_scheme, fun aligned bare no => ?_, fun aligned bare may => ?_⟩
  · rw [halfAt, extractLsb'_readBytes _ _ (by omega) lt, byteAddr_halfAddr]
  · have fault : fetch h a = .raise (.instAccess (fetchFaultAddr c a)) := by rw [fetch_of_bare aligned bare, no]; rfl
    exact ⟨fun own => by rw [fault, fetchFaultAddr_own own], fun a16 first => by rw [fault, fetchFaultAddr_second a16 first]⟩
  · exact ⟨_, by rw [fetch_of_bare aligned bare, if_pos may], fun j lt => extractLsb'_readBytes _ _ (by omega) lt⟩

/-! ### A fetch that faults, in the step (20_memory.md R106, R115) -/

/-- An exception that is not delegated enters the M-mode handler (60_exceptions.md R237). -/
theorem raise_of_undelegated {h : Hart c} {e : Exc c.width}
    (undelegated : h.cur = .m ∨ (csrRead h .mtdeleg).getLsbD e.code.toNat = false) :
    raise h e = .next (trapInto h (.exception e) h.pc) := by
  rcases undelegated with m | clear
  · exact raise_of_machine h e m
  · have clear : h.mtdelegValue.getLsbD e.code.toNat = false := clear
    exact raise_eq_next.mpr ⟨by simp [handlerMode, clear], rfl⟩

/-- Where an exception goes: the first entry of `EXTRA_VECTORS` for its cause, or the one of the mode it comes from. -/
theorem trapInto_exception_pc (h : Hart c) (e : Exc c.width) (epc : Word c.width) :
    (trapInto h (.exception e) epc).pc =
      h.mtvecValue + match c.extraVectors.find? (fun v => v.interrupt == false && v.code == e.code) with
        | some own => BitVec.ofNat c.width (4 * own.slot)
        | none => BitVec.ofNat c.width (h.cur.code.toNat * 0x40) := by
  rw [trapInto_pc, offset_exception, Config.extraVector]
  cases c.extraVectors.find? (fun v => v.interrupt == false && v.code == e.code) <;> rfl

/-- Where the base ISA's rule makes no other length of the instruction, an exception of the fetch is the instruction's. -/
theorem runInstr_of_fetch_raise {base : BaseISA} {h : Hart c} {e : Exc c.width} (own : fetchOwnLength base h h.pc = none)
    (fault : fetch h h.pc = .raise e) : runInstr base ⟨c, h⟩ = inState c (raise h e) := by
  simp [runInstr, own, fault]

theorem runInstr_of_fetch_refuse {base : BaseISA} {h : Hart c} {r : Refusal} (own : fetchOwnLength base h h.pc = none)
    (refused : fetch h h.pc = .refuse r) : runInstr base ⟨c, h⟩ = .refused r := by
  simp [runInstr, own, refused]

theorem Rest.endsWith_iff {rest : Rest} {half : Half} :
    rest.endsWith half = true ↔ ∃ next, rest = .goesOn next ∧ next half = .ends := by
  cases rest with
  | ends => simp [Rest.endsWith]
  | goesOn next => cases left : next half <;> simp [Rest.endsWith, left]

/-- Nothing goes on after the end. -/
theorem restAfter_ends_ne_goesOn {hs : List Half} {next : Half → Rest} : restAfter .ends hs ≠ some (.goesOn next) := by
  cases hs <;> simp [restAfter]

/-- A rule that goes on after the halves `f 0` to `f (n - 1)`, and is complete with `f 0`, has seen no half. -/
theorem eq_zero_of_endsWith {rest : Rest} {next : Half → Rest} {f : Nat → Half} {n : Nat}
    (wants : restAfter rest ((List.range n).map f) = some (.goesOn next)) (ends : rest.endsWith (f 0) = true) : n = 0 := by
  obtain ⟨first, rfl, complete⟩ := Rest.endsWith_iff.mp ends
  cases n with
  | zero => rfl
  | succ n =>
    rw [List.range_succ_eq_map, List.map_cons, restAfter, complete] at wants
    exact absurd wants restAfter_ends_ne_goesOn

/-- With 16-bit alignment and no row matched, the first half that the base ISA's rule wants and that may not be executed is an
access fault. A rule that wants two halves is the case of an ordinary 32-bit fetch. -/
theorem runInstr_of_blocked_half (base : BaseISA) {h : Hart c} {n : Nat} {next : Half → Rest} (a16 : c.ialign = .a16)
    (aligned : c.pcAligned h.pc = true) (bare : h.mstatus.vm = .mbare)
    (wants : restAfter (base.rest c (halfAt h h.pc 0)) ((List.range n).map (fun i => halfAt h h.pc (i + 1))) =
      some (.goesOn next))
    (may : ∀ i < n + 1, allows c .execute (halfAddr h.pc i) 2 = true)
    (blocked : allows c .execute (halfAddr h.pc (n + 1)) 2 = false)
    (noRow : ∀ w i, fetch h h.pc = .ok w → decodeWord w ≠ .ok i) :
    runInstr base ⟨c, h⟩ = inState c (raise h (.instAccess (halfAddr h.pc (n + 1)))) := by
  have first : allows c .execute h.pc 2 = true := by simpa [halfAddr] using may 0 (Nat.succ_pos n)
  cases ends : (base.rest c (halfAt h h.pc 0)).endsWith (halfAt h h.pc 1) with
  | true =>
    obtain rfl := eq_zero_of_endsWith wants ends
    refine runInstr_of_fetch_raise (by simp [fetchOwnLength, ends]) ?_
    rw [fetch_of_bare aligned bare, allows_word, first, blocked, fetchFaultAddr_second a16 first]
    rfl
  | false =>
    have fault : fetchRest h h.pc (base.rest c (halfAt h h.pc 0)) [halfAt h h.pc 0] =
        .raise (.instAccess (halfAddr h.pc (n + 1))) := by
      rw [fetchRest_after h h.pc n (left := .goesOn next) (by simpa [Nat.add_comm] using wants)
        (fun i lt => may _ (by simp; omega))]
      simp [fetchRest, Nat.add_comm 1, blocked]
    simp [runInstr, runFetched, fetchOwnLength, a16, aligned, bare, first, ends, fetchesRow_eq_false noRow, fault]

/-- Settles O14: the fault of an ordinary fetch as a trap, and that of the first blocked half a length rule wants. -/
theorem fetchAccessFaultTraps : Obligations.FetchAccessFaultTraps := by
  refine ⟨fun c h ⟨nmi, quiet⟩ aligned bare no undelegated => ?_,
    fun base c h n next ⟨nmi, quiet⟩ a16 aligned bare wants may blocked noRow => ?_⟩
  · have fault : fetch (afterEvents h) (afterEvents h).pc = .raise (.instAccess (fetchFaultAddr c h.pc)) :=
      (fetch_of_bare (h := afterEvents h) (a := h.pc) aligned bare).trans (by rw [no]; rfl)
    have trap := raise_of_undelegated (h := afterEvents h) (e := .instAccess (fetchFaultAddr c h.pc)) undelegated
    refine ⟨trapInto (afterEvents h) (.exception (.instAccess (fetchFaultAddr c h.pc))) h.pc, ?_, rfl,
      alignPc_of_aligned aligned, rfl, fun a32 => fetchFaultAddr_own (.inl a32), trapInto_exception_pc _ _ _, rfl, rfl⟩
    rw [step, stepWith_quiet _ nmi quiet, runInstr_of_fetch_raise (fetchOwnLength_none _ _) fault, trap]
    rfl
  · rw [stepWith_quiet base nmi quiet]
    exact runInstr_of_blocked_half base a16 aligned bare wants may blocked noRow

/-! ### Data accesses (20_memory.md R104) -/

section
variable {h : Hart c} {kind : AccessKind} {a pa : Word c.width} {len : Nat} {misaligned access : Exc c.width}

theorem dataCheck_of_scheme (nonempty : 0 < len) (scheme : h.mstatus.vm ≠ .mbare) :
    dataCheck h kind a len misaligned access = .refuse .vmScheme := by
  simp [dataCheck, Nat.ne_of_gt nonempty, scheme]

theorem dataCheck_of_misaligned (nonempty : 0 < len) (bare : h.mstatus.vm = .mbare)
    (bad : c.misaligned = .trap ∧ a.toNat % len ≠ 0) :
    dataCheck h kind a len misaligned access = .raise misaligned := by
  simp [dataCheck, Nat.ne_of_gt nonempty, bare, bad]

theorem dataCheck_of_accepted (nonempty : 0 < len) (bare : h.mstatus.vm = .mbare)
    (fine : ¬(c.misaligned = .trap ∧ a.toNat % len ≠ 0)) :
    dataCheck h kind a len misaligned access = if allows c kind a len then .ok a else .raise access := by
  unfold dataCheck
  rw [if_neg (Nat.ne_of_gt nonempty), if_neg (not_not.mpr bare), if_neg fine]
  rfl

/-- A data access passes its checks where it has a byte, under Mbare, aligned as the policy wants, where `PMEM` allows it. -/
theorem dataCheck_eq_ok : dataCheck h kind a len misaligned access = .ok pa ↔
    0 < len ∧ h.mstatus.vm = .mbare ∧ ¬(c.misaligned = .trap ∧ a.toNat % len ≠ 0) ∧ allows c kind a len = true ∧ pa = a := by
  constructor
  · intro passed
    simp only [dataCheck] at passed
    split_ifs at passed with empty scheme bad may
    cases passed
    exact ⟨Nat.pos_of_ne_zero empty, not_not.mp scheme, bad, may, rfl⟩
  · rintro ⟨nonempty, bare, fine, may, rfl⟩
    rw [dataCheck_of_accepted nonempty bare fine, if_pos may]

end

/-- A load that completes passed its checks, and gives the value that the bytes from its address on make. -/
theorem memRead_eq_ok {h : Hart c} {a : Word c.width} {len : Nat} {r : BitVec (8 * len)} :
    memRead h a len = .ok r ↔ dataCheck h .load a len (.loadMisaligned a) (.loadAccess a) = .ok a ∧
      r = BitVec.ofNat (8 * len) (leNat (h.mem.readBytes a len)) := by
  unfold memRead
  cases check : dataCheck h .load a len (.loadMisaligned a) (.loadAccess a) with
  | ok pa =>
    obtain ⟨-, -, -, -, rfl⟩ := dataCheck_eq_ok.mp check
    simp [eq_comm]
  | raise e => simp
  | refuse r => simp
  | fault f => simp

/-- A store that completes passed its checks, and changes memory alone. -/
theorem memWrite_eq_ok {h t : Hart c} {a : Word c.width} {len : Nat} {v : BitVec (8 * len)} :
    memWrite h a len v = .ok t ↔ dataCheck h .store a len (.storeMisaligned a) (.storeAccess a) = .ok a ∧
      t = { h with mem := h.mem.writeBytes a 0 (leBytes len v.toNat) } := by
  unfold memWrite
  cases check : dataCheck h .store a len (.storeMisaligned a) (.storeAccess a) with
  | ok pa =>
    obtain ⟨-, -, -, -, rfl⟩ := dataCheck_eq_ok.mp check
    simp [eq_comm]
  | raise e => simp
  | refuse r => simp
  | fault f => simp

/-- Settles O50: the checks of `dataCheck` in order; translation under Mbare does not look at the mode. -/
theorem dataAccessOutcomes : Obligations.DataAccessOutcomes := by
  intro c h a len v nonempty bare
  refine ⟨fun trap bad => ?_, fun policy => ?_, fun b => rfl⟩
  · exact ⟨by rw [memRead, dataCheck_of_misaligned nonempty bare ⟨trap, bad⟩],
      by rw [memWrite, dataCheck_of_misaligned nonempty bare ⟨trap, bad⟩]⟩
  · have fine : ¬(c.misaligned = .trap ∧ a.toNat % len ≠ 0) := by
      rintro ⟨trap, bad⟩
      simp [trap, bad] at policy
    have passes {kind misaligned access} (may : allows c kind a len = true) :
        dataCheck h kind a len misaligned access = .ok a := dataCheck_eq_ok.mpr ⟨nonempty, bare, fine, may, rfl⟩
    refine ⟨fun no => ?_, fun no => ?_, fun may => ?_, fun may => ⟨_, memWrite_eq_ok.mpr ⟨passes may, rfl⟩⟩⟩
    · rw [memRead, dataCheck_of_accepted nonempty bare fine, no]; rfl
    · rw [memWrite, dataCheck_of_accepted nonempty bare fine, no]; rfl
    · exact ⟨_, memRead_eq_ok.mpr ⟨passes may, rfl⟩, fun j lt => extractLsb'_readBytes h.mem a (by omega) lt⟩

/-- Settles O51: a run of byte writes read back, byte by byte and as a value. -/
theorem storeThenLoad : Obligations.StoreThenLoad := by
  intro c h t a len v wf fits stored
  obtain ⟨check, rfl⟩ := memWrite_eq_ok.mp stored
  obtain ⟨nonempty, bare, fine, -, -⟩ := dataCheck_eq_ok.mp check
  have size : (leBytes len v.toNat).length = len := leBytes_length _ _
  refine ⟨Memory.writeBytes_wf _ _ _ wf, fun j lt => ?_, fun may => ?_, fun b out => ?_, rfl⟩
  · have byte := Memory.read_writeBytes_same a (leBytes len v.toNat) 0 j wf (by omega) (by omega)
    rw [Nat.zero_add] at byte
    rw [byte, getElem_leBytes_toNat]
  · have back := Memory.readBytes_writeBytes a (leBytes len v.toNat) wf (by omega)
    rw [size] at back
    exact memRead_eq_ok.mpr ⟨dataCheck_eq_ok.mpr ⟨nonempty, bare, fine, may, rfl⟩, by rw [back, ofNat_leNat_leBytes]⟩
  · exact Memory.read_writeBytes_other a _ 0 b wf fun j _ lt => out j (by omega)

/-- Settles O15: both checks refuse the scheme before they look at `PMEM`. -/
theorem nonMbareAccessesAreRefused : Obligations.NonMbareAccessesAreRefused := by
  intro c h scheme
  refine ⟨fun a len v nonempty => ?_, fun ⟨nmi, quiet⟩ aligned => ?_⟩
  · exact ⟨by rw [memRead, dataCheck_of_scheme nonempty scheme], by rw [memWrite, dataCheck_of_scheme nonempty scheme]⟩
  · rw [step, stepWith_quiet _ nmi quiet]
    exact runInstr_of_fetch_refuse (fetchOwnLength_none _ _) (fetch_of_scheme aligned scheme)

end Sys2Proof.Machine
end

section
/-! PROOFS of the statements about 30_encoding.md: decoder and encoder, the reserved `funct3`, the addresses of the CSRs and the
places of their fields, and the registers of RV32E. -/

namespace Sys2Proof.Machine

open Sys2Proof.Safety

variable {c : Config}

/-! ### Decoding and encoding (30_encoding.md R131, R139) -/

/-- What the mask of the CSR rows leaves of a packed word: opcode and funct3. -/
theorem pack_and_csrMask (f12 : BitVec 12) (s1 : BitVec 5) (f3 : BitVec 3) (d : BitVec 5) :
    packSystem f12 s1 f3 d &&& 0x0000707F#32 = f3.setWidth 32 <<< 12 ||| 0x73#32 := by
  simpa using csrMask_eq (packSystem f12 s1 f3 d) f3

/-- Settles O1: the words of the five privileged instructions are closed; of the six others funct3 picks the row, whose fields
are those of the packed word. -/
theorem encodeThenDecode : Obligations.EncodeThenDecode := by
  intro i
  cases i
  case ecall | ebreak | eret | mrts | mrth => rfl
  all_goals
    rw [encode, decodeWord_eq, pack_and_csrMask]
    simp

/-- A word that matches a CSR row is its fields packed with the row's funct3. -/
theorem pack_of_csrMatch {w : BitVec 32} {f3 : BitVec 3}
    (low : w &&& 0x0000707F#32 = f3.setWidth 32 <<< 12 ||| 0x73#32) :
    packSystem (fieldCsr w) (fieldZimm w) f3 (regField (fieldRd w)) = w := by
  obtain ⟨op, rfl⟩ : fieldOpcode w = 0x73#7 ∧ fieldFunct3 w = f3 := by simpa [low] using csrMask_eq w f3
  exact pack_fields w op

theorem encode_build_of_csrRow {w : BitVec 32} : ∀ r ∈ csrRows, w &&& r.mask = r.pattern → encode (r.build w) = w := by
  simp only [csrRows, List.forall_mem_cons, List.not_mem_nil, false_imp_iff, implies_true, and_true]
  exact ⟨pack_of_csrMatch (f3 := 1), pack_of_csrMatch (f3 := 2), pack_of_csrMatch (f3 := 3), pack_of_csrMatch (f3 := 5),
    pack_of_csrMatch (f3 := 6), pack_of_csrMatch (f3 := 7)⟩

theorem encode_build_of_privilegedRow {w : BitVec 32} :
    ∀ r ∈ privilegedRows, w &&& r.mask = r.pattern → encode (r.build w) = w := by
  have whole (p : BitVec 32) : (w &&& 0xFFFFFFFF#32 = p) = (w = p) := by simpa using wholeMask_eq w p
  simp only [privilegedRows, List.forall_mem_cons, List.not_mem_nil, false_imp_iff, implies_true, and_true, whole]
  refine ⟨?_, ?_, ?_, ?_, ?_⟩ <;> rintro rfl <;> rfl

/-- A word that decodes matches a row of the table, which builds the instruction. -/
theorem row_of_decodeWord_eq_ok {w : BitVec 32} {i : Instr} (dec : decodeWord w = .ok i) :
    ∃ r ∈ decodeTable, w &&& r.mask = r.pattern ∧ r.build w = i := by
  unfold decodeWord at dec
  split at dec
  · rename_i r found
    cases dec
    exact ⟨r, List.mem_of_find?_eq_some found, by simpa using List.find?_some found, rfl⟩
  · cases dec

/-- Settles O2: by the row that the word matches. -/
theorem decodedWordEncodesBack : Obligations.DecodedWordEncodesBack := by
  intro w i dec
  obtain ⟨r, row, matched, rfl⟩ := row_of_decodeWord_eq_ok dec
  rcases List.mem_append.mp row with row | row
  · exact encode_build_of_csrRow r row matched
  · exact encode_build_of_privilegedRow r row matched

/-- Settles O3: the table as a chain of tests, whose CSR patterns exclude each other. -/
theorem masksDecideTheInstruction : Obligations.MasksDecideTheInstruction := by
  intro w
  refine ⟨?csrrw, ?csrrs, ?csrrc, ?csrrwi, ?csrrsi, ?csrrci, ?ecall, ?ebreak, ?eret, ?mrts, ?mrth, ?unmatched⟩
  case unmatched =>
    intro no
    exact ⟨decodeReason w, by rw [decodeWord_eq]; simp only [no, if_false]⟩
  case ecall | ebreak | eret | mrts | mrth => rintro rfl; rfl
  all_goals
    intro low
    rw [decodeWord_eq, low]
    rfl

/-- Settles O4: each of the nine words is closed. -/
theorem wordsOfTheSpecDecode : Obligations.WordsOfTheSpecDecode :=
  ⟨rfl, rfl, rfl, rfl, rfl, rfl, rfl, rfl, rfl⟩

/-! ### funct3 = 0b100 (30_encoding.md R141) -/

/-- No instruction's word has funct3 = 0b100. -/
theorem fieldFunct3_encode_ne_four (i : Instr) : fieldFunct3 (encode i) ≠ 4#3 := by
  cases i <;> simp [encode]

/-- A word with the reserved funct3 is no instruction, because it is the word of none. -/
theorem decodeWord_of_reservedFunct3 {w : BitVec 32} (reserved : fieldFunct3 w = 4#3) :
    ∃ why, decodeWord w = .error why := by
  cases dec : decodeWord w with
  | ok i =>
    rw [← decodedWordEncodesBack w i dec] at reserved
    exact absurd reserved (fieldFunct3_encode_ne_four i)
  | error why => exact ⟨why, rfl⟩

/-- The halves of a fetched word are those at its address. -/
theorem wordHalves_of_fetch {h : Hart c} {a : Word c.width} {w : BitVec 32} (word : fetch h a = .ok w) :
    wordHalves w = [halfAt h a 0, halfAt h a 1] := by
  simp only [fetch] at word
  split_ifs at word
  cases word
  exact wordHalves_readBytes h a

/-- A fetched word that the base ISA's length rule makes one instruction of is an ordinary 32-bit fetch. -/
theorem fetchOwnLength_of_two_halves {base : BaseISA} {h : Hart c} {a : Word c.width} {w : BitVec 32}
    (word : fetch h a = .ok w)
    (wants : restAfter (base.rest c (w.extractLsb' 0 16)) [w.extractLsb' 16 16] = some .ends) :
    fetchOwnLength base h a = none := by
  obtain ⟨first, second⟩ : w.extractLsb' 0 16 = halfAt h a 0 ∧ w.extractLsb' 16 16 = halfAt h a 1 := by
    simpa [wordHalves] using wordHalves_of_fetch word
  rw [first, second] at wants
  have ends : (base.rest c (halfAt h a 0)).endsWith (halfAt h a 1) = true := by
    cases rule : base.rest c (halfAt h a 0) with
    | ends => simp [rule, restAfter] at wants
    | goesOn next => exact Rest.endsWith_iff.mpr ⟨next, rfl, by simpa [rule, restAfter] using wants⟩
  simp [fetchOwnLength, ends]

/-- Settles O7: no row has the reserved funct3, so the word is left to the base ISA, and unclaimed it is illegal. -/
theorem reservedFunct3IsIllegal : Obligations.ReservedFunct3IsIllegal := by
  intro c h w due word _ reserved
  obtain ⟨why, dec⟩ := decodeWord_of_reservedFunct3 reserved
  have left (base : BaseISA) (own : fetchOwnLength base (afterEvents h) (afterEvents h).pc = none) :=
    stepWith_of_left due (runInstr_of_unmatched base own word dec)
  have illegal : step ⟨c, h⟩ = inState c (raise (afterEvents h) .illegal) := (left .none (fetchOwnLength_none _ _)).1 rfl
  refine ⟨illegal, fun base one no => (left base ?_).1 no, fun undelegated => ?_⟩
  · rcases one with a32 | wants
    · exact fetchOwnLength_a32 base _ _ a32
    · exact fetchOwnLength_of_two_halves word wants
  · refine ⟨trapInto (afterEvents h) (.exception .illegal) h.pc, ?_, rfl, rfl⟩
    rw [illegal, raise_of_undelegated (h := afterEvents h) (e := .illegal) undelegated]
    rfl

/-! ### Addresses and places of fields (30_encoding.md R136 to R138) -/

/-- With the default layout the interrupt bits of both registers are those of 10_state.md R70. -/
theorem intPos_default :
    intPos .default .s .software = 1 ∧ intPos .default .h .software = 2 ∧ intPos .default .m .software = 3 ∧
    intPos .default .s .timer = 5 ∧ intPos .default .h .timer = 6 ∧ intPos .default .m .timer = 7 :=
  ⟨rfl, rfl, rfl, rfl, rfl, rfl⟩

/-- `IEk` is at 3k and `PRVk` above it (10_state.md R40). -/
theorem stackPos_default (n : Nat) {k : Nat} (low : k < 4) :
    (Layout.default n).iePos k = 3 * k ∧ (Layout.default n).prvPos k = 3 * k + 1 := by
  interval_cases k <;> exact ⟨rfl, rfl⟩

/-- Settles O26: distinct addresses name one register each, and the defaults are compared field by field. -/
theorem csrAddressesAndFieldsOfTheSpec : Obligations.CsrAddressesAndFieldsOfTheSpec := by
  refine ⟨fun c a r ok => csrOfAddr_eq_some ok, fun c a r table => ?_, fun c => csrAddrOk_default, fun c layout => ?_⟩
  · rw [csrOfAddr_eq_some (csrAddrOk_default table)]
    cases r <;> simp [csrAddr, table, CsrAddresses.default]
  · refine ⟨layoutOk_default layout, ?_⟩
    rw [layout]
    refine ⟨fun k => stackPos_default c.width, rfl, rfl, rfl, rfl, rfl, rfl, ?_, rfl, rfl, rfl, rfl, rfl⟩
    rintro l (rfl | rfl) <;> exact intPos_default

/-! ### The registers of RV32E (30_encoding.md R132) -/

theorem regOk_upper {r : Reg} (rve : c.rve = true) (upper : 16 ≤ r.val) : c.regOk r = false := by
  simp [Config.regOk, rve, upper]

/-- A CSR instruction that names a register the base does not have is an Illegal instruction. -/
theorem exec_illegal_of_not_wellFormed {i : Instr} (h : Hart c) (bad : i.wellFormed c = false) :
    exec i ⟨c, h⟩ = inState c (raise h .illegal) := by
  cases num : csrNumber i with
  | some a =>
    obtain ⟨rd, dst⟩ := destination_of_csrNumber num
    obtain ⟨new, ran⟩ := exec_eq_csrInstr num dst h
    rw [ran, csrInstr_illegal new (.inl bad)]
  | none => cases i <;> cases num <;> cases bad

/-- Settles O34: no form that names an upper register is well formed. -/
theorem rv32eUpperRegistersAreIllegal : Obligations.Rv32eUpperRegistersAreIllegal := by
  intro c h rd rs1 a z rve
  refine ⟨fun upper => ?_, fun upper => ?_⟩
  · have bad : (c.regOk rd && c.regOk rs1) = false := by
      rcases upper with upper | upper <;> simp [regOk_upper rve upper]
    exact ⟨exec_illegal_of_not_wellFormed h bad, exec_illegal_of_not_wellFormed h bad, exec_illegal_of_not_wellFormed h bad⟩
  · have bad := regOk_upper rve upper
    exact ⟨exec_illegal_of_not_wellFormed h bad, exec_illegal_of_not_wellFormed h bad, exec_illegal_of_not_wellFormed h bad⟩

end Sys2Proof.Machine
end

section
/-! PROOFS of the statements about 40_csr_instructions.md: the access check, completion of the six CSR instructions in M-mode,
and what they leave unchanged. -/

namespace Sys2Proof.Machine

open Sys2Proof.Safety

variable {c : Config}

/-! ### The access check on the bits of the address (30_encoding.md R136, 40_csr_instructions.md R165) -/

theorem below_csrLevel_iff {p : Priv} {a : BitVec 12} : p.below (csrLevel a) = true ↔ p.code < a.extractLsb' 8 2 := by
  rw [Priv.below, csrLevel, code_ofCode, BitVec.ult_iff_lt]

theorem csrReadOnly_eq_true_iff {a : BitVec 12} : csrReadOnly a = true ↔ a.extractLsb' 10 2 = 0b11#2 := beq_iff_eq

/-- The addresses that the hart's other modes claim, by bits 9:8 (10_state.md R96). -/
theorem claimedByModes_iff {a : BitVec 12} : claimedByModes c a = true ↔
    (a.extractLsb' 8 2 = 1#2 ∧ c.modes.has .s = true) ∨ (a.extractLsb' 8 2 = 2#2 ∧ c.modes.has .h = true) := by
  have level : a.extractLsb' 8 2 = (csrLevel a).code := (code_ofCode _).symm
  rw [level, claimedByModes]
  cases csrLevel a <;> simp [Priv.code]

theorem csrPermits_iff_bits {h : Hart c} {a : BitVec 12} {writes : Bool} : csrPermits h a writes = true ↔
    ¬h.cur.code < a.extractLsb' 8 2 ∧ ¬(writes = true ∧ a.extractLsb' 10 2 = 0b11#2) := by
  rw [csrPermits_iff, ← Bool.not_eq_true, below_csrLevel_iff, csrReadOnly_eq_true_iff]

/-- A CSR instruction whose access check answers no register is an Illegal instruction. -/
theorem exec_illegal_of_csrCheck {h : Hart c} {i : Instr} {a : BitVec 12} (num : csrNumber i = some a)
    (illegal : csrCheck h a (writesCsr i) = .illegal) : exec i ⟨c, h⟩ = inState c (raise h .illegal) := by
  obtain ⟨rd, dst⟩ := destination_of_csrNumber num
  obtain ⟨new, ran⟩ := exec_eq_csrInstr num dst h
  rw [ran, csrInstr_illegal new (.inr illegal)]

/-- A CSR instruction on an S-level or H-level address that passes the other checks is refused (10_state.md R96). -/
theorem exec_refused_of_csrCheck {h : Hart c} {i : Instr} {a : BitVec 12} (num : csrNumber i = some a)
    (wf : i.wellFormed c = true) (lower : csrCheck h a (writesCsr i) = .lowerLevel) :
    exec i ⟨c, h⟩ = .refused .lowerLevelCsr := by
  obtain ⟨rd, dst⟩ := destination_of_csrNumber num
  obtain ⟨new, ran⟩ := exec_eq_csrInstr num dst h
  rw [ran, wf, csrInstr_lowerLevel new lower, inState_refused]

/-- Settles O33: the two stops of `csrCheck`, read on the bits of the address. -/
theorem csrAccessCheckRaisesIllegal : Obligations.CsrAccessCheckRaisesIllegal := by
  intro c h i a num
  refine ⟨fun grounds => exec_illegal_of_csrCheck num (csrCheck_eq_illegal.mpr ?_),
    fun unnamed lowerLevel level write wf => exec_refused_of_csrCheck num wf (csrCheck_eq_lowerLevel.mpr
      ⟨unnamed, claimedByModes_iff.mpr lowerLevel, csrPermits_iff_bits.mpr ⟨level, write⟩⟩)⟩
  rcases grounds with ⟨unnamed, unclaimed⟩ | below | readOnly
  · exact .inl ⟨unnamed, Bool.eq_false_iff.mpr fun claimed => unclaimed (claimedByModes_iff.mp claimed)⟩
  · exact .inr (Bool.eq_false_iff.mpr fun permits => (csrPermits_iff_bits.mp permits).1 below)
  · exact .inr (Bool.eq_false_iff.mpr fun permits => (csrPermits_iff_bits.mp permits).2 readOnly)

/-! ### Completion in M-mode (40_csr_instructions.md R166 to R171) -/

theorem not_below_of_machine (p : Priv) : Priv.m.below p = false := by cases p <;> rfl

/-- In M-mode the access check reaches every register that an address names, in any table of addresses, but for a write to
the read-only class. -/
theorem csrCheck_of_named {h : Hart c} (m : h.cur = .m) {a : BitVec 12} {r : Csr} (own : csrOfAddr c a = some r)
    {writes : Bool} (may : writes = true → a.extractLsb' 10 2 ≠ 0b11#2) : csrCheck h a writes = .register r := by
  refine csrCheck_eq_register.mpr ⟨own, csrPermits_iff.mpr ⟨m ▸ not_below_of_machine _, fun ⟨w, readOnly⟩ => ?_⟩⟩
  exact may w (csrReadOnly_eq_true_iff.mp readOnly)

/-- A write of any register but `mtime` is accepted, of `mstatus` where the value passes its two tests. -/
theorem csrRefusal_eq_none {v : Word c.width} {r : Csr} (notTime : r ≠ .mtime)
    (accepted : r = .mstatus → mstatusModesOk c v = true ∧ mstatusVmOk c v = true) : csrRefusal c v r = none := by
  cases r
  case mstatus => exact csrRefusal_mstatus_eq_none.mpr (accepted rfl)
  case mtime => exact absurd rfl notTime
  all_goals rfl

/-- The value that a CSR instruction forms from the old value of its CSR (40_csr_instructions.md R166 to R171). -/
def csrNewValue (h : Hart c) (old : Word c.width) : Instr → Word c.width
  | .csrrw _ _ rs1 => h.reg rs1
  | .csrrs _ _ rs1 => old ||| h.reg rs1
  | .csrrc _ _ rs1 => old &&& ~~~(h.reg rs1)
  | .csrrwi _ _ z => immediate c z
  | .csrrsi _ _ z => old ||| immediate c z
  | .csrrci _ _ z => old &&& ~~~(immediate c z)
  | .ecall | .ebreak | .eret | .mrts | .mrth => old

/-- Each of the six is the shared operation with its own new value. -/
theorem exec_eq_csrInstr_newValue {i : Instr} {a : BitVec 12} {rd : Reg} (num : csrNumber i = some a)
    (dst : destination i = some rd) (h : Hart c) : exec i ⟨c, h⟩ =
      inState c (csrInstr h (i.wellFormed c) rd a (writesCsr i) fun old => csrNewValue h old i) := by
  cases i <;> cases num <;> cases dst <;> rfl

section
variable {h : Hart c} {i : Instr} {a : BitVec 12} {rd : Reg} {r : Csr} (m : h.cur = .m) (num : csrNumber i = some a)
  (dst : destination i = some rd) (wf : i.wellFormed c = true) (own : csrOfAddr c a = some r)
include m num dst wf own

/-- A CSR instruction that does not write completes as a pure read, on every register (40_csr_instructions.md R164). -/
theorem exec_csr_pureRead (pure : writesCsr i = false) :
    exec i ⟨c, h⟩ = .next ⟨c, (h.setReg rd (csrRead h r)).advance⟩ := by
  rw [exec_eq_csrInstr_newValue num dst, wf, pure, csrInstr_done _ (csrCheck_of_named m own (by simp)) (by simp)]
  rfl

/-- A CSR instruction that writes completes on a register that can be written, with its new value (40_csr_instructions.md
R161). -/
theorem exec_csr_writes (writes : writesCsr i = true) {v : Word c.width} (value : csrNewValue h (csrRead h r) i = v)
    (notReadOnly : a.extractLsb' 10 2 ≠ 0b11#2) (notTime : r ≠ .mtime)
    (accepted : r = .mstatus → mstatusModesOk c v = true ∧ mstatusVmOk c v = true) :
    exec i ⟨c, h⟩ = .next ⟨c, ((csrPut h v r).setReg rd (csrRead h r)).advance⟩ := by
  subst value
  have check : csrCheck h a true = .register r := csrCheck_of_named m own fun _ => notReadOnly
  rw [exec_eq_csrInstr_newValue num dst, wf, writes,
    csrInstr_done (csrNewValue h · i) check fun _ => csrRefusal_eq_none notTime accepted]
  rfl

end

/-- Settles O27: CSRRW always writes. -/
theorem csrrwCompletes : Obligations.CsrrwCompletes := by
  intro c h rd rs1 a r m legalRd legalRs1 own
  exact exec_csr_writes (i := .csrrw rd a rs1) m rfl rfl (Bool.and_eq_true_iff.mpr ⟨legalRd, legalRs1⟩) own rfl rfl

/-- Settles O28: CSRRS writes unless rs1 is `x0`. -/
theorem csrrsCompletes : Obligations.CsrrsCompletes := by
  intro c h rd rs1 a r m legalRd legalRs1 own
  have wf : (Instr.csrrs rd a rs1).wellFormed c = true := Bool.and_eq_true_iff.mpr ⟨legalRd, legalRs1⟩
  exact ⟨fun zero => exec_csr_pureRead m rfl rfl wf own (bne_eq_false_iff_eq.mpr zero),
    fun nonzero => exec_csr_writes m rfl rfl wf own (bne_iff_ne.mpr nonzero) rfl⟩

/-- Settles O29: CSRRC writes unless rs1 is `x0`. -/
theorem csrrcCompletes : Obligations.CsrrcCompletes := by
  intro c h rd rs1 a r m legalRd legalRs1 own
  have wf : (Instr.csrrc rd a rs1).wellFormed c = true := Bool.and_eq_true_iff.mpr ⟨legalRd, legalRs1⟩
  exact ⟨fun zero => exec_csr_pureRead m rfl rfl wf own (bne_eq_false_iff_eq.mpr zero),
    fun nonzero => exec_csr_writes m rfl rfl wf own (bne_iff_ne.mpr nonzero) rfl⟩

/-- Settles O30: CSRRWI always writes. -/
theorem csrrwiCompletes : Obligations.CsrrwiCompletes := by
  intro c h rd a z r m legalRd own
  exact exec_csr_writes (i := .csrrwi rd a z) m rfl rfl legalRd own rfl rfl

/-- Settles O31: CSRRSI writes unless the immediate is 0. -/
theorem csrrsiCompletes : Obligations.CsrrsiCompletes := by
  intro c h rd a z r m legalRd own
  exact ⟨fun zero => exec_csr_pureRead m rfl rfl legalRd own (bne_eq_false_iff_eq.mpr zero),
    fun nonzero => exec_csr_writes (i := .csrrsi rd a z) m rfl rfl legalRd own (bne_iff_ne.mpr nonzero) rfl⟩

/-- Settles O32: CSRRCI writes unless the immediate is 0. -/
theorem csrrciCompletes : Obligations.CsrrciCompletes := by
  intro c h rd a z r m legalRd own
  exact ⟨fun zero => exec_csr_pureRead m rfl rfl legalRd own (bne_eq_false_iff_eq.mpr zero),
    fun nonzero => exec_csr_writes (i := .csrrci rd a z) m rfl rfl legalRd own (bne_iff_ne.mpr nonzero) rfl⟩

/-! ### The frame (40_csr_instructions.md R160 to R165, 10_state.md R81) -/

/-- What neither rd nor `pc` shows, and a write of the CSR leaves, a completed CSR instruction leaves. -/
theorem csrDone_keeps {α : Type} (view : Hart c → α) {h : Hart c} {rd : Reg} {r : Csr} {writes : Bool} {v : Word c.width}
    (skips : ∀ k : Hart c, view (k.setReg rd (csrRead h r)).advance = view k)
    (put : writes = true → view (csrPut h v r) = view h) : view (csrDone h rd r writes v) = view h := by
  rw [csrDone, skips]
  cases writes with
  | false => rfl
  | true => exact put rfl

@[simp] theorem csrDone_pc {h : Hart c} {rd : Reg} {r : Csr} {writes : Bool} {v : Word c.width} :
    (csrDone h rd r writes v).pc = h.pc + 4 := by
  cases writes <;> simp [csrDone]

/-- A completed CSR instruction changes no general register but rd. -/
theorem csrDone_reg_other {h : Hart c} {rd q : Reg} {r : Csr} {writes : Bool} {v : Word c.width} (ne : q ≠ rd) :
    (csrDone h rd r writes v).reg q = h.reg q :=
  csrDone_keeps (Hart.reg · q) (fun k => by rw [advance_reg, reg_setReg_other k ne]) fun _ => reg_congr (csrPut_x h v r) q

/-- Settles O35: a trap changes what `trapInto` names; a completion writes at most the CSR of its address. -/
theorem csrInstructionFrame : Obligations.CsrInstructionFrame := by
  intro c h t i a rd num dst ran
  rcases exec_csr_cases num dst ran with ⟨r, v, check, -, rfl⟩ | ⟨-, rfl⟩
  · have addr : a = csrAddr c r := (csrAddr_of_csrOfAddr (csrCheck_eq_register.mp check).1).symm
    have other {q : Csr} (unwritten : ¬(writesCsr i = true ∧ a = csrAddr c q)) (w : writesCsr i = true) : r ≠ q :=
      fun same => unwritten ⟨w, same ▸ addr⟩
    exact ⟨fun q ne => csrDone_reg_other ne,
      fun b => congrArg (Memory.read · b) (csrDone_keeps Hart.mem (by simp) fun _ => csrPut_mem h v r),
      csrDone_keeps Hart.mtime (by simp) fun _ => csrPut_mtime h v r,
      csrDone_env, csrDone_boundary,
      fun no => csrDone_keeps Hart.mtvec (by simp) fun w => csrPut_mtvec h v r (other no w),
      fun no => csrDone_keeps Hart.mtdeleg (by simp) fun w => csrPut_mtdeleg h v r (other no w),
      fun no => csrDone_keeps Hart.mie (by simp) fun w => csrPut_mie h v r (other no w),
      fun no noCmp => csrDone_keeps Hart.mip (by simp) fun w => csrPut_mip h v r (other no w) (other noCmp w),
      fun no => csrDone_keeps Hart.mtimecmp (by simp) fun w => csrPut_mtimecmp h v r (other no w),
      fun no => csrDone_keeps Hart.mscratch (by simp) fun w => csrPut_mscratch h v r (other no w),
      fun no _ => csrDone_keeps Hart.mstatus (by simp) fun w => csrPut_mstatus h v r (other no w),
      fun no _ => csrDone_keeps Hart.mepc (by simp) fun w => csrPut_mepc h v r (other no w),
      fun no _ => csrDone_keeps Hart.mcause (by simp) fun w => csrPut_mcause h v r (other no w),
      fun no _ => csrDone_keeps Hart.mbadaddr (by simp) fun w => csrPut_mbadaddr h v r (other no w),
      fun _ => csrDone_pc, fun trap q => by rw [trap]; rfl⟩
  · exact ⟨fun _ _ => rfl, fun _ => rfl, rfl, rfl, rfl, fun _ => rfl, fun _ => rfl, fun _ => rfl, fun _ _ => rfl,
      fun _ => rfl, fun _ => rfl, fun _ no => absurd rfl no, fun _ no => absurd rfl no, fun _ no => absurd rfl no,
      fun _ no => absurd rfl no, fun no => absurd rfl no, fun _ _ => rfl⟩

end Sys2Proof.Machine
end

section
/-! PROOFS of the statements about 41_system_instructions.md: ECALL, EBREAK, ERET, MRTS and MRTH, and what changes the mode. -/

namespace Sys2Proof.Machine

open Sys2Proof.Safety

variable {c : Config}

/-! ### What changes the mode (41_system_instructions.md R197) -/

theorem one_lt_depth (c : Config) : 1 < c.modes.depth := by cases c.modes <;> decide

/-- A return from a trap goes to the mode of entry 1 of the stack (10_state.md R46). -/
theorem trapReturn_cur (h : Hart c) : (trapReturn h).cur = (stackEntry c h.mstatus 1).prv :=
  congrArg StackEntry.prv (stackEntry_popStack h.mstatus (one_lt_depth c))

/-- A completed CSR instruction that does not write `mstatus` keeps the mode. -/
theorem csrDone_cur {h : Hart c} {rd : Reg} {r : Csr} {writes : Bool} {v : Word c.width}
    (other : writes = true → r ≠ .mstatus) : (csrDone h rd r writes v).cur = h.cur :=
  cur_congr (csrDone_keeps Hart.mstatus (by simp) fun w => csrPut_mstatus h v r (other w))

/-- Settles O55: of the four shapes of a step a base instruction keeps `mstatus`, and a CSR instruction writes at most the
register of its address. -/
theorem privilegeModeChangesOnlyBy : Obligations.PrivilegeModeChangesOnlyBy := by
  intro base c h t ran changed
  obtain ⟨_, same, shape⟩ := stepWith_shapes ran
  cases same
  rcases shape with ⟨n, cause, rfl⟩ | ⟨executes, -, rfl⟩ | ⟨i, a, rd, r, v, executes, num, reg, -, rfl⟩ | ⟨-, eq, -⟩
  · exact .inl ⟨trapInto_cur _ _ _, n, cause, rfl⟩
  · exact .inr (.inl ⟨executes, trapReturn_cur (afterEvents h)⟩)
  · refine .inr (.inr ⟨i, executes, ?_⟩)
    by_contra unwritten
    have other (writes : writesCsr i = true) : r ≠ .mstatus := fun own =>
      unwritten ⟨by rw [num, ← csrAddr_of_csrOfAddr reg, own], writes⟩
    exact changed (csrDone_cur other)
  · have mstatus : t.mstatus = h.mstatus := by rw [eq]; rfl
    exact absurd (cur_congr mstatus) changed

/-! ### Instructions that raise an exception (41_system_instructions.md R191, R192, R194, R195) -/

/-- A delegated exception is refused (60_exceptions.md R253). -/
theorem raise_of_delegated {h : Hart c} {e : Exc c.width} (below : h.cur ≠ .m)
    (delegated : (csrRead h .mtdeleg).getLsbD e.code.toNat = true) : raise h e = .refused .delegatedTrap := by
  have set : h.mtdelegValue.getLsbD e.code.toNat = true := delegated
  have handler : handlerMode h (.exception e) ≠ .m := by
    cases hasH : c.modes.has .h <;> simp [handlerMode, below, set, hasH]
  exact if_neg handler

/-- After a trap entry 1 of the stack is the old current entry (10_state.md R45). -/
theorem stackEntry_one_trapInto (h : Hart c) (cause : Cause c.width) (epc : Word c.width) :
    stackEntry c (trapInto h cause epc).mstatus 1 = stackEntry c h.mstatus 0 :=
  stackEntry_pushStack h.mstatus .m (one_lt_depth c)

/-- An exception without a vector entry of its own goes to the one that its mode's causes share (60_exceptions.md R240). -/
theorem trapInto_pc_of_shared (h : Hart c) {e : Exc c.width} (epc : Word c.width)
    (shared : c.extraVector false e.code = none) :
    (trapInto h (.exception e) epc).pc = h.mtvecValue + BitVec.ofNat c.width (h.cur.code.toNat * 0x40) := by
  rw [trapInto_pc, offset_exception, shared]

theorem code_ecall {n : Nat} (p : Priv) : (Exc.ecall p : Exc n).code.toNat = 8 + p.code.toNat := by cases p <;> rfl

/-- The two outcomes of an instruction that does nothing but raise an exception which records no address: refused where that
is delegated, and the trap's state everywhere else. -/
theorem exec_raise_outcomes {h : Hart c} {i : Instr} {e : Exc c.width} {k : Nat}
    (ran : exec i ⟨c, h⟩ = inState c (raise h e)) (code : e.code.toNat = k) (unaddressed : e.badAddr = none) :
    (h.cur ≠ .m ∧ (csrRead h .mtdeleg).getLsbD k = true → exec i ⟨c, h⟩ = .refused .delegatedTrap) ∧
    ((h.cur = .m ∨ (csrRead h .mtdeleg).getLsbD k = false) →
    ∃ t : Hart c, exec i ⟨c, h⟩ = .next ⟨c, t⟩ ∧ t.mepc = c.alignPc h.pc ∧ (c.pcAligned h.pc = true → t.mepc = h.pc) ∧
      t.mcause = ⟨false, e.code⟩ ∧ t.mbadaddr = Config.draw c.width h.draws ∧ t.cur = .m ∧ t.ie = false ∧
      stackEntry c t.mstatus 1 = stackEntry c h.mstatus 0 ∧ t.mstatus.mprv = false ∧
      (c.extraVector false e.code = none →
        t.pc = h.mtvecValue + BitVec.ofNat c.width (h.cur.code.toNat * 0x40))) := by
  subst code
  refine ⟨fun ⟨below, delegated⟩ => ?_, fun undelegated => ⟨trapInto h (.exception e) h.pc, ?_, rfl, alignPc_of_aligned, rfl,
    ?_, trapInto_cur _ _ _, trapInto_ie _ _ _, stackEntry_one_trapInto _ _ _, rfl, trapInto_pc_of_shared h h.pc⟩⟩
  · rw [ran, raise_of_delegated below delegated, inState_refused]
  · rw [ran, raise_of_undelegated undelegated, inState_next]
  · simp [trapInto, Cause.badAddr, unaddressed]

/-- Settles O20: ECALL raises the exception of the current mode in every state. -/
theorem ecallTakesItsException : Obligations.EcallTakesItsException := fun _ h =>
  exec_raise_outcomes (e := .ecall h.cur) rfl (code_ecall h.cur) rfl

/-- Settles O21: EBREAK raises the breakpoint exception in every state. -/
theorem ebreakTakesItsException : Obligations.EbreakTakesItsException := fun _ _ =>
  exec_raise_outcomes (e := .breakpoint) rfl rfl rfl

theorem exec_mrts_illegal {h : Hart c} (no : h.cur ≠ .m ∨ c.modes.has .s = false) :
    exec .mrts ⟨c, h⟩ = inState c (raise h .illegal) := by
  by_cases m : h.cur = .m
  · simp [exec, execMrts, m, no.resolve_left (not_not.mpr m)]
  · simp [exec, execMrts, m]

theorem exec_mrth_illegal {h : Hart c} (no : h.cur ≠ .m ∨ c.modes.has .h = false) :
    exec .mrth ⟨c, h⟩ = inState c (raise h .illegal) := by
  by_cases m : h.cur = .m
  · simp [exec, execMrth, m, no.resolve_left (not_not.mpr m)]
  · simp [exec, execMrth, m]

/-- Settles O24: where the target mode is missing the instruction only raises Illegal instruction, which from M-mode is never
delegated. -/
theorem redirectionOutcomes : Obligations.RedirectionOutcomes := by
  refine fun c h => ⟨exec_mrts_illegal, exec_mrth_illegal, fun i missing m => ?_, fun m hasS => ?_, fun m hasH => ?_⟩
  · have ran : exec i ⟨c, h⟩ = inState c (raise h .illegal) := by
      rcases missing with ⟨rfl, no⟩ | ⟨rfl, no⟩
      · exact exec_mrts_illegal (.inr no)
      · exact exec_mrth_illegal (.inr no)
    obtain ⟨-, traps⟩ := exec_raise_outcomes ran rfl rfl
    obtain ⟨t, next, mepc, -, mcause, -, cur, ie, -, -, pc⟩ := traps (.inl m)
    rw [m] at pc
    exact ⟨t, next, mcause, mepc, pc, cur, ie⟩
  · simp [exec, execMrts, m, hasS]
  · simp [exec, execMrth, m, hasH]

/-! ### ERET below M, and the frame (41_system_instructions.md R190, R193) -/

/-- Settles O23: the branches of `execEret` below M. -/
theorem eretBelowMachineMode : Obligations.EretBelowMachineMode := by
  refine fun c h => ⟨fun u => by simp [exec, execEret, u], fun between => ?_⟩
  rcases between with s | hyp
  · simp [exec, execEret, s]
  · simp [exec, execEret, hyp]

/-- Settles O25: neither a trap nor the return from one reaches what is listed, and the return changes only `mstatus` and
`pc`. -/
theorem systemInstructionFrame : Obligations.SystemInstructionFrame := by
  intro c h t i num ran
  rcases exec_system_cases num ran with ⟨exc, rfl, notEret⟩ | ⟨rfl, -, -⟩
  · exact ⟨reg_congr rfl, fun _ => rfl, rfl, rfl, rfl, rfl, rfl, rfl, rfl, rfl, rfl, rfl, rfl, rfl,
      fun eret m => absurd ⟨eret, m⟩ notEret⟩
  · exact ⟨reg_congr rfl, fun _ => rfl, rfl, rfl, rfl, rfl, rfl, rfl, rfl, rfl, rfl, rfl, rfl, rfl,
      fun _ _ => ⟨rfl, rfl, rfl, rfl⟩⟩

end Sys2Proof.Machine
end

section
/-! PROOFS of the statements about 60_exceptions.md: when an interrupt is taken and which, entry into a trap and the return from
it, and what a step below M can write. -/

namespace Sys2Proof.Machine

open Sys2Proof.Safety

variable {c : Config}

/-! ### Below M (60_exceptions.md R255) -/

/-- With legal addresses an instruction of the table from below M that goes on enters a trap: ERET returns from M-mode only,
and no register of this spec is reached. -/
theorem exec_traps_below_machine (ok : csrAddrOk c = true) {h t : Hart c} {i : Instr} (below : h.cur ≠ .m)
    (ran : exec i ⟨c, h⟩ = .next ⟨c, t⟩) : ∃ exc, t = trapInto h (.exception exc) h.pc := by
  cases num : csrNumber i with
  | none =>
    rcases exec_system_cases num ran with ⟨exc, trap, -⟩ | ⟨-, -, m⟩
    · exact ⟨exc, trap⟩
    · exact absurd m below
  | some a =>
    obtain ⟨rd, dst⟩ := destination_of_csrNumber num
    rcases exec_csr_cases num dst ran with ⟨r, v, check, -, -⟩ | ⟨-, trap⟩
    · obtain ⟨-, m, -⟩ := (csrCheck_machine ok).mp check
      exact absurd m below
    · exact ⟨.illegal, trap⟩

/-- A base ISA is offered no CSR instruction on a register of this spec (30_encoding.md R138). -/
theorem csrOffered_of_named {h : Hart c} {i : Instr} {a : BitVec 12} {r : Csr} (num : csrNumber i = some a)
    (own : csrOfAddr c a = some r) : csrOffered h i = false := by
  simp [csrOffered, num, own]

/-- A step that fetches a CSR instruction on a register of this spec executes it, with any base ISA. -/
theorem stepWith_of_named (base : BaseISA) {h : Hart c} {i : Instr} {a : BitVec 12} {r : Csr} (executes : StepExecutes h i)
    (num : csrNumber i = some a) (own : csrOfAddr c a = some r) :
    stepWith base ⟨c, h⟩ = exec i ⟨c, afterEvents h⟩ := by
  obtain ⟨⟨nmi, quiet⟩, w, word, dec⟩ := executes
  exact stepWith_executes base nmi quiet word dec (.inl (csrOffered_of_named num own))

/-- A step from below M, with legal addresses, enters a trap from the state the boundary's events leave, or changes nothing of
that state but the registers, `pc` and memory. -/
theorem stepWith_shapes_below_machine (ok : csrAddrOk c = true) {base : BaseISA} {h t : Hart c} (below : h.cur ≠ .m)
    (ran : stepWith base ⟨c, h⟩ = .next ⟨c, t⟩) :
    (∃ n cause, t = trapInto { afterEvents h with draws := n } cause h.pc) ∨
      t = { afterEvents h with x := t.x, pc := t.pc, mem := t.mem } := by
  obtain ⟨_, same, shape⟩ := stepWith_shapes ran
  cases same
  rcases shape with trap | ⟨-, m, -⟩ | ⟨i, a, rd, r, v, executes, num, own, -, -⟩ | ⟨-, kept, -⟩
  · exact .inl trap
  · exact absurd m below
  · rw [stepWith_of_named base executes num own] at ran
    obtain ⟨exc, trap⟩ := exec_traps_below_machine ok (h := afterEvents h) below ran
    exact .inl ⟨h.draws, .exception exc, trap⟩
  · exact .inr kept

/-- Settles O56: trap entry keeps every register but the four it names, and a base instruction keeps them all. -/
theorem belowMachineModeNoMachineCsrIsWritten : Obligations.BelowMachineModeNoMachineCsrIsWritten := by
  intro base c h t ok below ran
  rcases stepWith_shapes_below_machine ok below ran with ⟨n, cause, rfl⟩ | kept
  · exact ⟨rfl, rfl, rfl, rfl, rfl, rfl, rfl, .inr ⟨n, cause, rfl⟩⟩
  · rw [kept]
    exact ⟨rfl, rfl, rfl, rfl, rfl, rfl, rfl, .inl ⟨rfl, rfl, rfl, rfl⟩⟩

/-! ### Which interrupt is taken, and when (60_exceptions.md R229 to R234) -/

theorem takeables_eq_nil_iff {h : Hart c} : takeables h = [] ↔ ∀ x k, takeable h x k = false := by
  rw [takeables, List.filter_eq_nil_iff]
  exact ⟨fun masked x k => eq_false_of_ne_true (masked (x, k) (mem_allInterrupts x k)),
    fun masked i _ => ne_true_of_eq_false (masked i.1 i.2)⟩

/-- Settles O9: the choice is from the list of all that may be taken. -/
theorem chosenInterruptIsTakeable : Obligations.ChosenInterruptIsTakeable := fun _ h =>
  ⟨(chooseInterrupt_none_iff h).trans takeables_eq_nil_iff, fun _ _ _ => chooseInterrupt_some⟩

theorem below_iff_code_lt {p q : Priv} : p.below q = true ↔ p.code < q.code := by
  rw [Priv.below, BitVec.ult_iff_lt]

/-- Settles O10: the three fields of R229 as CSR reads show them. -/
theorem takeableCondition : Obligations.TakeableCondition := by
  intro c h x k ok
  obtain ⟨-, mip, mie, -⟩ := layout_spans ok
  have pending : (csrRead h .mip).getLsbD (intPos c.layout.mip x k) = intGet c h.mip x k := intWord_get mip _ x k
  have enabled : (csrRead h .mie).getLsbD (intPos c.layout.mie x k) = intGet c h.mie x k := intWord_get mie _ x k
  have ie : (csrRead h .mstatus).getLsbD c.layout.ie = h.ie := mstatusWord_ie h.mstatus ok (k := 0) (by decide)
  rw [pending, enabled, ie, takeable]
  simp only [Bool.and_eq_true, Bool.or_eq_true, beq_iff_eq, below_iff_code_lt]
  tauto

/-- A step at whose boundary an interrupt is chosen takes it, on the state that the events leave. -/
theorem step_takes_chosen {h h' : Hart c} {x : Level} {k : IntKind} (nmi : nmiDue h = false)
    (chosen : chooseInterrupt (afterEvents h) = some ((x, k), h')) :
    ∃ n, step ⟨c, h⟩ = .next ⟨c, trapInto { afterEvents h with draws := n } (.interrupt k) h.pc⟩ := by
  obtain ⟨-, n, rfl⟩ := chooseInterrupt_some chosen
  refine ⟨n, ?_⟩
  simp only [step, stepWith, nmi, chosen, takeInterrupt_eq, Bool.false_eq_true, if_false]
  rfl

/-- Where an interrupt goes: the first entry of `EXTRA_VECTORS` for its cause, or the one of the mode it comes from. -/
theorem trapInto_interrupt_pc (h : Hart c) (k : IntKind) (epc : Word c.width) :
    (trapInto h (.interrupt k) epc).pc =
      h.mtvecValue + match c.extraVectors.find? (fun v => v.interrupt == true && v.code == k.code) with
        | some own => BitVec.ofNat c.width (4 * own.slot)
        | none => BitVec.ofNat c.width (h.cur.code.toNat * 0x40) := by
  rw [trapInto_pc, offset_interrupt, Config.extraVector]
  cases c.extraVectors.find? (fun v => v.interrupt == true && v.code == k.code) <;> rfl

/-- Settles O8: the state is that of `trapInto` for the chosen kind. -/
theorem interruptTakenBeforeTheFetch : Obligations.InterruptTakenBeforeTheFetch := by
  intro c h h' x k nmi chosen code
  have recorded : k.code = code := by cases k <;> rfl
  obtain ⟨n, taken⟩ := step_takes_chosen nmi chosen
  rw [← recorded]
  exact ⟨_, taken, rfl, rfl, trapInto_cur _ _ _, trapInto_ie _ _ _, trapInto_interrupt_pc _ k _, rfl, rfl, rfl, rfl⟩

theorem nmiDue_iff {h : Hart c} : nmiDue h = true ↔ c.nmiPresent = true ∧ EnvEvent.nmi ∈ dueEvents h := by
  simp [nmiDue]

/-- A step at whose boundary an NMI is due takes it, with a free code, on the state that the events leave. -/
theorem step_takes_nmi {h : Hart c} (due : nmiDue h = true) : step ⟨c, h⟩ =
    .next ⟨c, trapInto { afterEvents h with draws := h.draws + 1 } (.nmi (Config.draw 4 h.draws)) h.pc⟩ := by
  rw [step, stepWith, if_pos due, takeNmi_eq]
  rfl

/-- Settles O11: the NMI comes before any look at `IE` and `mie`. -/
theorem nmiEntersAtItsVector : Obligations.NmiEntersAtItsVector := by
  intro c h present signalled
  have taken := step_takes_nmi (nmiDue_iff.mpr ⟨present, signalled⟩)
  exact ⟨_, taken, rfl, rfl, rfl, trapInto_cur _ _ _, trapInto_ie _ _ _, stackEntry_one_trapInto _ _ _, rfl⟩

/-! ### Entry into a trap (60_exceptions.md R236 to R245) -/

/-- An exception is handled in M unless it is delegated and comes from below M (60_exceptions.md R237). -/
theorem handlerMode_exception_eq_m {h : Hart c} {e : Exc c.width} : handlerMode h (.exception e) = .m ↔
    ¬(h.cur ≠ .m ∧ (csrRead h .mtdeleg).getLsbD e.code.toNat = true) := by
  have handler : handlerMode h (.exception e) =
      if h.cur ≠ .m ∧ (csrRead h .mtdeleg).getLsbD e.code.toNat = true then (if c.modes.has .h then .h else .s)
      else .m := rfl
  rw [handler]
  by_cases delegated : h.cur ≠ .m ∧ (csrRead h .mtdeleg).getLsbD e.code.toNat = true
  · rw [if_pos delegated]
    exact iff_of_false (by split <;> simp) (not_not_intro delegated)
  · exact iff_of_true (if_neg delegated) delegated

theorem takeTrap_eq_refused {h : Hart c} {cause : Cause c.width} {epc : Word c.width} :
    takeTrap h cause epc = .refused .delegatedTrap ↔ handlerMode h cause ≠ .m := by
  unfold takeTrap
  split <;> simp_all

/-- Settles O18: the handler mode decides. -/
theorem delegatedTrapsAreRefused : Obligations.DelegatedTrapsAreRefused := fun _ _ _ =>
  ⟨fun _ => takeTrap_eq_refused.trans (not_congr handlerMode_exception_eq_m |>.trans not_not),
    fun _ => takeTrap_eq_next.trans ((and_iff_left rfl).trans handlerMode_exception_eq_m),
    fun _ => takeTrap_eq_next.mpr ⟨rfl, rfl⟩, fun _ => takeTrap_eq_next.mpr ⟨rfl, rfl⟩⟩

/-- Settles O17: a trap that goes on is `trapInto`, which names every field it changes. -/
theorem trapEntryFrame : Obligations.TrapEntryFrame := by
  intro c h t cause epc taken
  obtain ⟨-, rfl⟩ := takeTrap_eq_next.mp taken
  exact ⟨reg_congr rfl, rfl, rfl, rfl, rfl, rfl, rfl, rfl, rfl, rfl, rfl, fun _ => rfl⟩

/-- The return from a trap straight after it brings the current entry of the stack back (60_exceptions.md R245). -/
theorem stackEntry_zero_trapReturn_trapInto (h : Hart c) (cause : Cause c.width) (epc : Word c.width) :
    stackEntry c (trapReturn (trapInto h cause epc)).mstatus 0 = stackEntry c h.mstatus 0 :=
  (stackEntry_popStack _ (one_lt_depth c)).trans (stackEntry_one_trapInto h cause epc)

/-- Settles O19: ERET in M-mode is `trapReturn`, whose pop undoes the push at the current entry. -/
theorem eretAfterATrapRestores : Obligations.EretAfterATrapRestores := by
  intro c h t cause epc taken aligned
  obtain ⟨-, rfl⟩ := takeTrap_eq_next.mp taken
  have restored := stackEntry_zero_trapReturn_trapInto h cause epc
  exact ⟨_, exec_eret_of_machine (trapInto_cur h cause epc), congrArg StackEntry.prv restored,
    congrArg StackEntry.ie restored, alignPc_of_aligned aligned, rfl, rfl⟩

/-- `mbadaddr` gets the address that the cause records (60_exceptions.md R242). -/
theorem trapInto_mbadaddr_of_some (h : Hart c) {cause : Cause c.width} (epc : Word c.width) {a : Word c.width}
    (addressed : cause.badAddr = some a) : (trapInto h cause epc).mbadaddr = a := by
  simp [trapInto, addressed]

/-- `mbadaddr` is free after a cause that records no address (10_state.md R94). -/
theorem trapInto_mbadaddr_of_none (h : Hart c) {cause : Cause c.width} (epc : Word c.width)
    (unaddressed : cause.badAddr = none) : (trapInto h cause epc).mbadaddr = Config.draw c.width h.draws := by
  simp [trapInto, unaddressed]

/-- `mcause` in the default layout: `Interrupt` at the top, the code at the bottom (10_state.md R89). -/
theorem mcauseWord_default (e : c.layout = Layout.default c.width) (m : MCause) : mcauseWord c m =
    (if m.interrupt then BitVec.twoPow c.width (c.width - 1) else 0) ||| m.code.setWidth c.width := by
  have interrupt : c.layout.interrupt = c.width - 1 := by rw [e]; rfl
  have code : c.layout.code = 0 := by rw [e]; rfl
  have one : (1#1).setWidth c.width = 1#c.width :=
    BitVec.setWidth_ofNat_of_le_of_lt (Nat.le_trans (by decide) (width_ge c)) (by decide)
  cases on : m.interrupt <;> simp [mcauseWord, interrupt, code, assemble, Placed.bit, place, on, BitVec.twoPow, one]

/-- A cause with no entry of its own, but an NMI, enters where all causes from its mode do (60_exceptions.md R240). -/
theorem offset_of_shared (p : Priv) {cause : Cause c.width} (maskable : ∀ n, cause ≠ .nmi n)
    (shared : c.extraVector cause.mcause.interrupt cause.mcause.code = none) :
    cause.offset c p = BitVec.ofNat c.width (p.code.toNat * 0x40) := by
  have entry : Cause.offset.sharedOrOwn c p cause.mcause = BitVec.ofNat c.width (p.code.toNat * 0x40) := by
    rw [Cause.offset.sharedOrOwn, shared]
  cases cause with
  | exception e => exact entry
  | interrupt k => exact entry
  | nmi n => exact absurd rfl (maskable n)

/-- Settles O16: the state is that of `trapInto`; the lists of codes and addresses are compared cause by cause. -/
theorem trapEntryEffect : Obligations.TrapEntryEffect := by
  intro c h cause epc I code address
  have recorded : cause.mcause = ⟨I, code⟩ := by
    cases cause with
    | exception e =>
      cases e
      case ecall p => cases p <;> rfl
      all_goals rfl
    | interrupt k => cases k <;> rfl
    | nmi n => rfl
  have addressed : cause.badAddr = address := by
    cases cause with
    | exception e => cases e <;> rfl
    | interrupt k => rfl
    | nmi n => rfl
  refine ⟨takeTrap_eq_refused.mpr, fun m aligned => ?_⟩
  have word : csrRead (trapInto h cause epc) .mcause = mcauseWord c ⟨I, code⟩ := congrArg (mcauseWord c) recorded
  have entry (maskable : ∀ n, cause ≠ .nmi n) (shared : c.extraVector I code = none) :
      (trapInto h cause epc).pc = csrRead h .mtvec + BitVec.ofNat c.width (h.cur.code.toNat * 0x40) :=
    congrArg (h.mtvecValue + ·) (offset_of_shared h.cur maskable (by rw [recorded]; exact shared))
  refine ⟨_, takeTrap_eq_next.mpr ⟨m, rfl⟩, alignPc_of_aligned aligned, fun ok => ?_, fun layout => ?_,
    fun a is => trapInto_mbadaddr_of_some h epc (addressed.trans is),
    fun is => trapInto_mbadaddr_of_none h epc (addressed.trans is), trapInto_cur _ _ _, trapInto_ie _ _ _,
    fun k below => stackEntry_pushStack h.mstatus .m below, rfl, ?_⟩
  · rw [word]
    exact ⟨mcauseWord_interrupt ok _, mcauseWord_code ok _, fun i => mcauseWord_gap _⟩
  · rw [word, mcauseWord_default layout]
  · cases cause with
    | exception e => exact entry (by simp)
    | interrupt k => exact entry (by simp)
    | nmi n => rfl

/-! ### The instruction at `pc` (60_exceptions.md R231) -/

theorem csrOffered_iff {h : Hart c} {i : Instr} : csrOffered h i = true ↔
    ∃ a, csrNumber i = some a ∧ i.wellFormed c = true ∧ csrOfAddr c a = none ∧
      ¬h.cur.code < a.extractLsb' 8 2 ∧ ¬(writesCsr i = true ∧ a.extractLsb' 10 2 = 0b11#2) := by
  unfold csrOffered
  cases csrNumber i with
  | none => simp
  | some a =>
    simp only [Bool.and_eq_true, csrPermits_iff_bits, Option.isNone_iff_eq_none, Option.some.injEq, exists_eq_left']
    tauto

/-- Four bytes decode as the word they make. -/
theorem decodeWord_of_decodeBytes {m : Memory} {n : Nat} {a : Word n} {i : Instr} {rest : List Byte}
    (dec : decodeBytes (m.readBytes a 4) = .ok (i, rest)) :
    decodeWord (BitVec.ofNat 32 (leNat (m.readBytes a 4))) = .ok i := by
  have four : m.readBytes a 4 =
      [m.read (byteAddr a 0), m.read (byteAddr a 1), m.read (byteAddr a 2), m.read (byteAddr a 3)] := rfl
  simp only [four, decodeBytes] at dec ⊢
  split at dec
  · cases dec; assumption
  · cases dec

/-- A step that fetches an instruction of the table which the base ISA is offered and claims runs the base ISA's actions. -/
theorem stepWith_of_claimed (base : BaseISA) {h : Hart c} {w : BitVec 32} {i : Instr} {act : BaseAction c}
    (due : NoInterruptDue h) (word : fetch (afterEvents h) h.pc = .ok w) (dec : decodeWord w = .ok i)
    (offered : csrOffered h i = true) (claim : base.act c (wordHalves w) ((afterEvents h).x.set 0 0) h.pc = some act) :
    stepWith base ⟨c, h⟩ = inState c (runBase (afterEvents h) (afterEvents h) act) := by
  obtain ⟨nmi, quiet⟩ := due
  have own : fetchOwnLength base (afterEvents h) h.pc = none := fetchOwnLength_row base word dec
  have offered : csrOffered (afterEvents h) i = true := offered
  rw [stepWith_quiet base nmi quiet, ← runClaimed_of_claimed (exec i ⟨c, afterEvents h⟩) claim]
  simp [runInstr, own, word, dec, offered]

/-- Settles O5: the base ISA is asked only where it is offered the word. -/
theorem stepRunsTheDecodedInstruction : Obligations.StepRunsTheDecodedInstruction := by
  intro c h i rest due aligned bare may bytes
  have dec := decodeWord_of_decodeBytes bytes
  have word : fetch (afterEvents h) h.pc = .ok (BitVec.ofNat 32 (leNat (h.mem.readBytes h.pc 4))) :=
    (fetch_of_bare (h := afterEvents h) aligned bare).trans (if_pos may)
  have executes (base : BaseISA) := stepWith_executes base due.1 due.2 word dec
  refine ⟨executes .none (.inr rfl), fun base => ⟨fun unclaimed => executes base ?_, fun act offered claim => ?_⟩⟩
  · exact unclaimed.imp_left fun no => eq_false_of_ne_true (mt csrOffered_iff.mp no)
  · exact stepWith_of_claimed base due word dec (csrOffered_iff.mpr offered) claim

end Sys2Proof.Machine
end

section
/-! PROOFS of the statements about 70_reset_and_hazards.md: the first instruction after reset, and the vector entries that can be
executed then. -/

namespace Sys2Proof.Machine

variable {c : Config}

/-! ### What a platform that boots lets be executed (70_reset_and_hazards.md R292, R296) -/

/-- The entry of each mode of the hart can be reached (60_exceptions.md R240). -/
theorem mem_reachableEntries_of_mode {p : Priv} (has : c.modes.has p = true) :
    p.code.toNat * 0x40 ∈ reachableEntries c := by
  cases p <;> simp [reachableEntries, Priv.code, has]

/-- The NMI entry of a hart with the input can be reached (60_exceptions.md R232). -/
theorem mem_reachableEntries_of_nmi (input : c.nmiPresent = true) : 0xFC ∈ reachableEntries c := by
  simp [reachableEntries, input]

theorem allows_execute_resetVector (boots : platformBoots c = true) : allows c .execute c.resetVector 4 = true :=
  (Bool.and_eq_true_iff.mp boots).1

/-- Each reachable entry, at its offset from `mtvec` as reset leaves it. -/
theorem allows_execute_entry_reset (boots : platformBoots c = true) {offset : Nat} (reachable : offset ∈ reachableEntries c) :
    allows c .execute ((Hart.reset c).mtvecValue + BitVec.ofNat c.width offset) 4 = true := by
  have entries : entriesExecutable c c.mtvecReset = true := (Bool.and_eq_true_iff.mp boots).2
  rw [mtvecValue_reset]
  exact List.all_eq_true.mp entries offset reachable

/-! ### The first step (70_reset_and_hazards.md R292) -/

/-- In M-mode with IE = 0 none of the maskable interrupts is chosen (60_exceptions.md R229). -/
theorem chooseInterrupt_of_machine_masked {h : Hart c} (m : h.cur = .m) (masked : h.ie = false) :
    chooseInterrupt h = none :=
  (chooseInterrupt_none_iff h).mpr (takeables_eq_nil_iff.mpr (takeable_of_machine_masked m masked))

/-- Settles O60: reset leaves an aligned `pc`, Mbare, M-mode and IE = 0, whatever memory and events are given from outside, so
the rule for a step that runs the decoded instruction applies. -/
theorem firstInstructionIsAtTheResetVector : Obligations.FirstInstructionIsAtTheResetVector := by
  constructor
  · intro c m events i rest boots bytes h nmi
    have quiet : chooseInterrupt (afterEvents h) = none := chooseInterrupt_of_machine_masked (cur_reset c) (ie_reset c)
    exact (stepRunsTheDecodedInstruction c h i rest ⟨nmi, quiet⟩ (pcAligned_resetVector c) rfl
      (allows_execute_resetVector boots) bytes).1
  · exact fun c boots => ⟨allows_execute_resetVector boots,
      fun p has => allows_execute_entry_reset boots (mem_reachableEntries_of_mode has),
      fun input => allows_execute_entry_reset boots (mem_reachableEntries_of_nmi input)⟩

end Sys2Proof.Machine
end
